-- ==== Sys2Proof/Word.lean ====
section
/-! DEFINITION. The words of X4MBU: bytes, 32-bit words and 16-bit buffer indices (spec/00_scope.md R9). -/

namespace Sys2Proof

/-- u8 of R9: a chip address byte, a data byte, a mailbox kind tag, a register index. -/
abbrev Byte := BitVec 8

/-- u16 of R9: a buffer index (R88). -/
abbrev Half := BitVec 16

/-- u32 of R9: a command word, a data word, a 32-bit register, RDATA, a float32 pattern. -/
abbrev Word := BitVec 32

end Sys2Proof
end

