-- ==== Sys2Proof/Config.lean ====
section
/-! DEFINITION. What one implementation fixes (spec/00_scope.md R7), the spec's illustrative instance P0 (R8), and the
free values: constants with no body, which no proof can evaluate (logs 2, 3, 7, 10). -/

namespace Sys2Proof

/-- The implementation parameters of R7 that are not fixed by the source. A machine carries one choice of them in
`Machine.State.params`; no step changes it (log 3). -/
structure Params where
  /-- `P_DRAIN_MAX` (decided 200, D10) -/
  drainMax : Nat
  /-- `P_GATE_DIRECT` (decided false, D8) -/
  gateDirect : Bool
  /-- `P_KIND_PIF` -/
  kindPif : Byte
  /-- `P_KIND_XIF` -/
  kindXif : Byte
  /-- `P_WRITE_BIT` -/
  writeBit : Byte
  /-- `P_MBX_TO_CPU_ADDR` -/
  mbxToCpuAddr : Byte
  /-- `P_MBX_FROM_CPU_ADDR` -/
  mbxFromCpuAddr : Byte
  /-- `P_MBX_STATUS_ADDR` -/
  mbxStatusAddr : Byte
  /-- `P_BIT_TO_CPU_EMPTY` -/
  bitToCpuEmpty : Fin 8
  /-- `P_BIT_FROM_CPU_VALID` -/
  bitFromCpuValid : Fin 8
  /-- `P_FC_ADDR[0..3]` -/
  fcAddr : Vector Byte 4
  /-- `P_FETCH_ACTION_ADDR` -/
  fetchActionAddr : Byte
  /-- `P_ACTION_ARG` -/
  actionArg : Byte
  /-- `P_RADAR_DATA_ADDR` -/
  radarDataAddr : Byte
  /-- `P_ZERO_FRAME_CAP` -/
  zeroFrameCap : Word
  /-- `P_RAW_CAP` -/
  rawCap : Nat
  /-- `P_OUT_CAP` -/
  outCap : Nat
  /-- `P_NREQ` -/
  nreq : Nat
  deriving DecidableEq, Repr, Inhabited

namespace Config

/-- `P_POLL_MAX` = 200, fixed by the source (R7, 90_conflicts.md C3). -/
def pollMax : Nat := 200

/-- `KIND_SWREG` = 2, fixed by the source (R7, R62). -/
def kindSwreg : Byte := 2

/-- `KIND_SWACTION` = 3, fixed by the source (R7, R62). -/
def kindSwaction : Byte := 3

/-- The reference instance P0 of R8. Its values are the spec's own illustrations; the tests use it, no meaning does. -/
def referenceInstance : Params where
  drainMax := 200
  gateDirect := false
  kindPif := 0x00
  kindXif := 0x01
  writeBit := 0x80
  mbxToCpuAddr := 0x10
  mbxFromCpuAddr := 0x11
  mbxStatusAddr := 0x12
  bitToCpuEmpty := 0
  bitFromCpuValid := 1
  fcAddr := #v[0x04, 0x05, 0x06, 0x07]
  fetchActionAddr := 0x01
  actionArg := 0x00
  radarDataAddr := 0x13
  zeroFrameCap := 3
  rawCap := 256
  outCap := 128
  nreq := 2

/-- FREE VALUE: the OPEN parameters of R7 of the machine that comes out of reset (log 3). -/
opaque openParams : Params

/-- FREE VALUE: whether the chip answers `Err` to a transaction for which `State.chip` lists no answer, by the
counter `State.tick` (R66, log 2). -/
opaque freeErr : Nat → Bool

/-- FREE VALUE: the bytes the chip answers where `State.chip` lists none, by `State.tick` and the byte's place in the
answer (R66, log 2). -/
opaque freeByte : Nat → Nat → Byte

/-- FREE VALUE: the pattern of a NaN that a float32 operation produces, by `State.tick` and the number of the operation
within the step (93_implementation_defined.md, log 7). -/
opaque freeNaN : Nat → Nat → Word

/-- FREE VALUE: which of several waiting requesters gets the free lock, by `State.tick` (R104, log 10). -/
opaque freeChoice : Nat → Nat

end Config
end Sys2Proof
end

