-- ==== Sys2Proof/Syntax.lean ====
section
/-! DEFINITION. The commands of X4MBU (spec/30_encoding.md R82), a submitted request (spec/10_state.md R36) and the
pseudo-commands (R90). Every field has exactly the width its format gives it (R81, R88), so every term is encodable. -/

namespace Sys2Proof

/-- The thirteen commands, one constructor per row of spec/opcode_table.json. -/
inductive Instr where
  /-- `SET_DIRECT addr, val` (R121) -/
  | setDirect (addr val : Byte)
  /-- `GET_DIRECT addr` (R123) -/
  | getDirect (addr : Byte)
  /-- `SET_INTERNAL addr, kind, val` (R131) -/
  | setInternal (addr kind val : Byte)
  /-- `GET_INTERNAL addr, kind` (R134) -/
  | getInternal (addr kind : Byte)
  /-- `FETCH_FRAME` (R150) -/
  | fetchFrame
  /-- `UNPACK_RF` (R161) -/
  | unpackRf
  /-- `UNPACK_IQ` (R162) -/
  | unpackIq
  /-- `READ_FRAME_NORM` (R166) -/
  | readFrameNorm
  /-- `CFG_WRITE reg, data32` (R170) -/
  | cfgWrite (reg : Byte) (data : Word)
  /-- `CFG_READ reg` (R171) -/
  | cfgRead (reg : Byte)
  /-- `RAW_WRITE idx, val` (R172) -/
  | rawWrite (idx : Half) (val : Byte)
  /-- `RAW_READ idx` (R173) -/
  | rawRead (idx : Half)
  /-- `OUT_READ idx` (R174) -/
  | outRead (idx : Half)
  deriving DecidableEq, Repr

/-- One request on the command port (R80): the command word, and the data word that `CFG_WRITE` takes; `dw` is 0 beside
a command that takes none (log 12). -/
structure Request where
  cmd : Word
  dw : Word
  deriving DecidableEq, Repr

/-- The pseudo-commands of R90. -/
inductive Pseudo where
  | setSpi (addr val : Byte)
  | getSpi (addr : Byte)
  | setPif (addr val : Byte)
  | getPif (addr : Byte)
  | setXif (addr val : Byte)
  | getXif (addr : Byte)
  | setSwreg (addr val : Byte)
  | getSwreg (addr : Byte)
  | swAction (act : Byte)
  | clearZeroFrames
  deriving DecidableEq, Repr

end Sys2Proof
end

