-- ==== Sys2Proof/WellFormed.lean ====
section
/-! DEFINITION. The checks on terms that the types do not make: a legal choice of implementation parameters (spec/00_scope.md
R7) and a request whose data word belongs to it (spec/30_encoding.md R80). An `Instr` needs none: its fields are exactly
as wide as the encoding's. -/

namespace Sys2Proof

/-- The constraints that R7 and D6 put on the parameters: the two status bits differ, the buffers have 1..65536 cells,
there is a requester, the four kind tags differ, and a drain may read the status at least once (log 4). -/
def Params.legal (p : Params) : Bool :=
  p.bitToCpuEmpty != p.bitFromCpuValid
    && (1 ≤ p.rawCap && p.rawCap ≤ 65536)
    && (1 ≤ p.outCap && p.outCap ≤ 65536)
    && 1 ≤ p.nreq
    && 1 ≤ p.drainMax
    && p.kindPif != p.kindXif
    && p.kindPif != Config.kindSwreg && p.kindPif != Config.kindSwaction
    && p.kindXif != Config.kindSwreg && p.kindXif != Config.kindSwaction

/-- The OPEN parameters of the machine that comes out of reset, each one in its range by itself (any legal one is some
value of the free constant), with the two decided parameters as decided (`P_DRAIN_MAX` D10, `P_GATE_DIRECT` D8). -/
def Config.rangedParams : Params :=
  { Config.openParams with
    drainMax := 200
    gateDirect := false
    rawCap := Config.openParams.rawCap % 65536 + 1
    outCap := Config.openParams.outCap % 65536 + 1
    nreq := Config.openParams.nreq + 1 }

/-- The parameters of the machine that comes out of reset: an unknown legal choice. The second choice of status bits and
kind tags stands in only where the free constant's are not legal together (log 3). -/
def Config.params : Params :=
  let p := Config.rangedParams
  { p with
    bitToCpuEmpty := if p.legal then p.bitToCpuEmpty else 0
    bitFromCpuValid := if p.legal then p.bitFromCpuValid else 1
    kindPif := if p.legal then p.kindPif else 0
    kindXif := if p.legal then p.kindXif else 1 }

/-- The opcode of the only command that takes a data word (R80, R85). -/
def opCfgWrite : Byte := 0x10

/-- The opcode field of a command word (R81). -/
def opcodeOf (cmd : Word) : Byte := cmd.extractLsb' 24 8

/-- A data word stands only beside a command that takes one (R80, R85, log 12). -/
def Request.dataFits (q : Request) : Bool :=
  opcodeOf q.cmd == opCfgWrite || q.dw == 0

end Sys2Proof
end

