-- ==== Sys2Proof/Decode.lean ====
section
/-! DEFINITION. The decoder of a request, total and rejecting by name (spec/30_encoding.md R81 to R85, R88), the table of
opcodes with its legality check (R82, R101), and after them the encoder, the pseudo-commands' expansions (R90) and the
host's way of writing a table word. -/

namespace Sys2Proof

/-! ## Fields of a command word (R81) -/

/-- cmd[23:16]: ADDR or REG. -/
def fieldHigh (cmd : Word) : Byte := cmd.extractLsb' 16 8

/-- cmd[15:8]: VAL of format D, KIND of formats I and IR. -/
def fieldMid (cmd : Word) : Byte := cmd.extractLsb' 8 8

/-- cmd[7:0]: VAL of formats I and X. -/
def fieldLow (cmd : Word) : Byte := cmd.extractLsb' 0 8

/-- cmd[23:8]: IDX. -/
def fieldIdx (cmd : Word) : Half := cmd.extractLsb' 8 16

/-- cmd[15:0], reserved in formats DR and C. -/
def fieldLow16 (cmd : Word) : Half := cmd.extractLsb' 0 16

/-- cmd[23:0], reserved in format N. -/
def fieldLow24 (cmd : Word) : BitVec 24 := cmd.extractLsb' 0 24

/-! ## Decoding -/

/-- Why a request is illegal. -/
inductive DecodeError where
  /-- an opcode R82 does not list (R84) -/
  | undefinedOpcode (op : Byte)
  /-- a known opcode with a reserved-zero bit set (R83) -/
  | reservedNotZero (op : Byte)
  deriving DecidableEq, Repr

/-- The command if the word's reserved field is zero (R83). -/
def ifReservedZero (cmd : Word) (zero : Bool) (i : Instr) : Except DecodeError Instr :=
  if zero then .ok i else .error (.reservedNotZero (opcodeOf cmd))

/-- The command a request stands for (R82, R83, R84, R88). -/
def decode (q : Request) : Except DecodeError Instr :=
  let c := q.cmd
  match (opcodeOf c).toNat with
  | 0x01 => ifReservedZero c (fieldLow c == 0) (.setDirect (fieldHigh c) (fieldMid c))
  | 0x02 => ifReservedZero c (fieldLow16 c == 0) (.getDirect (fieldHigh c))
  | 0x03 => .ok (.setInternal (fieldHigh c) (fieldMid c) (fieldLow c))
  | 0x04 => ifReservedZero c (fieldLow c == 0) (.getInternal (fieldHigh c) (fieldMid c))
  | 0x05 => ifReservedZero c (fieldLow24 c == 0) .fetchFrame
  | 0x06 => ifReservedZero c (fieldLow24 c == 0) .unpackRf
  | 0x07 => ifReservedZero c (fieldLow24 c == 0) .unpackIq
  | 0x08 => ifReservedZero c (fieldLow24 c == 0) .readFrameNorm
  | 0x10 => ifReservedZero c (fieldLow16 c == 0) (.cfgWrite (fieldHigh c) q.dw)
  | 0x11 => ifReservedZero c (fieldLow16 c == 0) (.cfgRead (fieldHigh c))
  | 0x12 => .ok (.rawWrite (fieldIdx c) (fieldLow c))
  | 0x13 => ifReservedZero c (fieldLow c == 0) (.rawRead (fieldIdx c))
  | 0x14 => ifReservedZero c (fieldLow c == 0) (.outRead (fieldIdx c))
  | _ => .error (.undefinedOpcode (opcodeOf c))

/-- The command of a legal request, none for an illegal one. -/
def decode? (q : Request) : Option Instr := (decode q).toOption

/-- A row of the opcode table: the bits a word of the row has (`value`) under `mask`. -/
structure OpcodeRow where
  mnemonic : String
  value : Word
  mask : Word
  deriving DecidableEq, Repr

/-- R82 with the reserved fields of R81, row by row as spec/opcode_table.json gives match and mask. -/
def opcodeTable : List OpcodeRow :=
  [ ⟨"SET_DIRECT", 0x01000000, 0xFF0000FF⟩,
    ⟨"GET_DIRECT", 0x02000000, 0xFF00FFFF⟩,
    ⟨"SET_INTERNAL", 0x03000000, 0xFF000000⟩,
    ⟨"GET_INTERNAL", 0x04000000, 0xFF0000FF⟩,
    ⟨"FETCH_FRAME", 0x05000000, 0xFFFFFFFF⟩,
    ⟨"UNPACK_RF", 0x06000000, 0xFFFFFFFF⟩,
    ⟨"UNPACK_IQ", 0x07000000, 0xFFFFFFFF⟩,
    ⟨"READ_FRAME_NORM", 0x08000000, 0xFFFFFFFF⟩,
    ⟨"CFG_WRITE", 0x10000000, 0xFF00FFFF⟩,
    ⟨"CFG_READ", 0x11000000, 0xFF00FFFF⟩,
    ⟨"RAW_WRITE", 0x12000000, 0xFF000000⟩,
    ⟨"RAW_READ", 0x13000000, 0xFF0000FF⟩,
    ⟨"OUT_READ", 0x14000000, 0xFF0000FF⟩ ]

/-- Whether a word belongs to a row. -/
def OpcodeRow.matches (row : OpcodeRow) (cmd : Word) : Bool := cmd &&& row.mask == row.value

/-- `legal(cmd)` of R101: a listed opcode with every reserved bit zero. -/
def legal (cmd : Word) : Bool := opcodeTable.any (·.matches cmd)

/-! ## Encoding -/

/-- A command word from its four bytes, the opcode uppermost. -/
def packBytes (op high mid low : Byte) : Word := op ++ high ++ mid ++ low

/-- A command word of formats X and XR. -/
def packIdx (op : Byte) (idx : Half) (low : Byte) : Word := op ++ idx ++ low

/-- The request of a command: its word by R81 and R82, and its data word (0 where it takes none). -/
def encode : Instr → Request
  | .setDirect addr val => ⟨packBytes 0x01 addr val 0, 0⟩
  | .getDirect addr => ⟨packBytes 0x02 addr 0 0, 0⟩
  | .setInternal addr kind val => ⟨packBytes 0x03 addr kind val, 0⟩
  | .getInternal addr kind => ⟨packBytes 0x04 addr kind 0, 0⟩
  | .fetchFrame => ⟨packBytes 0x05 0 0 0, 0⟩
  | .unpackRf => ⟨packBytes 0x06 0 0 0, 0⟩
  | .unpackIq => ⟨packBytes 0x07 0 0 0, 0⟩
  | .readFrameNorm => ⟨packBytes 0x08 0 0 0, 0⟩
  | .cfgWrite reg data => ⟨packBytes 0x10 reg 0 0, data⟩
  | .cfgRead reg => ⟨packBytes 0x11 reg 0 0, 0⟩
  | .rawWrite idx val => ⟨packIdx 0x12 idx val, 0⟩
  | .rawRead idx => ⟨packIdx 0x13 idx 0, 0⟩
  | .outRead idx => ⟨packIdx 0x14 idx 0, 0⟩

/-- The mnemonic of a command (R82). -/
def Instr.mnemonic : Instr → String
  | .setDirect _ _ => "SET_DIRECT"
  | .getDirect _ => "GET_DIRECT"
  | .setInternal _ _ _ => "SET_INTERNAL"
  | .getInternal _ _ => "GET_INTERNAL"
  | .fetchFrame => "FETCH_FRAME"
  | .unpackRf => "UNPACK_RF"
  | .unpackIq => "UNPACK_IQ"
  | .readFrameNorm => "READ_FRAME_NORM"
  | .cfgWrite _ _ => "CFG_WRITE"
  | .cfgRead _ => "CFG_READ"
  | .rawWrite _ _ => "RAW_WRITE"
  | .rawRead _ => "RAW_READ"
  | .outRead _ => "OUT_READ"

/-- The command a pseudo-command stands for, with the parameters it names (R90). -/
def Pseudo.expand (p : Params) : Pseudo → Instr
  | .setSpi addr val => .setDirect addr val
  | .getSpi addr => .getDirect addr
  | .setPif addr val => .setInternal addr p.kindPif val
  | .getPif addr => .getInternal addr p.kindPif
  | .setXif addr val => .setInternal addr p.kindXif val
  | .getXif addr => .getInternal addr p.kindXif
  | .setSwreg addr val => .setInternal addr 2 val
  | .getSwreg addr => .getInternal addr 2
  | .swAction act => .setInternal act 3 p.actionArg
  | .clearZeroFrames => .cfgWrite 0x08 0

/-! ## The host's table words -/

/-- A request as it arrives on the port: the data word is kept only beside a command that takes one (R80, log 12). -/
def portRequest (cmd dw : Word) : Request :=
  ⟨cmd, if opcodeOf cmd == opCfgWrite then dw else 0⟩

/-- The request whose bits are the low `nbits` bits of `w`, every bit above them 0: bits 31:0 are the command word and
bits 63:32 the data word (spec/opcode_table.source.json, log 25). -/
def tableRequest (nbits w : Nat) : Request :=
  let v := w % 2 ^ nbits
  portRequest (BitVec.ofNat 32 v) (BitVec.ofNat 32 (v / 2 ^ 32))

/-- The command the decoder reads from a table word. -/
def decodeTableWord (nbits w : Nat) : Option Instr := decode? (tableRequest nbits w)

end Sys2Proof
end

