-- ==== Sys2Proof/Machine/State.lean ====
section
/-! DEFINITION. Everything the spec gives X4MBU to hold (spec/10_state.md), as plain data, with the outcomes that are not
a next state (spec/60_exceptions.md R226) and the state right after reset (spec/70_reset_and_hazards.md R250). -/

namespace Sys2Proof.Machine

/-- A register or cell that can hold the spec's own UNSET (R11, R22): `none` is UNSET, the reset value R22 gives
FRAME_READ_SIZE, NFACTOR, NORM_OFFSET, FILTER_NORM and LOCK_TIMEOUT_MS (log 5). -/
abbrev UnsetOr (α : Type) := Option α

/-- Cells by index, the indices strictly rising; an unlisted index holds nothing (UNSET for a buffer, log 6; None for
the requesters' slots, R36). -/
abbrev Memory (α : Type) := List (Nat × α)

/-- The configuration registers (R22). -/
structure CfgRegs where
  /-- INITIALIZED, index 0x00 (R23) -/
  initialized : BitVec 1
  /-- DOWNCONV_EN, index 0x01 (R26) -/
  downconvEn : BitVec 1
  /-- IQ_SEPARATE, index 0x02 (R26) -/
  iqSeparate : BitVec 1
  /-- BPC, index 0x03 (R28) -/
  bpc : BitVec 8
  /-- FRAME_READ_SIZE, index 0x04 (R29) -/
  frameReadSize : UnsetOr Word
  /-- NFACTOR, index 0x05 (R27) -/
  nfactor : UnsetOr Word
  /-- NORM_OFFSET, index 0x06 (R27) -/
  normOffset : UnsetOr Word
  /-- FILTER_NORM, index 0x07 (R27) -/
  filterNorm : UnsetOr Word
  /-- ZERO_FRAME_CTR, index 0x08 (R31) -/
  zeroFrameCtr : Word
  /-- FRAME_COUNTER, index 0x09 (R32) -/
  frameCounter : Word
  /-- OUT_COUNT, index 0x0A (R33) -/
  outCount : Word
  /-- LOCK_TIMEOUT_MS, index 0x0B (R34) -/
  lockTimeoutMs : UnsetOr Word
  deriving DecidableEq, Repr

/-- The names of the configuration registers (R22). -/
inductive CfgReg where
  | initialized | downconvEn | iqSeparate | bpc | frameReadSize | nfactor | normOffset | filterNorm
  | zeroFrameCtr | frameCounter | outCount | lockTimeoutMs
  deriving DecidableEq, Repr

/-- The STATUS of a response (spec/30_encoding.md R86); its code is `Status.code`. -/
inductive Status where
  | ok | busy | uninitialized | pifTimeout | bufferTooSmall | unpackCounterTooLarge | hwError | illegalCommand | outOfRange
  deriving DecidableEq, Repr

/-- A response (R87). -/
structure Response where
  status : Status
  rdata : Word
  deriving DecidableEq, Repr

/-- A transaction on the SPI master port (spec/20_memory.md R64). -/
inductive SpiOp where
  /-- `W(bs)` -/
  | write (bytes : List Byte)
  /-- `R(n)` -/
  | read (count : Nat)
  /-- `WR(bs, n)` -/
  | writeRead (bytes : List Byte) (count : Nat)
  deriving DecidableEq, Repr

/-- How a transaction ends (R64): `Ok` with the bytes read (none for a write), or `Err`. -/
inductive SpiResult where
  | ok (bytes : List Byte)
  | err
  deriving DecidableEq, Repr

/-- One entry of the trace T (R64, spec/10_state.md R40). -/
structure TraceEntry where
  op : SpiOp
  result : SpiResult
  deriving DecidableEq, Repr

/-- Where inside one mailbox access (spec/42_mailbox.md R136, R137) the next transaction is, with the loop counters of
R37. -/
inductive MailboxPos where
  /-- drain iteration `d`: the write of the status address (R130) -/
  | drainStatusSend (d : Nat)
  /-- drain iteration `d`: the read of the status byte -/
  | drainStatusRecv (d : Nat)
  /-- drain iteration `d`: the write of the from-CPU address -/
  | drainDataSend (d : Nat)
  /-- drain iteration `d`: the read of one stale byte -/
  | drainDataRecv (d : Nat)
  /-- the write of queued byte `i` (R132) -/
  | queue (i : Nat)
  /-- poll `n`: the write of the status address (R133, R135) -/
  | pollSend (n : Nat)
  /-- poll `n`: the read of the status byte -/
  | pollRecv (n : Nat)
  /-- after poll `n` succeeded: the write of the from-CPU address (R135) -/
  | replySend (n : Nat)
  /-- after poll `n` succeeded: the read of the reply byte (R135) -/
  | replyRecv (n : Nat)
  deriving DecidableEq, Repr

/-- `step` of R21: where in the pseudocode of the command in flight the next step is, with the pseudocode's local values
(logs 11, 20). -/
inductive Pos where
  /-- before the first check -/
  | start
  /-- `GET_DIRECT`: the read of the byte (R122) -/
  | directRecv
  /-- `SET_INTERNAL`, `GET_INTERNAL`: inside the mailbox access -/
  | mailbox (m : MailboxPos)
  /-- `FETCH_FRAME`, `READ_FRAME_NORM`: inside the read of frame-counter byte `j`, with `frs` and the bytes read so far
  in place (R151) -/
  | counter (frs : Nat) (j : Fin 4) (acc : Word) (m : MailboxPos)
  /-- inside the fetch action, with `frs` and the frame counter (R152) -/
  | action (frs : Nat) (fc : Word) (m : MailboxPos)
  /-- before the raw read (R153) -/
  | raw (frs : Nat) (fc : Word)
  /-- `READ_FRAME_NORM`: after the commit, before the unpack body (R166) -/
  | unpack (fc : Word)
  deriving DecidableEq, Repr

/-- The FSM phase `pc` (R21). -/
inductive Phase where
  | idle
  | exec (r : Nat) (q : Request) (p : Pos)
  deriving DecidableEq, Repr

/-- What an agent does next (spec/40_command_lifecycle.md R99, log 1). -/
inductive Event where
  /-- X4MBU takes its step -/
  | x4mbu
  /-- requester `r` submits a request (R100) -/
  | submit (r : Nat) (cmd dw : Word)
  /-- requester `r` reads and clears its response (R36, R105) -/
  | readResponse (r : Nat)
  /-- requester `r` gives up waiting for the lock (R103) -/
  | giveUp (r : Nat)
  /-- X4MBU gives the free lock to requester `r` (R102, R104) -/
  | grant (r : Nat)
  /-- a reset arrives (R251) -/
  | reset
  deriving DecidableEq, Repr

/-- The state of the machine: the spec's (the first ten fields), then the model's own (logs 1, 2, 3, 17). -/
structure State where
  /-- the configuration registers (R22) -/
  cfg : CfgRegs
  /-- RAWBUF (R24) -/
  rawbuf : Memory Byte
  /-- OUTBUF (R25) -/
  outbuf : Memory Word
  /-- lock_owner (R35) -/
  lockOwner : Option Nat
  /-- the FSM phase (R21, R37) -/
  pc : Phase
  /-- req[r] by requester (R36) -/
  req : Memory Request
  /-- resp[r] by requester (R36) -/
  resp : Memory Response
  /-- T, oldest first (R40) -/
  trace : List TraceEntry
  /-- the implementation parameters of this machine (spec/00_scope.md R7); no step changes them -/
  params : Params
  /-- what the agents do next, first first; past its end X4MBU moves -/
  schedule : List Event
  /-- what the chip answers next, first first; past its end it answers free values (R66) -/
  chip : List SpiResult
  /-- how many free values have been used -/
  tick : Nat
  deriving DecidableEq, Repr

/-- The model faults of R226. -/
inductive Fault where
  /-- A command read an UNSET configuration register or buffer cell (R11, R226): raised by CFG_READ, RAW_READ, OUT_READ,
  the unpack commands, FETCH_FRAME and READ_FRAME_NORM. Safe: the spec gives real hardware's value there no meaning. -/
  | readUnset
  /-- An unpack ran with BPC = 0 (R161, R162, R226): raised by UNPACK_RF, UNPACK_IQ and READ_FRAME_NORM. Safe: the spec
  gives the count `FRAME_READ_SIZE div 0` no meaning. -/
  | counterWidthZero
  deriving DecidableEq, Repr

/-- Why the model gives an instruction no meaning. -/
inductive Refusal where
  /-- Raised only by an arm of `exec` whose instruction has no meaning yet; no arm is left so. Safe: nothing runs. -/
  | notModelled (mnemonic : String)
  deriving DecidableEq, Repr

/-- The outcome of one step. -/
abbrev Outcome := Host.Outcome State Fault Refusal

/-- The configuration registers after reset (R22, R250). -/
def CfgRegs.reset : CfgRegs where
  initialized := 0
  downconvEn := 0
  iqSeparate := 0
  bpc := 3
  frameReadSize := none
  nfactor := none
  normOffset := none
  filterNorm := none
  zeroFrameCtr := 0
  frameCounter := 0
  outCount := 0
  lockTimeoutMs := none

/-- The machine right after reset (R250): registers as R22, both buffers UNSET, the lock free, Idle, every slot None, T
empty. The model's own fields: unknown legal parameters, nothing scheduled, no chip answer listed (logs 3, 17). -/
def State.reset : State where
  cfg := CfgRegs.reset
  rawbuf := []
  outbuf := []
  lockOwner := none
  pc := .idle
  req := []
  resp := []
  trace := []
  params := Config.params
  schedule := []
  chip := []
  tick := 0

end Sys2Proof.Machine
end

