-- ==== Sys2Proof/Machine/Ops.lean ====
section
/-! DEFINITION. The named operations over memory, slots, the SPI port and the command in flight: the memory primitives of
spec/00_scope.md R12, the SPI primitives of R13, the control primitives of R14, and the ending of a command, by a result or
by an error, of spec/40_command_lifecycle.md R106 and spec/60_exceptions.md R224. -/

namespace Sys2Proof.Machine

/-! ## Cells by index -/

namespace Memory

variable {α : Type}

/-- What index `k` holds; `none` where nothing is listed. -/
def get? : Memory α → Nat → Option α
  | [], _ => none
  | (a, v) :: m, k => if a = k then some v else get? m k

/-- Index `k` holds `v` afterwards; the indices stay strictly rising. -/
def set : Memory α → Nat → α → Memory α
  | [], k, v => [(k, v)]
  | (a, w) :: m, k, v =>
    if k < a then (k, v) :: (a, w) :: m
    else if a = k then (k, v) :: m
    else (a, w) :: set m k v

/-- Index `k` holds nothing afterwards. -/
def erase : Memory α → Nat → Memory α
  | [], _ => []
  | (a, w) :: m, k => if a = k then m else (a, w) :: erase m k

/-- The canonical form: indices strictly rising. (Every listed cell holds a value, so none equals what an unlisted one
reads as.) -/
abbrev wf (m : Memory α) : Prop := (m.map Prod.fst).Pairwise (· < ·)

/-- Every listed index is below `cap`. -/
abbrev below (cap : Nat) (m : Memory α) : Prop := ∀ c ∈ m, c.1 < cap

/-- `MemRead(_, i, n)` of R12: the `n` cells from index `i`, none if any of them is UNSET. -/
def readRange (m : Memory α) (i : Nat) : Nat → Option (List α)
  | 0 => some []
  | n + 1 =>
    match get? m i, readRange m (i + 1) n with
    | some v, some vs => some (v :: vs)
    | _, _ => none

/-- `MemWrite(_, i, n, vs)` of R12: the cells from index `i` hold `vs`. -/
def writeRange (m : Memory α) (i : Nat) : List α → Memory α
  | [] => m
  | v :: vs => writeRange (set m i v) (i + 1) vs

end Memory

/-! ## The command in flight and its ending -/

/-- The phase at position `p` of the same command. -/
def Phase.moveTo (p : Pos) : Phase → Phase
  | .idle => .idle
  | .exec r q _ => .exec r q p

/-- The requester whose command is in flight. -/
def Phase.requester? : Phase → Option Nat
  | .idle => none
  | .exec r _ _ => some r

/-- The command in flight goes on at position `p`. -/
def State.goto (s : State) (p : Pos) : State := { s with pc := s.pc.moveTo p }

/-- The last step of a command (R106): all at once, its response, its slot emptied, the lock released, Idle. -/
def State.endCommand (s : State) (st : Status) (rdata : Word) : State :=
  match s.pc with
  | .idle => s
  | .exec r _ _ =>
    { s with
      resp := Memory.set s.resp r ⟨st, rdata⟩
      req := Memory.erase s.req r
      lockOwner := none
      pc := .idle }

/-- `return v` of R14. -/
def State.ret (s : State) (v : Word) : State := s.endCommand .ok v

/-- `raise S` of R14: entry into an error (R224). RDATA is 0 (R87). -/
def State.raise (s : State) (st : Status) : State := s.endCommand st 0

/-- A command's step from its position; with no command in flight there is nothing to execute (log 13). -/
def underLock (s : State) (k : Pos → Outcome) : Outcome :=
  match s.pc with
  | .idle => .next s
  | .exec _ _ p => k p

/-! ## The SPI master port (R13, R64, R66) -/

/-- How many bytes a transaction reads. -/
def SpiOp.count : SpiOp → Nat
  | .write _ => 0
  | .read n => n
  | .writeRead _ n => n

/-- Exactly `n` bytes out of a listed answer: its bytes in order, a free value where it lists none (log 2). -/
def fitBytes (tick n : Nat) (bytes : List Byte) : List Byte :=
  (List.range n).map fun k => (bytes[k]?).getD (Config.freeByte tick k)

/-- The chip's answer to a transaction (R66): the listed one, or a free one when none is listed. -/
def State.answer (s : State) (op : SpiOp) : SpiResult :=
  match s.chip with
  | .ok bytes :: _ => .ok (fitBytes s.tick op.count bytes)
  | .err :: _ => .err
  | [] => if Config.freeErr s.tick then .err else .ok (fitBytes s.tick op.count [])

/-- The state after a transaction: one more entry in T (R64), the answer used up. -/
def State.record (s : State) (op : SpiOp) : State :=
  { s with
    trace := s.trace ++ [⟨op, s.answer op⟩]
    chip := s.chip.tail
    tick := s.tick + 1 }

/-- One transaction: `HwError` if the chip answers `Err` (R120, R122, R153), else on with the bytes read. -/
def transact (s : State) (op : SpiOp) (k : List Byte → State → State) : State :=
  match s.answer op with
  | .ok bytes => k bytes (s.record op)
  | .err => (s.record op).raise .hwError

/-- The first byte of an answer (`res.bytes[0]`, R122). -/
def firstByte (bytes : List Byte) : Byte := bytes.headD 0

/-- `DirectWrite(a, v)` (R120): one write of `a | P_WRITE_BIT` and `v`. -/
def directWrite (s : State) (a v : Byte) (k : State → State) : State :=
  transact s (.write [a ||| s.params.writeBit, v]) fun _ => k

/-- The first transaction of `DirectRead(a)` (R122): the write of `a`. -/
def directSend (s : State) (a : Byte) (k : State → State) : State :=
  transact s (.write [a]) fun _ => k

/-- The second transaction of `DirectRead` (R122): the read of one byte. -/
def directRecv (s : State) (k : Byte → State → State) : State :=
  transact s (.read 1) fun bytes => k (firstByte bytes)

end Sys2Proof.Machine
end

