-- ==== Sys2Proof/Machine/Operands.lean ====
section
/-! DEFINITION. The operand forms: a configuration register by its index (spec/10_state.md R22), its read and write with
the widths of spec/45_host_access.md R170 and R171, a buffer index (R172 to R174), and the counters assembled from RAWBUF
(spec/44_unpack.md R160, R163). -/

namespace Sys2Proof.Machine

/-! ## Configuration registers -/

/-- The register an index names; none for the reserved indices 0x0C..0xFF (R22). -/
def CfgReg.ofIndex (reg : Byte) : Option CfgReg :=
  match reg.toNat with
  | 0x00 => some .initialized
  | 0x01 => some .downconvEn
  | 0x02 => some .iqSeparate
  | 0x03 => some .bpc
  | 0x04 => some .frameReadSize
  | 0x05 => some .nfactor
  | 0x06 => some .normOffset
  | 0x07 => some .filterNorm
  | 0x08 => some .zeroFrameCtr
  | 0x09 => some .frameCounter
  | 0x0A => some .outCount
  | 0x0B => some .lockTimeoutMs
  | _ => none

/-- Access RO in R22: the host may only read it. -/
def CfgReg.readOnly : CfgReg → Bool
  | .frameCounter | .outCount => true
  | _ => false

/-- `cfg[NAME]`, zero-extended to 32 bits (R22); none where it holds UNSET. -/
def CfgRegs.read (c : CfgRegs) : CfgReg → UnsetOr Word
  | .initialized => some (c.initialized.setWidth 32)
  | .downconvEn => some (c.downconvEn.setWidth 32)
  | .iqSeparate => some (c.iqSeparate.setWidth 32)
  | .bpc => some (c.bpc.setWidth 32)
  | .frameReadSize => c.frameReadSize
  | .nfactor => c.nfactor
  | .normOffset => c.normOffset
  | .filterNorm => c.filterNorm
  | .zeroFrameCtr => some c.zeroFrameCtr
  | .frameCounter => some c.frameCounter
  | .outCount => some c.outCount
  | .lockTimeoutMs => c.lockTimeoutMs

/-- `cfg[NAME] <- v`: a register narrower than 32 bits keeps the low bits (R170). -/
def CfgRegs.write (c : CfgRegs) (reg : CfgReg) (v : Word) : CfgRegs :=
  match reg with
  | .initialized => { c with initialized := v.setWidth 1 }
  | .downconvEn => { c with downconvEn := v.setWidth 1 }
  | .iqSeparate => { c with iqSeparate := v.setWidth 1 }
  | .bpc => { c with bpc := v.setWidth 8 }
  | .frameReadSize => { c with frameReadSize := some v }
  | .nfactor => { c with nfactor := some v }
  | .normOffset => { c with normOffset := some v }
  | .filterNorm => { c with filterNorm := some v }
  | .zeroFrameCtr => { c with zeroFrameCtr := v }
  | .frameCounter => { c with frameCounter := v }
  | .outCount => { c with outCount := v }
  | .lockTimeoutMs => { c with lockTimeoutMs := some v }

/-- The state with one configuration register written. -/
def State.writeCfg (s : State) (reg : CfgReg) (v : Word) : State :=
  { s with cfg := s.cfg.write reg v }

/-! ## Little-endian fields -/

/-- The number whose byte k has weight 2^(8k) (R67). -/
def littleEndian : List Byte → Nat
  | [] => 0
  | b :: bs => b.toNat + 256 * littleEndian bs

/-- `Counter(i, w)` (R160): the w bytes from index i*w, little-endian; none where one of them is UNSET. -/
def counter (raw : Memory Byte) (i w : Nat) : Option Nat :=
  (raw.readRange (i * w) w).map littleEndian

/-- The counters `i`, `i+1`, .. (`n` of them); none where a byte of one is UNSET. -/
def counters (raw : Memory Byte) (w i : Nat) : Nat → Option (List Nat)
  | 0 => some []
  | n + 1 =>
    match counter raw i w, counters raw w (i + 1) n with
    | some c, some cs => some (c :: cs)
    | _, _ => none

/-- `sext_{8w}(c)` (R163). -/
def signExtend (w c : Nat) : Int :=
  if c ≥ 2 ^ (8 * w - 1) then (c : Int) - 2 ^ (8 * w) else c

/-- Byte `j` of the frame counter put in its place (R151). -/
def placeByte (acc : Word) (j : Fin 4) (b : Byte) : Word :=
  acc ||| (b.setWidth 32 <<< (8 * j.val))

end Sys2Proof.Machine
end

