-- ==== Sys2Proof/Machine/Float.lean ====
section
/-! DEFINITION. The float32 primitives of spec/00_scope.md R10: IEEE 754 binary32 on 32-bit patterns, every result computed
exactly on integers and rounded once, to nearest, ties to even; subnormals kept (D18, log 8). The unit of every exact value
is 2^-149, the least positive binary32. -/

namespace Sys2Proof.Machine.F32

/-- Bit 31, the sign (R69). -/
def sign (a : Word) : Bool := a.getLsbD 31

/-- Bits 30:23, the biased exponent. -/
def expField (a : Word) : Nat := (a.extractLsb' 23 8).toNat

/-- Bits 22:0, the fraction. -/
def fracField (a : Word) : Nat := (a.extractLsb' 0 23).toNat

/-- A NaN pattern. -/
def isNaN (a : Word) : Bool := expField a == 255 && fracField a != 0

/-- A pattern of plus or minus infinity. -/
def isInf (a : Word) : Bool := expField a == 255 && fracField a == 0

/-- A pattern of a number. -/
def isFinite (a : Word) : Bool := expField a != 255

/-- A pattern of plus or minus zero. -/
def isZero (a : Word) : Bool := expField a == 0 && fracField a == 0

/-- The magnitude of a finite pattern in units of 2^-149. -/
def mag (a : Word) : Nat :=
  if expField a = 0 then fracField a else (2 ^ 23 + fracField a) * 2 ^ (expField a - 1)

/-- The value of a finite pattern in units of 2^-149. -/
def value (a : Word) : Int := if sign a then -(mag a : Int) else mag a

/-- A pattern from a sign and its low 31 bits. -/
def withSign (neg : Bool) (low : Nat) : Word := BitVec.ofNat 32 ((if neg then 2 ^ 31 else 0) + low)

/-- The low 31 bits of infinity. -/
def infBits : Nat := 0x7F800000

/-- `m / 2^t` rounded to the nearest integer, ties to the even one. -/
def shiftRightRNE (m t : Nat) : Nat :=
  let q := m / 2 ^ t
  let twice := 2 * (m % 2 ^ t)
  if twice > 2 ^ t ∨ (twice = 2 ^ t ∧ q % 2 = 1) then q + 1 else q

/-- The low 31 bits of the binary32 nearest to `m / 2^u` (ties to even; infinity past the largest number). The result's
last place is 2^(k - 149) with `k` as small as 24 significant bits and the subnormal range allow; a significand that rounds
up to 2^24 carries into the exponent field by itself. -/
def roundMag (m u : Nat) : Nat :=
  let k := Nat.log2 m + 126 - u
  let sig := if k + u ≥ 149 then shiftRightRNE m (k + u - 149) else m * 2 ^ (149 - (k + u))
  if m = 0 then 0 else min (k * 2 ^ 23 + sig) infBits

/-- The binary32 nearest to plus or minus `m / 2^u`. -/
def round (neg : Bool) (m u : Nat) : Word := withSign neg (roundMag m u)

/-- `f32_of_int(n)` (R10). -/
def ofInt (n : Int) : Word := round (decide (n < 0)) n.natAbs 0

/-- A pattern made a NaN: its exponent all ones, and its fraction not zero (93_implementation_defined.md: any NaN
pattern; every NaN pattern is left as it is). -/
def forceNaN (a : Word) : Word :=
  let b := a ||| 0x7F800000
  if fracField b = 0 then b ||| 0x00400000 else b

/-- `f32_mul(a, b)` (R10); `nan` is the pattern of the result where it is a NaN (log 7). -/
def mul (nan a b : Word) : Word :=
  let neg := sign a ^^ sign b
  if isNaN a || isNaN b || (isInf a && isZero b) || (isZero a && isInf b) then forceNaN nan
  else if isInf a || isInf b then withSign neg infBits
  else round neg (mag a * mag b) 298

/-- `f32_neg(a)` (R10): flips bit 31 and nothing else. -/
def neg (a : Word) : Word := a ^^^ 0x80000000

/-- `f32_sub(a, b)` (R10); `nan` is the pattern of the result where it is a NaN (log 7). An exact zero is +0, but for
(-0) - (+0), which is -0. -/
def sub (nan a b : Word) : Word :=
  if isNaN a || isNaN b || (isInf a && isInf b && sign a == sign b) then forceNaN nan
  else if isInf a then a
  else if isInf b then neg b
  else if value a = value b then withSign (isZero a && sign a && !sign b) 0
  else round (decide (value a < value b)) (value a - value b).natAbs 149

/-- A pattern's place in the order of the numbers and infinities; both zeros have place 0. -/
def order (a : Word) : Int :=
  let low : Int := (a.extractLsb' 0 31).toNat
  if sign a then -low else low

/-- `f32_le(a, b)` (R10): the ordered comparison, false when either operand is a NaN. -/
def le (a b : Word) : Bool := !isNaN a && !isNaN b && decide (order a ≤ order b)

/-- `EPS` of R10: 2^-23. -/
def eps : Word := 0x34000000

end Sys2Proof.Machine.F32
end

