-- ==== Sys2Proof/Machine/Flags.lean ====
section
/-! DEFINITION. The conditions a command leaves behind (spec/10_state.md R38): the STATUS byte of its response
(spec/30_encoding.md R86), the status-byte bits the mailbox FSM tests (spec/42_mailbox.md), and the zero-frame condition
(spec/44_unpack.md R165). X4MBU has no flags. -/

namespace Sys2Proof.Machine

/-- The STATUS byte (R86). -/
def Status.code : Status → Byte
  | .ok => 0x00
  | .busy => 0x01
  | .uninitialized => 0x02
  | .pifTimeout => 0x03
  | .bufferTooSmall => 0x04
  | .unpackCounterTooLarge => 0x05
  | .hwError => 0x06
  | .illegalCommand => 0x07
  | .outOfRange => 0x08

/-- "to-CPU empty" of a mailbox status byte. -/
def toCpuEmpty (p : Params) (status : Byte) : Bool := status.getLsbD p.bitToCpuEmpty.val

/-- "from-CPU valid" of a mailbox status byte. -/
def fromCpuValid (p : Params) (status : Byte) : Bool := status.getLsbD p.bitFromCpuValid.val

/-- A normalized value counts as zero when -EPS ≤ v ≤ EPS (R165). -/
def countsAsZero (v : Word) : Bool := F32.le (F32.neg F32.eps) v && F32.le v F32.eps

/-- `ZeroTrack(vals)` of R165: ZERO_FRAME_CTR after a frame. -/
def zeroTrack (cap ctr : Word) (vals : List Word) : Word :=
  if vals.all countsAsZero then
    if ctr < cap then ctr + 1 else ctr
  else 0

end Sys2Proof.Machine
end

