-- ==== Sys2Proof/Machine/Direct.lean ====
section
/-! DEFINITION. The direct-bus commands (spec/41_direct_bus.md). -/

namespace Sys2Proof.Machine

/-- The gate of the direct commands (R124): closed only when `P_GATE_DIRECT` and INITIALIZED is 0. -/
def State.directGateClosed (s : State) : Bool := s.params.gateDirect && s.cfg.initialized == 0

/-- `SET_DIRECT addr, val` (R121): its one transaction, which also ends it. -/
def execSetDirect (addr val : Byte) (s : State) : Outcome :=
  underLock s fun _ => .next <|
    if s.directGateClosed then s.raise .uninitialized
    else directWrite s addr val fun t => t.ret 0

/-- `GET_DIRECT addr` (R123): the write of the address, then the read of the byte, which ends it. -/
def execGetDirect (addr : Byte) (s : State) : Outcome :=
  underLock s fun p => .next <|
    match p with
    | .directRecv => directRecv s fun b t => t.ret (b.setWidth 32)
    | _ =>
      if s.directGateClosed then s.raise .uninitialized
      else directSend s addr fun t => t.goto .directRecv

end Sys2Proof.Machine
end

