-- ==== Sys2Proof/Machine/HostAccess.lean ====
section
/-! DEFINITION. The host access commands (spec/45_host_access.md): one step each, no transaction, no gate. -/

namespace Sys2Proof.Machine

/-- `CFG_WRITE reg, data32` (R170). -/
def execCfgWrite (reg : Byte) (data : Word) (s : State) : Outcome :=
  underLock s fun _ => .next <|
    match CfgReg.ofIndex reg with
    | none => s.raise .illegalCommand
    | some name => if name.readOnly then s.raise .illegalCommand else (s.writeCfg name data).ret 0

/-- `CFG_READ reg` (R171). -/
def execCfgRead (reg : Byte) (s : State) : Outcome :=
  underLock s fun _ =>
    match CfgReg.ofIndex reg with
    | none => .next (s.raise .illegalCommand)
    | some name =>
      match s.cfg.read name with
      | none => .fault .readUnset
      | some v => .next (s.ret v)

/-- `RAW_WRITE idx, val` (R172). -/
def execRawWrite (idx : Half) (val : Byte) (s : State) : Outcome :=
  underLock s fun _ => .next <|
    if idx.toNat ≥ s.params.rawCap then s.raise .outOfRange
    else State.ret { s with rawbuf := Memory.writeRange s.rawbuf idx.toNat [val] } 0

/-- `RAW_READ idx` (R173). -/
def execRawRead (idx : Half) (s : State) : Outcome :=
  underLock s fun _ =>
    if idx.toNat ≥ s.params.rawCap then .next (s.raise .outOfRange)
    else
      match Memory.get? s.rawbuf idx.toNat with
      | none => .fault .readUnset
      | some b => .next (s.ret (b.setWidth 32))

/-- `OUT_READ idx` (R174). -/
def execOutRead (idx : Half) (s : State) : Outcome :=
  underLock s fun _ =>
    if idx.toNat ≥ s.params.outCap then .next (s.raise .outOfRange)
    else
      match Memory.get? s.outbuf idx.toNat with
      | none => .fault .readUnset
      | some v => .next (s.ret v)

end Sys2Proof.Machine
end

