-- ==== Sys2Proof/Machine/Mailbox.lean ====
section
/-! DEFINITION. The mailbox FSM and its commands (spec/42_mailbox.md): drain, queue, poll, reply; one transaction a step. -/

namespace Sys2Proof.Machine

/-- The gate of the mailbox commands (R138). -/
def State.gateClosed (s : State) : Bool := s.cfg.initialized == 0

/-- A mailbox access begins with the first drain iteration (R130). -/
def MailboxPos.first : MailboxPos := .drainStatusSend 1

/-- One transaction of a mailbox access that queues `bytes` (R130, R132, R133, R135): `ready` is the poll's test of the
status byte, `onReady` what follows a successful poll, `onReply` what follows the reply byte, `place` the command's position
for a position in the access. -/
def mailboxStep (bytes : List Byte) (ready : Params → Byte → Bool) (onReady : Nat → State → State)
    (onReply : Byte → State → State) (place : MailboxPos → Pos) (m : MailboxPos) (s : State) : State :=
  match m with
  | .drainStatusSend d =>
    directSend s s.params.mbxStatusAddr fun t => t.goto (place (.drainStatusRecv d))
  | .drainStatusRecv d =>
    directRecv s fun status t =>
      if fromCpuValid t.params status then t.goto (place (.drainDataSend d)) else t.goto (place (.queue 0))
  | .drainDataSend d =>
    directSend s s.params.mbxFromCpuAddr fun t => t.goto (place (.drainDataRecv d))
  | .drainDataRecv d =>
    directRecv s fun _ t =>
      if d < t.params.drainMax then t.goto (place (.drainStatusSend (d + 1))) else t.raise .pifTimeout
  | .queue i =>
    match bytes[i]? with
    | some b =>
      directWrite s s.params.mbxToCpuAddr b fun t =>
        t.goto (place (if i + 1 < bytes.length then .queue (i + 1) else .pollSend 1))
    | none => directSend s s.params.mbxStatusAddr fun t => t.goto (place (.pollRecv 1))
  | .pollSend n =>
    directSend s s.params.mbxStatusAddr fun t => t.goto (place (.pollRecv n))
  | .pollRecv n =>
    directRecv s fun status t =>
      if ready t.params status then onReady n t
      else if n < Config.pollMax then t.goto (place (.pollSend (n + 1)))
      else t.raise .pifTimeout
  | .replySend n =>
    directSend s s.params.mbxFromCpuAddr fun t => t.goto (place (.replyRecv n))
  | .replyRecv _ => directRecv s onReply

/-- A step of `InternalWrite(a, k, v)` (R136), which goes on with `done`. -/
def internalWrite (a k v : Byte) (place : MailboxPos → Pos) (done : State → State) (m : MailboxPos) (s : State) : State :=
  mailboxStep [a, k, v] toCpuEmpty (fun _ => done) (fun _ => done) place m s

/-- The test of `PollRead` (R135): both bits. -/
def readReady (p : Params) (status : Byte) : Bool := fromCpuValid p status && toCpuEmpty p status

/-- A step of `InternalRead(a, k)` (R137), which goes on with `done` of the reply byte. -/
def internalRead (a k : Byte) (place : MailboxPos → Pos) (done : Byte → State → State) (m : MailboxPos) (s : State) :
    State :=
  mailboxStep [a, k] readReady (fun n t => t.goto (place (.replySend n))) done place m s

/-- `SET_INTERNAL addr, kind, val` (R131). -/
def execSetInternal (addr kind val : Byte) (s : State) : Outcome :=
  underLock s fun p => .next <|
    match p with
    | .mailbox m => internalWrite addr kind val .mailbox (fun t => t.ret 0) m s
    | _ =>
      if s.gateClosed then s.raise .uninitialized
      else internalWrite addr kind val .mailbox (fun t => t.ret 0) .first s

/-- `GET_INTERNAL addr, kind` (R134). -/
def execGetInternal (addr kind : Byte) (s : State) : Outcome :=
  underLock s fun p => .next <|
    match p with
    | .mailbox m => internalRead addr kind .mailbox (fun b t => t.ret (b.setWidth 32)) m s
    | _ =>
      if s.gateClosed then s.raise .uninitialized
      else internalRead addr kind .mailbox (fun b t => t.ret (b.setWidth 32)) .first s

end Sys2Proof.Machine
end

