-- ==== Sys2Proof/Machine/Fetch.lean ====
section
/-! DEFINITION. The frame fetch (spec/43_frame_fetch.md): four counter reads, the fetch action, the raw read with its
commit. -/

namespace Sys2Proof.Machine

/-- A step of the read of frame-counter byte `j` (R151); after byte 3, the fetch action. -/
def counterStep (frs : Nat) (j : Fin 4) (acc : Word) (m : MailboxPos) (s : State) : State :=
  internalRead s.params.fcAddr[j] Config.kindSwreg (.counter frs j acc)
    (fun b t =>
      let acc' := placeByte acc j b
      if h : j.val + 1 < 4 then t.goto (.counter frs ⟨j.val + 1, h⟩ acc' .first)
      else t.goto (.action frs acc' .first)) m s

/-- A step of the fetch action (R152); after it, the raw read. -/
def actionStep (frs : Nat) (fc : Word) (m : MailboxPos) (s : State) : State :=
  internalWrite s.params.fetchActionAddr Config.kindSwaction s.params.actionArg (.action frs fc)
    (fun t => t.goto (.raw frs fc)) m s

/-- The commit (R154): RAWBUF from index 0 and FRAME_COUNTER. -/
def State.commitFrame (s : State) (fc : Word) (bytes : List Byte) : State :=
  { s with
    rawbuf := Memory.writeRange s.rawbuf 0 bytes
    cfg := s.cfg.write .frameCounter fc }

/-- The raw read (R153) with the commit in the same step; `done` is what the command does right after it. -/
def rawStep (frs : Nat) (fc : Word) (done : State → State) (s : State) : State :=
  transact s (.writeRead [s.params.radarDataAddr] frs) fun bytes t => done (t.commitFrame fc bytes)

/-- A step of the fetch (R150) up to and including its commit, after which the command goes on with `done fc`. -/
def fetchStep (done : Word → State → State) (p : Pos) (s : State) : Outcome :=
  match p with
  | .counter frs j acc m => .next (counterStep frs j acc m s)
  | .action frs fc m => .next (actionStep frs fc m s)
  | .raw frs fc => .next (rawStep frs fc (done fc) s)
  | _ =>
    if s.gateClosed then .next (s.raise .uninitialized)
    else
      match s.cfg.frameReadSize with
      | none => .fault .readUnset
      | some frs =>
        .next <|
          if frs.toNat > s.params.rawCap then s.raise .bufferTooSmall
          else counterStep frs.toNat 0 0 .first s

/-- `FETCH_FRAME` (R150): the fetch, answered with the frame counter. -/
def execFetchFrame (s : State) : Outcome :=
  underLock s fun p => fetchStep (fun fc t => t.ret fc) p s

end Sys2Proof.Machine
end

