-- ==== Sys2Proof/Machine/Unpack.lean ====
section
/-! DEFINITION. The frame unpacker (spec/44_unpack.md): both unpack bodies, each one step (R167), and the composite read.
-/

namespace Sys2Proof.Machine

/-- How an unpack body ends: at a model fault, at an error, or with the number of outputs and the state it leaves. -/
inductive BodyEnd where
  | fault (f : Fault)
  | raised (st : Status)
  | done (count : Nat) (t : State)
  deriving DecidableEq, Repr

/-- The end of every unpack that does not raise: OUTBUF from index 0, the zero-frame counter (R165), OUT_COUNT (R33). -/
def State.commitUnpack (s : State) (vals out : List Word) : State :=
  { s with
    outbuf := Memory.writeRange s.outbuf 0 out
    cfg := (s.cfg.write .zeroFrameCtr (zeroTrack s.params.zeroFrameCap s.cfg.zeroFrameCtr vals)).write .outCount
      (BitVec.ofNat 32 out.length)
    tick := s.tick + 1 }

/-! ## RF path -/

/-- Output `i` of the RF path (R161): `value * nfactor - offset`. -/
def rfValue (tick : Nat) (nf off : Word) (i : Nat) (c : Nat) : Word :=
  F32.sub (Config.freeNaN tick (2 * i + 1)) (F32.mul (Config.freeNaN tick (2 * i)) (F32.ofInt c) nf) off

/-- The outputs of the RF path from its counters. -/
def rfValues (tick : Nat) (nf off : Word) (cs : List Nat) : List Word := cs.mapIdx (rfValue tick nf off)

/-- The body of `UNPACK_RF` (R161), its checks in the pseudocode's order. -/
def rfBody (s : State) : BodyEnd :=
  let w := s.cfg.bpc.toNat
  if w = 0 then .fault .counterWidthZero
  else if w > 4 then .raised .unpackCounterTooLarge
  else
    match s.cfg.frameReadSize with
    | none => .fault .readUnset
    | some frs =>
      let n := frs.toNat / w
      if frs.toNat > s.params.rawCap then .raised .bufferTooSmall
      else if n > s.params.outCap then .raised .bufferTooSmall
      else
        match s.cfg.nfactor, s.cfg.normOffset, counters s.rawbuf w 0 n with
        | some nf, some off, some cs =>
          let vals := rfValues s.tick nf off cs
          .done n (s.commitUnpack vals vals)
        | _, _, _ => .fault .readUnset

/-! ## IQ path -/

/-- Sample `k` of the IQ path (R162): `value * scale`, negated at an odd index (a Q sample). -/
def iqSample (tick : Nat) (w : Nat) (scale : Word) (k : Nat) (c : Nat) : Word :=
  let v := F32.mul (Config.freeNaN tick (k + 1)) (F32.ofInt (signExtend w c)) scale
  if k % 2 = 1 then F32.neg v else v

/-- The samples of the IQ path from its counters. -/
def iqSamples (tick : Nat) (w : Nat) (scale : Word) (cs : List Nat) : List Word := cs.mapIdx (iqSample tick w scale)

/-- The entries at the even indices: the I samples. -/
def evens {α : Type} : List α → List α
  | [] => []
  | [a] => [a]
  | a :: _ :: rest => a :: evens rest

/-- The entries at the odd indices: the Q samples. -/
def odds {α : Type} : List α → List α
  | _ :: b :: rest => b :: odds rest
  | _ => []

/-- `Reorder` (R164): interleaved as they come, or the I block and then the Q block. -/
def reorder (separate : BitVec 1) (smp : List Word) : List Word :=
  if separate = 0 then smp else evens smp ++ odds smp

/-- The body of `UNPACK_IQ` (R162), its checks in the pseudocode's order. -/
def iqBody (s : State) : BodyEnd :=
  let w := s.cfg.bpc.toNat
  if w = 0 then .fault .counterWidthZero
  else if w > 6 then .raised .unpackCounterTooLarge
  else
    match s.cfg.frameReadSize with
    | none => .fault .readUnset
    | some frs =>
      let m := 2 * (frs.toNat / (2 * w))
      if frs.toNat > s.params.rawCap then .raised .bufferTooSmall
      else if m > s.params.outCap then .raised .bufferTooSmall
      else
        match s.cfg.nfactor, s.cfg.filterNorm, counters s.rawbuf w 0 m with
        | some nf, some fnf, some cs =>
          let smp := iqSamples s.tick w (F32.mul (Config.freeNaN s.tick 0) nf fnf) cs
          .done m (s.commitUnpack smp (reorder s.cfg.iqSeparate smp))
        | _, _, _ => .fault .readUnset

/-! ## The commands -/

/-- The step of a command that runs an unpack body and answers `rdata` of the number of outputs. -/
def unpackStep (s : State) (body : BodyEnd) (rdata : Nat → Word) : Outcome :=
  match body with
  | .fault f => .fault f
  | .raised st => .next (s.raise st)
  | .done n t => .next (t.ret (rdata n))

/-- `UNPACK_RF` (R161). -/
def execUnpackRf (s : State) : Outcome :=
  underLock s fun _ => unpackStep s (rfBody s) (BitVec.ofNat 32)

/-- `UNPACK_IQ` (R162). -/
def execUnpackIq (s : State) : Outcome :=
  underLock s fun _ => unpackStep s (iqBody s) (BitVec.ofNat 32)

/-- The unpack body DOWNCONV_EN selects (R26, R166). -/
def selectedBody (s : State) : BodyEnd :=
  if s.cfg.downconvEn = 0 then rfBody s else iqBody s

/-- `READ_FRAME_NORM` (R166): the fetch, then the selected unpack, answered with the frame counter. -/
def execReadFrameNorm (s : State) : Outcome :=
  underLock s fun p =>
    match p with
    | .unpack fc => unpackStep s (selectedBody s) fun _ => fc
    | _ => fetchStep (fun fc t => t.goto (.unpack fc)) p s

end Sys2Proof.Machine
end

