-- ==== Sys2Proof/Machine/Dispatch.lean ====
section
/-! DEFINITION. The one dispatch from a command to its meaning: the next step of the command in flight (R107). -/

namespace Sys2Proof.Machine

def exec (i : Instr) (s : State) : Host.Outcome State Fault Refusal :=
  match i with
  | .setDirect addr val => Sys2Proof.Machine.execSetDirect addr val s
  | .getDirect addr => Sys2Proof.Machine.execGetDirect addr s
  | .setInternal addr kind val => Sys2Proof.Machine.execSetInternal addr kind val s
  | .getInternal addr kind => Sys2Proof.Machine.execGetInternal addr kind s
  | .fetchFrame => Sys2Proof.Machine.execFetchFrame s
  | .unpackRf => Sys2Proof.Machine.execUnpackRf s
  | .unpackIq => Sys2Proof.Machine.execUnpackIq s
  | .readFrameNorm => Sys2Proof.Machine.execReadFrameNorm s
  | .cfgWrite reg data => Sys2Proof.Machine.execCfgWrite reg data s
  | .cfgRead reg => Sys2Proof.Machine.execCfgRead reg s
  | .rawWrite idx val => Sys2Proof.Machine.execRawWrite idx val s
  | .rawRead idx => Sys2Proof.Machine.execRawRead idx s
  | .outRead idx => Sys2Proof.Machine.execOutRead idx s

end Sys2Proof.Machine
end

