-- ==== Sys2Proof/Machine/Lifecycle.lean ====
section
/-! DEFINITION. The life of a command around its execution (spec/40_command_lifecycle.md): submission with decode, the lock,
Busy, arbitration; the requester's read of its response; reset at any moment (spec/70_reset_and_hazards.md R251). An agent
whose step is not enabled makes none: the state is unchanged (log 1). -/

namespace Sys2Proof.Machine

/-- Submission and decode in one step (R100, R101). A requester with a request outstanding, or one that does not exist,
submits nothing. -/
def submit (r : Nat) (cmd dw : Word) (s : State) : State :=
  if r < s.params.nreq ∧ Memory.get? s.req r = none then
    match decode? (portRequest cmd dw) with
    | some _ => { s with req := Memory.set s.req r (portRequest cmd dw), resp := Memory.erase s.resp r }
    | none => { s with resp := Memory.set s.resp r ⟨.illegalCommand, 0⟩ }
  else s

/-- Requester `r` reads and clears its response slot (R36). While another requester holds the lock its only steps are
submission and Busy (R105), so the read waits until then (log 29). -/
def readResponse (r : Nat) (s : State) : State :=
  if s.lockOwner = none ∨ s.lockOwner = some r then { s with resp := Memory.erase s.resp r } else s

/-- Busy (R103): a waiting requester gives up while another holds the lock. -/
def giveUp (r : Nat) (s : State) : State :=
  match Memory.get? s.req r, s.lockOwner with
  | some _, some r' =>
    if r' = r then s
    else { s with req := Memory.erase s.req r, resp := Memory.set s.resp r ⟨.busy, 0⟩ }
  | _, _ => s

/-- Acquire (R102): requester `r`'s request takes the free lock. -/
def acquire (r : Nat) (s : State) : State :=
  match s.lockOwner, s.pc, Memory.get? s.req r with
  | none, .idle, some q => { s with lockOwner := some r, pc := .exec r q .start }
  | _, _, _ => s

/-- The requesters with a request. -/
def State.waiting (s : State) : List Nat := s.req.map Prod.fst

/-- X4MBU's own choice when it is Idle (R102, R104): wait, take the one request there is, or take one of several, which
one being free (log 10). -/
def arbitrate (s : State) : State :=
  match s.waiting with
  | [] => s
  | [r] => acquire r s
  | rs => { acquire (rs.getD (Config.freeChoice s.tick % rs.length) 0) s with tick := s.tick + 1 }

/-- X4MBU's step: the next step of the command in flight, or arbitration. (A word that is illegal cannot come into flight,
R101; it would end with IllegalCommand as R83 and R84 say, log 23.) -/
def x4mbuStep (s : State) : Outcome :=
  match s.pc with
  | .idle => .next (arbitrate s)
  | .exec _ q _ =>
    match decode? q with
    | some i => exec i s
    | none => .next (s.raise .illegalCommand)

/-- A reset (R250, R251): every piece of X4MBU's state at its reset value; the parameters and the environment (what the
agents and the chip do next) are not X4MBU's state and stay (log 18). -/
def resetMachine (s : State) : State :=
  { State.reset with params := s.params, schedule := s.schedule, chip := s.chip, tick := s.tick }

/-- The step of the agent an event names. -/
def eventStep (e : Event) (s : State) : Outcome :=
  match e with
  | .x4mbu => x4mbuStep s
  | .submit r cmd dw => .next (submit r cmd dw s)
  | .readResponse r => .next (readResponse r s)
  | .giveUp r => .next (giveUp r s)
  | .grant r => .next (acquire r s)
  | .reset => .next (resetMachine s)

/-- The next step of the machine: the agent the schedule names next, X4MBU past its end. DESIGN CHOICE (logs 1, 30): the
schedule is finite, so every endless run serves its waiting requests in the end, as under R109's weak fairness. -/
def scheduledStep (s : State) : Outcome :=
  match s.schedule with
  | [] => x4mbuStep s
  | e :: rest => eventStep e { s with schedule := rest }

/-- Requester 0's request `q` in flight at its start, X4MBU next to move (log 16). -/
def State.withRequestInFlight (s : State) (q : Request) : State :=
  { s with
    req := Memory.set s.req 0 q
    resp := Memory.erase s.resp 0
    lockOwner := some 0
    pc := .exec 0 q .start
    schedule := .x4mbu :: s.schedule }

end Sys2Proof.Machine
end

