-- ==== Sys2Proof/Machine/Step.lean ====
section
/-! DEFINITION. One step of the machine, and where the host's table word is placed so that the next step runs it. -/

namespace Sys2Proof.Machine

/-- One step (R65, R99, R107). -/
def step (s : State) : Host.Outcome State Fault Refusal := scheduledStep s

/-- The state whose very next step runs the command of a table word: X4MBU fetches no instructions (R76), so the word is
placed as a request that has just taken the lock (R102, log 16). -/
def State.withFetchWord (s : State) (nbits w : Nat) : State := s.withRequestInFlight (tableRequest nbits w)

end Sys2Proof.Machine
end

