-- ==== Sys2Proof/Safety.lean ====
section
/-! DEFINITION. What claims about X4MBU are stated in: the states the spec's rules keep the machine in (`State.Inv`), how far
a command in flight is from its end (spec/40_command_lifecycle.md R109), and the chip answers of a cooperative run
(spec/95_test_vectors.md). -/

namespace Sys2Proof.Machine

/-! ## Step positions that belong to a command -/

/-- The loop counters of R37 are in their ranges, for an access that queues `queued` bytes and reads a reply or not. -/
def MailboxPos.inRange (p : Params) (queued : Nat) (reads : Bool) : MailboxPos → Bool
  | .drainStatusSend d | .drainStatusRecv d | .drainDataSend d | .drainDataRecv d => 1 ≤ d && d ≤ p.drainMax
  | .queue i => decide (i < queued)
  | .pollSend n | .pollRecv n => 1 ≤ n && n ≤ Config.pollMax
  | .replySend n | .replyRecv n => reads && 1 ≤ n && n ≤ Config.pollMax

/-- The commands whose first part is the fetch (R150, R166). -/
def isFetch : Instr → Bool
  | .fetchFrame | .readFrameNorm => true
  | _ => false

/-- `pos` is a position in the pseudocode of command `i`, its counters in range and its raw size accepted. -/
def Pos.fits (p : Params) (i : Instr) : Pos → Bool
  | .start => true
  | .directRecv => match i with | .getDirect _ => true | _ => false
  | .mailbox m =>
    match i with
    | .setInternal _ _ _ => m.inRange p 3 false
    | .getInternal _ _ => m.inRange p 2 true
    | _ => false
  | .counter frs _ _ m => isFetch i && frs ≤ p.rawCap && m.inRange p 2 true
  | .action frs _ m => isFetch i && frs ≤ p.rawCap && m.inRange p 3 false
  | .raw frs _ => isFetch i && frs ≤ p.rawCap
  | .unpack _ => match i with | .readFrameNorm => true | _ => false

/-- What the phase says of the requests: Idle, or the command in flight is its requester's request, legal, at a position
of its own pseudocode. -/
def Phase.fits (p : Params) (req : Memory Request) : Phase → Bool
  | .idle => true
  | .exec r q pos =>
    Memory.get? req r == some q &&
      match decode? q with
      | some i => pos.fits p i
      | none => false

/-- A trace entry's result has exactly the bytes its transaction reads (R13). -/
def TraceEntry.fits (e : TraceEntry) : Bool :=
  match e.result with
  | .ok bytes => bytes.length == e.op.count
  | .err => true

/-! ## The invariant -/

/-- What the spec's rules keep true of the state, from reset on. -/
structure State.Inv (s : State) : Prop where
  /-- the parameters are a legal choice (R7) -/
  params : s.params.legal = true
  /-- RAWBUF is canonical, within 0..P_RAW_CAP-1 (R24) -/
  raw : Memory.wf s.rawbuf ∧ Memory.below s.params.rawCap s.rawbuf
  /-- OUTBUF is canonical, within 0..P_OUT_CAP-1 (R25) -/
  out : Memory.wf s.outbuf ∧ Memory.below s.params.outCap s.outbuf
  /-- the slots are canonical and belong to requesters 0..P_NREQ-1 (R36, R229) -/
  slots : (Memory.wf s.req ∧ Memory.below s.params.nreq s.req) ∧ (Memory.wf s.resp ∧ Memory.below s.params.nreq s.resp)
  /-- `lock_owner = r` exactly when `pc = Exec(r, ...)` (R35) -/
  lock : s.lockOwner = s.pc.requester?
  /-- every request is legal (R101), and a data word stands only beside a command that takes one (R80) -/
  requests : ∀ c ∈ s.req, (decode? c.2).isSome = true ∧ c.2.dataFits = true
  /-- the command in flight (R21, R37, R102) -/
  flight : s.pc.fits s.params s.req = true
  /-- OUT_COUNT is 0..P_OUT_CAP (R22) -/
  outCount : s.cfg.outCount.toNat ≤ s.params.outCap
  /-- RDATA is 0 with every status but OK (R87) -/
  responses : ∀ c ∈ s.resp, c.2.status ≠ .ok → c.2.rdata = 0
  /-- T holds exactly the bytes read (R13, R64) -/
  trace : ∀ e ∈ s.trace, e.fits = true

/-! ## The two updates claims are stated with -/

/-- `s` after the transaction `op` ended with `res`: one entry more in T (R64), one listed chip answer used up. -/
def State.after (s : State) (op : SpiOp) (res : SpiResult) : State :=
  { s with trace := s.trace ++ [⟨op, res⟩], chip := s.chip.tail, tick := s.tick + 1 }

/-- `s` with requester `r`'s command ended by STATUS `st` and RDATA `v` (R106): response, slot, lock and phase at once. -/
def State.ended (s : State) (r : Nat) (st : Status) (v : Word) : State :=
  { s with resp := Memory.set s.resp r ⟨st, v⟩, req := Memory.erase s.req r, lockOwner := none, pc := .idle }

/-- `s` with requester `r`'s command `q` in flight at position `p`. -/
def State.at (s : State) (r : Nat) (q : Request) (p : Pos) : State := { s with pc := .exec r q p }

/-! ## How far a command is from its end -/

/-- The most transactions a whole mailbox access makes (R139). -/
def accessBound (p : Params) (queued reply : Nat) : Nat := 4 * p.drainMax + queued + 2 * Config.pollMax + reply

/-- The most transactions from a position to the end of its access; `reply` is 2 for a read, 0 for a write. -/
def MailboxPos.bound (p : Params) (queued reply : Nat) : MailboxPos → Nat
  | .drainStatusSend d => 4 * (p.drainMax - d) + 4 + queued + 2 * Config.pollMax + reply
  | .drainStatusRecv d => 4 * (p.drainMax - d) + 3 + queued + 2 * Config.pollMax + reply
  | .drainDataSend d => 4 * (p.drainMax - d) + 2 + queued + 2 * Config.pollMax + reply
  | .drainDataRecv d => 4 * (p.drainMax - d) + 1 + queued + 2 * Config.pollMax + reply
  | .queue i => (queued - i) + 2 * Config.pollMax + reply
  | .pollSend n => 2 * (Config.pollMax - n) + 2 + reply
  | .pollRecv n => 2 * (Config.pollMax - n) + 1 + reply
  | .replySend _ => 2
  | .replyRecv _ => 1

/-- The most steps the fetch takes after its counter reads: the action, the raw read, and the unpack. -/
def fetchTailBound (p : Params) : Nat := accessBound p 3 0 + 2

/-- The most steps of a whole command (R109). -/
def startBound (p : Params) : Instr → Nat
  | .setDirect _ _ => 1
  | .getDirect _ => 2
  | .setInternal _ _ _ => accessBound p 3 0
  | .getInternal _ _ => accessBound p 2 2
  | .fetchFrame => 4 * accessBound p 2 2 + fetchTailBound p
  | .readFrameNorm => 4 * accessBound p 2 2 + fetchTailBound p
  | .unpackRf => 1
  | .unpackIq => 1
  | .cfgWrite _ _ => 1
  | .cfgRead _ => 1
  | .rawWrite _ _ => 1
  | .rawRead _ => 1
  | .outRead _ => 1

/-- The mailbox command whose access ends with the two transactions of a reply byte (R135). -/
def isRead : Instr → Bool
  | .getInternal _ _ => true
  | _ => false

/-- The most steps from a position to the end of command `i` (R109). -/
def Pos.bound (p : Params) (i : Instr) : Pos → Nat
  | .start => startBound p i
  | .directRecv => 1
  | .mailbox m => if isRead i then m.bound p 2 2 else m.bound p 3 0
  | .counter _ j _ m => m.bound p 2 2 + (3 - j.val) * accessBound p 2 2 + fetchTailBound p
  | .action _ _ m => m.bound p 3 0 + 2
  | .raw _ _ => 2
  | .unpack _ => 1

/-- The state after `n` steps if none of them stops the machine. -/
def run? : Nat → State → Option State
  | 0, s => some s
  | n + 1, s =>
    match step s with
    | .next t => run? n t
    | .fault _ => none
    | .refused _ => none

/-! ## When an unpack completes -/

/-- What R161 asks of the state for an RF unpack at width `w` to `n` outputs to complete. -/
structure RfReady (s : State) (w n : Nat) (nf off : Word) : Prop where
  width : s.cfg.bpc.toNat = w ∧ 1 ≤ w ∧ w ≤ 4
  size : ∃ frs : Word, s.cfg.frameReadSize = some frs ∧ frs.toNat ≤ s.params.rawCap ∧ frs.toNat / w = n
  fits : n ≤ s.params.outCap
  constants : s.cfg.nfactor = some nf ∧ s.cfg.normOffset = some off
  raw : ∀ k, k < n * w → Memory.get? s.rawbuf k ≠ none

/-- What R162 asks of the state for an IQ unpack at width `w` to `n` outputs to complete. -/
structure IqReady (s : State) (w n : Nat) (nf fnf : Word) : Prop where
  width : s.cfg.bpc.toNat = w ∧ 1 ≤ w ∧ w ≤ 6
  size : ∃ frs : Word, s.cfg.frameReadSize = some frs ∧ frs.toNat ≤ s.params.rawCap ∧ 2 * (frs.toNat / (2 * w)) = n
  fits : n ≤ s.params.outCap
  constants : s.cfg.nfactor = some nf ∧ s.cfg.filterNorm = some fnf
  raw : ∀ k, k < n * w → Memory.get? s.rawbuf k ≠ none

/-- Where sample `k` of `n` goes in OUTBUF (R164): its own place, or its place in the I or in the Q block. -/
def samplePlace (separate : BitVec 1) (n k : Nat) : Nat :=
  if separate = 0 then k else if k % 2 = 0 then k / 2 else n / 2 + k / 2

/-! ## Chip answers of a run -/

/-- The answers to the drain of stale bytes: for each a status byte and the byte discarded (R130). -/
def drainAnswers (stale : List (Byte × Byte)) : List SpiResult :=
  stale.flatMap fun c => [.ok [], .ok [c.1], .ok [], .ok [c.2]]

/-- The answers to status reads (R133, R135). -/
def statusAnswers (statuses : List Byte) : List SpiResult :=
  statuses.flatMap fun status => [.ok [], .ok [status]]

/-- The answers to `n` transactions that read nothing. -/
def writeAnswers (n : Nat) : List SpiResult := List.replicate n (.ok [])

/-- The answer to one byte read by `DirectRead` (R122). -/
def byteAnswers (b : Byte) : List SpiResult := [.ok [], .ok [b]]

/-! ## Transactions of a run -/

/-- The two transactions of `DirectRead(a)` (R122). -/
def readOps (a : Byte) : List SpiOp := [.write [a], .read 1]

/-- The transactions of a drain with `k` stale bytes (R130). -/
def drainOps (p : Params) (k : Nat) : List SpiOp :=
  (List.replicate k (readOps p.mbxStatusAddr ++ readOps p.mbxFromCpuAddr)).flatten ++ readOps p.mbxStatusAddr

/-- The transactions that queue bytes (R132). -/
def queueOps (p : Params) (bytes : List Byte) : List SpiOp :=
  bytes.map fun b => .write [p.mbxToCpuAddr ||| p.writeBit, b]

/-- The transactions of `n` polls (R133, R135). -/
def pollOps (p : Params) (n : Nat) : List SpiOp := (List.replicate n (readOps p.mbxStatusAddr)).flatten

/-- Trace entries from transactions and their answers, in order. -/
def entries (ops : List SpiOp) (answers : List SpiResult) : List TraceEntry := List.zipWith TraceEntry.mk ops answers

end Sys2Proof.Machine
end

