-- ==== Sys2Proof/Certificates/Slice0/Obligations.lean ====
section
/-! DEFINITION. The statements about X4MBU, each named for what it says. Every statement holds for every state (every
schedule of the agents, every chip answer, every legal choice of parameters), so for every free value. -/

open Sys2Proof Sys2Proof.Machine

/-! ## Encoding (spec/30_encoding.md) -/

/-- Every command decodes from its own encoding, with every operand at every value (R81, R82, R88). -/
def Obligations.DecodeOfEncodeIsTheCommand : Prop :=
  ∀ i : Instr, decode (encode i) = .ok i ∧ (encode i).dataFits = true

/-- A request that decodes to a command is that command's encoding: no other word stands for it (R81 to R83, R85). -/
def Obligations.EncodeOfDecodeIsTheRequest : Prop :=
  ∀ (q : Request) (i : Instr), decode q = .ok i → q.dataFits = true → encode i = q

/-- `legal(cmd)` of R101, by the table's match and mask, holds exactly when the word decodes. -/
def Obligations.LegalExactlyWhenItDecodes : Prop :=
  ∀ q : Request, legal q.cmd = true ↔ ∃ i, decode q = .ok i

/-- Words are rejected by name: an unlisted opcode (R84), a listed one with a reserved bit set (R83). -/
def Obligations.IllegalWordsAreRejectedByName : Prop :=
  ∀ q : Request,
    let op := (opcodeOf q.cmd).toNat
    (op = 0x00 ∨ (0x09 ≤ op ∧ op ≤ 0x0F) ∨ 0x15 ≤ op → decode q = .error (.undefinedOpcode (opcodeOf q.cmd))) ∧
    ((1 ≤ op ∧ op ≤ 0x08) ∨ (0x10 ≤ op ∧ op ≤ 0x14) → legal q.cmd = false →
      decode q = .error (.reservedNotZero (opcodeOf q.cmd)))

/-- Words written out from the examples of 41 to 45 decode to the commands they stand for. -/
def Obligations.ExampleWordsDecode : Prop :=
  decode ⟨0x01225A00, 0⟩ = .ok (.setDirect 0x22 0x5A) ∧
  decode ⟨0x02120000, 0⟩ = .ok (.getDirect 0x12) ∧
  decode ⟨0x03300201, 0⟩ = .ok (.setInternal 0x30 2 0x01) ∧
  decode ⟨0x04300200, 0⟩ = .ok (.getInternal 0x30 2) ∧
  decode ⟨0x05000000, 0⟩ = .ok .fetchFrame ∧
  decode ⟨0x10050000, 0x3F000000⟩ = .ok (.cfgWrite 0x05 0x3F000000) ∧
  decode ⟨0x120005AB, 0⟩ = .ok (.rawWrite 0x0005 0xAB) ∧
  decode ⟨0x14000200, 0⟩ = .ok (.outRead 2)

/-! ## The step and the life of a command (spec/40_command_lifecycle.md) -/

/-- When the request in flight decodes to a command, X4MBU's step is that command's execution at the state whose
schedule entry is used up (the schedule is the model's, log 1). -/
def Obligations.StepExecutesTheCommandInFlight : Prop :=
  ∀ (s : State) (r : Nat) (q : Request) (p : Pos) (i : Instr),
    s.pc = .exec r q p → decode q = .ok i →
      (s.schedule = [] → step s = exec i s) ∧
      ∀ rest, s.schedule = .x4mbu :: rest → step s = exec i { s with schedule := rest }

/-- Submission with decode, one step (R100, R101): enabled only for a requester with no request; a legal request takes
the slot and clears the response; an illegal one is answered IllegalCommand at once and changes nothing else. (That a
submission not enabled changes nothing is log 1, that a data word beside another command is dropped log 12.) -/
def Obligations.SubmissionDecodesAtOnce : Prop :=
  ∀ (s : State) (r : Nat) (cmd dw : Word) (rest : List Event), s.schedule = .submit r cmd dw :: rest →
    (r < s.params.nreq → Memory.get? s.req r = none → legal cmd = true →
      step s = .next { s with
        schedule := rest
        req := Memory.set s.req r ⟨cmd, if opcodeOf cmd = 0x10 then dw else 0⟩
        resp := Memory.erase s.resp r }) ∧
    (r < s.params.nreq → Memory.get? s.req r = none → legal cmd = false →
      step s = .next { s with schedule := rest, resp := Memory.set s.resp r ⟨.illegalCommand, 0⟩ }) ∧
    (s.params.nreq ≤ r ∨ Memory.get? s.req r ≠ none → step s = .next { s with schedule := rest })

/-- Acquire (R102): a waiting request takes the free lock at its start; it never fails while the lock is free, and does
nothing where it is not enabled (log 1). -/
def Obligations.AcquireTakesTheFreeLock : Prop :=
  ∀ (s : State) (r : Nat) (rest : List Event), s.schedule = .grant r :: rest →
    (∀ q, s.lockOwner = none → s.pc = .idle → Memory.get? s.req r = some q →
      step s = .next { s with schedule := rest, lockOwner := some r, pc := .exec r q .start }) ∧
    (s.lockOwner ≠ none ∨ s.pc ≠ .idle ∨ Memory.get? s.req r = none → step s = .next { s with schedule := rest })

/-- Busy (R103): a waiting requester may give up while another holds the lock, and then had no effect; it cannot while
the lock is free or its own (then nothing happens, log 1). -/
def Obligations.BusyEndsOnlyAWaitingRequest : Prop :=
  ∀ (s : State) (r : Nat) (rest : List Event), s.schedule = .giveUp r :: rest →
    (∀ q r', Memory.get? s.req r = some q → s.lockOwner = some r' → r' ≠ r →
      step s = .next { s with
        schedule := rest
        req := Memory.erase s.req r
        resp := Memory.set s.resp r ⟨.busy, 0⟩ }) ∧
    (s.lockOwner = none ∨ s.lockOwner = some r ∨ Memory.get? s.req r = none →
      step s = .next { s with schedule := rest })

/-- X4MBU's own step while Idle (R102, R104, R250): with requests waiting it gives the lock to some one of them, and
changes nothing else but the counter of free values; with no request it waits, and nothing changes (logs 1, 10). -/
def Obligations.IdleServesAWaitingRequestOrWaits : Prop :=
  ∀ s : State, s.schedule = [] → s.lockOwner = none → s.pc = .idle →
    (Memory.wf s.req → s.req ≠ [] →
      ∃ r q tick, Memory.get? s.req r = some q ∧
        step s = .next { s with lockOwner := some r, pc := .exec r q .start, tick := tick }) ∧
    (s.req = [] → step s = .next s)

/-- The requester reads and clears its own response slot (R36), and nothing else changes, while no other requester holds
the lock; while another holds it, only submission and Busy are open to a requester (R105), so the read has no effect
(that the read is among the steps R105 rules out is log 29, that a step not enabled changes nothing log 1). -/
def Obligations.ReadingAResponseClearsItsSlot : Prop :=
  ∀ (s : State) (r : Nat) (rest : List Event), s.schedule = .readResponse r :: rest →
    (Memory.wf s.resp → s.lockOwner = none ∨ s.lockOwner = some r →
      ∃ t, step s = .next t ∧ Memory.get? t.resp r = none ∧
        (∀ r', r' ≠ r → Memory.get? t.resp r' = Memory.get? s.resp r') ∧
        t = { s with schedule := rest, resp := t.resp }) ∧
    ∀ r', r' ≠ r → s.lockOwner = some r' → step s = .next { s with schedule := rest }

/-- Ending (R106), for every command, state and position: a step leaves the command in flight with the lock, the slots
and the responses as they were, or does at once: response written (RDATA 0 with an error), own slot emptied, lock
released, Idle. Other requesters' slots and responses are untouched, and so are the model's parameters and schedule
(logs 3, 1). The STATUS byte of a response is the code R86 gives its name: 0x00 to 0x08, and no other. -/
def Obligations.ExecutionEndsAllAtOnce : Prop :=
  (Status.code .ok = 0x00 ∧ Status.code .busy = 0x01 ∧ Status.code .uninitialized = 0x02 ∧
    Status.code .pifTimeout = 0x03 ∧ Status.code .bufferTooSmall = 0x04 ∧
    Status.code .unpackCounterTooLarge = 0x05 ∧ Status.code .hwError = 0x06 ∧ Status.code .illegalCommand = 0x07 ∧
    Status.code .outOfRange = 0x08 ∧ ∀ st : Status, st.code.toNat ≤ 0x08) ∧
  ∀ (i : Instr) (s t : State) (r : Nat) (q : Request) (p : Pos), s.pc = .exec r q p → exec i s = .next t →
    t.params = s.params ∧ t.schedule = s.schedule ∧
    ((t.lockOwner = s.lockOwner ∧ t.req = s.req ∧ t.resp = s.resp ∧ ∃ p', t.pc = .exec r q p') ∨
      (t.lockOwner = none ∧ t.pc = .idle ∧ t.req = Memory.erase s.req r ∧
        ∃ st v, t.resp = Memory.set s.resp r ⟨st, v⟩ ∧ (st ≠ .ok → v = 0)))

/-- The lock is held to the command's end (R105, R108): while a command is in flight, any step but a reset leaves it in
flight under its owner, or is its ending; a step of another agent leaves the phase, the lock, registers, buffers and T
alone, and unless it is a submission, a Busy or the owner's read of its own response, it changes nothing (logs 1, 29).
-/
def Obligations.LockIsHeldToTheEnd : Prop :=
  ∀ (s t : State) (r : Nat) (q : Request) (p : Pos), s.Inv → s.pc = .exec r q p → step s = .next t →
    s.schedule.head? ≠ some .reset →
      ((t.lockOwner = some r ∧ ∃ p', t.pc = .exec r q p') ∨
        (t.lockOwner = none ∧ t.pc = .idle ∧ Memory.get? t.req r = none ∧ ∃ a, Memory.get? t.resp r = some a)) ∧
      ∀ e, s.schedule.head? = some e → e ≠ .x4mbu →
        (t.pc = s.pc ∧ t.lockOwner = s.lockOwner ∧ t.cfg = s.cfg ∧ t.rawbuf = s.rawbuf ∧ t.outbuf = s.outbuf ∧
          t.trace = s.trace ∧ t.chip = s.chip) ∧
        ((∃ r' cmd dw, e = .submit r' cmd dw) ∨ (∃ r', e = .giveUp r') ∨ e = .readResponse r ∨
          t = { s with schedule := s.schedule.tail })

/-- At most one SPI transaction a step, and T only grows (R40, R65, R66): a step but a reset keeps T or appends one
entry, a transaction with the chip's answer to it, using up one listed chip answer exactly then (the list is the
model's, log 2); the execution of a command does so in every state. -/
def Obligations.AtMostOneTransactionAStep : Prop :=
  (∀ (i : Instr) (s t : State), exec i s = .next t →
    (t.trace = s.trace ∧ t.chip = s.chip) ∨ ∃ op, t.trace = s.trace ++ [⟨op, s.answer op⟩] ∧ t.chip = s.chip.tail) ∧
  ∀ s t : State, step s = .next t → s.schedule.head? ≠ some .reset →
    (t.trace = s.trace ∧ t.chip = s.chip) ∨ ∃ op, t.trace = s.trace ++ [⟨op, s.answer op⟩] ∧ t.chip = s.chip.tail

/-- The seven commands without a transaction end in the one step after acquisition (R107), with T and the chip's answers
untouched. -/
def Obligations.CommandsWithoutTransactionsEndAtOnce : Prop :=
  ∀ (i : Instr) (s t : State) (r : Nat) (q : Request) (p : Pos),
    (i = .unpackRf ∨ i = .unpackIq ∨ (∃ reg d, i = .cfgWrite reg d) ∨ (∃ reg, i = .cfgRead reg) ∨
      (∃ k v, i = .rawWrite k v) ∨ (∃ k, i = .rawRead k) ∨ (∃ k, i = .outRead k)) →
    s.pc = .exec r q p → exec i s = .next t → t.pc = .idle ∧ t.trace = s.trace ∧ t.chip = s.chip

/-- A transaction that ends `Err` ends the command at once with HwError (R120, R122, R153, D5), registers and buffers
untouched: for every command, state and position. -/
def Obligations.ErrEndsTheCommandWithHwError : Prop :=
  ∀ (i : Instr) (s t : State) (r : Nat) (q : Request) (p : Pos) (op : SpiOp), s.pc = .exec r q p →
    exec i s = .next t → t.trace = s.trace ++ [⟨op, .err⟩] → t = (s.after op .err).ended r .hwError 0

/-! ## Direct-bus commands (spec/41_direct_bus.md) -/

/-- SET_DIRECT (R120, R121), the word 01 addr val 00: one transaction of `addr | P_WRITE_BIT` and `val`, then (OK, 0);
HwError if it fails; Uninitialized, with no transaction, when the direct gate is closed. (That a gate check that passes
and the transaction are one step is read from R107, log 11.) -/
def Obligations.SetDirectWritesTheByte : Prop :=
  ∀ (s : State) (r : Nat) (q : Request) (p : Pos) (addr val : Byte), s.pc = .exec r q p →
    let op := SpiOp.write [addr ||| s.params.writeBit, val]
    decode ⟨(0x01 : Byte) ++ addr ++ val ++ (0 : Byte), 0⟩ = .ok (.setDirect addr val) ∧
    (s.params.gateDirect = true → s.cfg.initialized = 0 →
      exec (.setDirect addr val) s = .next (s.ended r .uninitialized 0)) ∧
    (s.params.gateDirect = false ∨ s.cfg.initialized ≠ 0 →
      (∀ bs, s.answer op = .ok bs → exec (.setDirect addr val) s = .next ((s.after op (.ok [])).ended r .ok 0)) ∧
      (s.answer op = .err → exec (.setDirect addr val) s = .next ((s.after op .err).ended r .hwError 0)))

/-- GET_DIRECT (R122, R123), the word 02 addr 00 00: a write of `addr`, then a read of one byte, which is RDATA
zero-extended; HwError if either fails (after the first, no second); Uninitialized, with no transaction, when the direct
gate is closed at the start. (A check that passes and the first transaction are one step, R107, log 11.) -/
def Obligations.GetDirectReadsTheByte : Prop :=
  ∀ (s : State) (r : Nat) (q : Request) (addr : Byte),
    decode ⟨(0x02 : Byte) ++ addr ++ (0 : Half), 0⟩ = .ok (.getDirect addr) ∧
    (s.pc = .exec r q .start → s.params.gateDirect = true → s.cfg.initialized = 0 →
      exec (.getDirect addr) s = .next (s.ended r .uninitialized 0)) ∧
    (s.pc = .exec r q .start → s.params.gateDirect = false ∨ s.cfg.initialized ≠ 0 →
      (∀ bs, s.answer (.write [addr]) = .ok bs →
        exec (.getDirect addr) s = .next ((s.after (.write [addr]) (.ok [])).at r q .directRecv)) ∧
      (s.answer (.write [addr]) = .err →
        exec (.getDirect addr) s = .next ((s.after (.write [addr]) .err).ended r .hwError 0))) ∧
    (s.pc = .exec r q .directRecv →
      (∀ b, s.answer (.read 1) = .ok [b] →
        exec (.getDirect addr) s = .next ((s.after (.read 1) (.ok [b])).ended r .ok (b.setWidth 32))) ∧
      (s.answer (.read 1) = .err →
        exec (.getDirect addr) s = .next ((s.after (.read 1) .err).ended r .hwError 0)))

/-! ## Mailbox commands (spec/42_mailbox.md) -/

/-- The gate (R138): each of the four mailbox commands, at its start with INITIALIZED 0, ends Uninitialized with no
transaction and no other effect. -/
def Obligations.MailboxCommandsNeedInitialized : Prop :=
  ∀ (s : State) (r : Nat) (q : Request) (i : Instr),
    ((∃ a k v, i = .setInternal a k v) ∨ (∃ a k, i = .getInternal a k) ∨ i = .fetchFrame ∨ i = .readFrameNorm) →
    s.pc = .exec r q .start → s.cfg.initialized = 0 → exec i s = .next (s.ended r .uninitialized 0)

/-- The drain (R130, R138): past the gate, in the same step (log 11), a mailbox command begins with it: a status read;
done when "from-CPU valid" is 0, else one byte is read and discarded; PifTimeout after iteration P_DRAIN_MAX; HwError
where the chip answers Err (R122). "to-CPU empty" is ignored. -/
def Obligations.DrainReadsUntilNothingIsValid : Prop :=
  ∀ (s : State) (r : Nat) (q : Request) (d : Nat) (i : Instr),
    ((∃ a k v, i = .setInternal a k v) ∨ (∃ a k, i = .getInternal a k)) →
    (∀ bs, s.pc = .exec r q .start → s.cfg.initialized ≠ 0 → s.answer (.write [s.params.mbxStatusAddr]) = .ok bs →
      exec i s = .next
        ((s.after (.write [s.params.mbxStatusAddr]) (.ok [])).at r q (.mailbox (.drainStatusRecv 1)))) ∧
    (∀ bs, s.pc = .exec r q (.mailbox (.drainStatusSend d)) → s.answer (.write [s.params.mbxStatusAddr]) = .ok bs →
      exec i s = .next
        ((s.after (.write [s.params.mbxStatusAddr]) (.ok [])).at r q (.mailbox (.drainStatusRecv d)))) ∧
    (∀ b, s.pc = .exec r q (.mailbox (.drainStatusRecv d)) → s.answer (.read 1) = .ok [b] →
      exec i s = .next ((s.after (.read 1) (.ok [b])).at r q
        (.mailbox (if b.getLsbD s.params.bitFromCpuValid.val = false then .queue 0 else .drainDataSend d)))) ∧
    (∀ bs, s.pc = .exec r q (.mailbox (.drainDataSend d)) → s.answer (.write [s.params.mbxFromCpuAddr]) = .ok bs →
      exec i s = .next
        ((s.after (.write [s.params.mbxFromCpuAddr]) (.ok [])).at r q (.mailbox (.drainDataRecv d)))) ∧
    (∀ b, s.pc = .exec r q (.mailbox (.drainDataRecv d)) → s.answer (.read 1) = .ok [b] →
      (d < s.params.drainMax →
        exec i s = .next ((s.after (.read 1) (.ok [b])).at r q (.mailbox (.drainStatusSend (d + 1))))) ∧
      (s.params.drainMax ≤ d →
        exec i s = .next ((s.after (.read 1) (.ok [b])).ended r .pifTimeout 0))) ∧
    ((s.pc = .exec r q .start ∧ s.cfg.initialized ≠ 0) ∨ s.pc = .exec r q (.mailbox (.drainStatusSend d)) →
      s.answer (.write [s.params.mbxStatusAddr]) = .err →
      exec i s = .next ((s.after (.write [s.params.mbxStatusAddr]) .err).ended r .hwError 0)) ∧
    (s.pc = .exec r q (.mailbox (.drainDataSend d)) → s.answer (.write [s.params.mbxFromCpuAddr]) = .err →
      exec i s = .next ((s.after (.write [s.params.mbxFromCpuAddr]) .err).ended r .hwError 0)) ∧
    (s.pc = .exec r q (.mailbox (.drainStatusRecv d)) ∨ s.pc = .exec r q (.mailbox (.drainDataRecv d)) →
      s.answer (.read 1) = .err → exec i s = .next ((s.after (.read 1) .err).ended r .hwError 0))

/-- The queue (R132, R68): SET_INTERNAL writes address, kind and value, GET_INTERNAL address and kind, each by one
direct write to the to-CPU address; the poll follows the last; a failed write ends HwError with no later byte written.
-/
def Obligations.QueueWritesAddressKindValue : Prop :=
  ∀ (s : State) (r : Nat) (q : Request) (a k v b : Byte) (j : Nat) (bs : List Byte) (i : Instr) (bytes : List Byte),
    (i = .setInternal a k v ∧ bytes = [a, k, v]) ∨ (i = .getInternal a k ∧ bytes = [a, k]) →
    s.pc = .exec r q (.mailbox (.queue j)) → bytes[j]? = some b →
    let op := SpiOp.write [s.params.mbxToCpuAddr ||| s.params.writeBit, b]
    (s.answer op = .ok bs →
      exec i s = .next ((s.after op (.ok [])).at r q
        (.mailbox (if j + 1 = bytes.length then .pollSend 1 else .queue (j + 1))))) ∧
    (s.answer op = .err → exec i s = .next ((s.after op .err).ended r .hwError 0))

/-- PollWrite (R133), which ends SET_INTERNAL (R131): (OK, 0) at the first status with "to-CPU empty" set, whatever
"from-CPU valid" is; another poll after one that fails; PifTimeout after poll 200; HwError where the chip answers Err
(R122). -/
def Obligations.SetInternalPollsForToCpuEmpty : Prop :=
  ∀ (s : State) (r : Nat) (q : Request) (a k v : Byte) (n : Nat),
    (∀ bs, s.pc = .exec r q (.mailbox (.pollSend n)) → s.answer (.write [s.params.mbxStatusAddr]) = .ok bs →
      exec (.setInternal a k v) s = .next
        ((s.after (.write [s.params.mbxStatusAddr]) (.ok [])).at r q (.mailbox (.pollRecv n)))) ∧
    (∀ b, s.pc = .exec r q (.mailbox (.pollRecv n)) → s.answer (.read 1) = .ok [b] →
      (b.getLsbD s.params.bitToCpuEmpty.val = true →
        exec (.setInternal a k v) s = .next ((s.after (.read 1) (.ok [b])).ended r .ok 0)) ∧
      (b.getLsbD s.params.bitToCpuEmpty.val = false → n < 200 →
        exec (.setInternal a k v) s = .next ((s.after (.read 1) (.ok [b])).at r q (.mailbox (.pollSend (n + 1))))) ∧
      (b.getLsbD s.params.bitToCpuEmpty.val = false → 200 ≤ n →
        exec (.setInternal a k v) s = .next ((s.after (.read 1) (.ok [b])).ended r .pifTimeout 0))) ∧
    (s.pc = .exec r q (.mailbox (.pollSend n)) → s.answer (.write [s.params.mbxStatusAddr]) = .err →
      exec (.setInternal a k v) s = .next ((s.after (.write [s.params.mbxStatusAddr]) .err).ended r .hwError 0)) ∧
    (s.pc = .exec r q (.mailbox (.pollRecv n)) → s.answer (.read 1) = .err →
      exec (.setInternal a k v) s = .next ((s.after (.read 1) .err).ended r .hwError 0))

/-- PollRead (R135), which ends GET_INTERNAL (R134): a poll succeeds only with both bits set; then the reply byte is
read and is RDATA, zero-extended; another poll after one that fails; PifTimeout after poll 200; HwError where the chip
answers Err (R122). -/
def Obligations.GetInternalPollsForBothBits : Prop :=
  ∀ (s : State) (r : Nat) (q : Request) (a k : Byte) (n : Nat),
    (∀ bs, s.pc = .exec r q (.mailbox (.pollSend n)) → s.answer (.write [s.params.mbxStatusAddr]) = .ok bs →
      exec (.getInternal a k) s = .next
        ((s.after (.write [s.params.mbxStatusAddr]) (.ok [])).at r q (.mailbox (.pollRecv n)))) ∧
    (∀ b, s.pc = .exec r q (.mailbox (.pollRecv n)) → s.answer (.read 1) = .ok [b] →
      let ready := b.getLsbD s.params.bitFromCpuValid.val && b.getLsbD s.params.bitToCpuEmpty.val
      (ready = true →
        exec (.getInternal a k) s = .next ((s.after (.read 1) (.ok [b])).at r q (.mailbox (.replySend n)))) ∧
      (ready = false → n < 200 →
        exec (.getInternal a k) s = .next ((s.after (.read 1) (.ok [b])).at r q (.mailbox (.pollSend (n + 1))))) ∧
      (ready = false → 200 ≤ n →
        exec (.getInternal a k) s = .next ((s.after (.read 1) (.ok [b])).ended r .pifTimeout 0))) ∧
    (∀ bs, s.pc = .exec r q (.mailbox (.replySend n)) → s.answer (.write [s.params.mbxFromCpuAddr]) = .ok bs →
      exec (.getInternal a k) s = .next
        ((s.after (.write [s.params.mbxFromCpuAddr]) (.ok [])).at r q (.mailbox (.replyRecv n)))) ∧
    (∀ b, s.pc = .exec r q (.mailbox (.replyRecv n)) → s.answer (.read 1) = .ok [b] →
      exec (.getInternal a k) s = .next ((s.after (.read 1) (.ok [b])).ended r .ok (b.setWidth 32))) ∧
    (s.pc = .exec r q (.mailbox (.pollSend n)) → s.answer (.write [s.params.mbxStatusAddr]) = .err →
      exec (.getInternal a k) s = .next ((s.after (.write [s.params.mbxStatusAddr]) .err).ended r .hwError 0)) ∧
    (s.pc = .exec r q (.mailbox (.replySend n)) → s.answer (.write [s.params.mbxFromCpuAddr]) = .err →
      exec (.getInternal a k) s = .next ((s.after (.write [s.params.mbxFromCpuAddr]) .err).ended r .hwError 0)) ∧
    (s.pc = .exec r q (.mailbox (.pollRecv n)) ∨ s.pc = .exec r q (.mailbox (.replyRecv n)) →
      s.answer (.read 1) = .err → exec (.getInternal a k) s = .next ((s.after (.read 1) .err).ended r .hwError 0))

/-- The whole of a successful SET_INTERNAL (R130 to R133, R136, R139): with k stale bytes drained and success on poll n,
it makes exactly (4k+2) + 3 + 2n transactions, these ones in this order, and ends (OK, 0), registers and buffers
untouched. (A run in which no other agent moves, log 1.) -/
def Obligations.SetInternalMakesItsTransactions : Prop :=
  ∀ (s : State) (r : Nat) (q : Request) (a k v clear last : Byte) (stale : List (Byte × Byte)) (failed : List Byte)
    (rest : List SpiResult),
    s.schedule = [] → s.pc = .exec r q .start → decode q = .ok (.setInternal a k v) → s.cfg.initialized ≠ 0 →
    stale.length < s.params.drainMax → (∀ c ∈ stale, fromCpuValid s.params c.1 = true) →
    fromCpuValid s.params clear = false →
    failed.length < 200 → (∀ b ∈ failed, toCpuEmpty s.params b = false) → toCpuEmpty s.params last = true →
    let answers := drainAnswers stale ++ byteAnswers clear ++ writeAnswers 3 ++ statusAnswers failed ++ byteAnswers last
    let n := failed.length + 1
    let ops := drainOps s.params stale.length ++ queueOps s.params [a, k, v] ++ pollOps s.params n
    s.chip = answers ++ rest →
      ops.length = (4 * stale.length + 2) + 3 + 2 * n ∧
      run? ops.length s =
        some ({ s with trace := s.trace ++ entries ops answers, chip := rest, tick := s.tick + ops.length }.ended r .ok 0)

/-- The whole of a successful GET_INTERNAL (R130, R132, R135, R137, R139): (4k+2) + 2 + 2n + 2 transactions, these ones
in this order, and the reply byte in RDATA. (A run in which no other agent moves, log 1.) -/
def Obligations.GetInternalMakesItsTransactions : Prop :=
  ∀ (s : State) (r : Nat) (q : Request) (a k clear last reply : Byte) (stale : List (Byte × Byte)) (failed : List Byte)
    (rest : List SpiResult),
    s.schedule = [] → s.pc = .exec r q .start → decode q = .ok (.getInternal a k) → s.cfg.initialized ≠ 0 →
    stale.length < s.params.drainMax → (∀ c ∈ stale, fromCpuValid s.params c.1 = true) →
    fromCpuValid s.params clear = false →
    failed.length < 200 → (∀ b ∈ failed, readReady s.params b = false) → readReady s.params last = true →
    let answers := drainAnswers stale ++ byteAnswers clear ++ writeAnswers 2 ++ statusAnswers failed ++ byteAnswers last
      ++ byteAnswers reply
    let n := failed.length + 1
    let ops := drainOps s.params stale.length ++ queueOps s.params [a, k] ++ pollOps s.params n
      ++ readOps s.params.mbxFromCpuAddr
    s.chip = answers ++ rest →
      ops.length = (4 * stale.length + 2) + 2 + 2 * n + 2 ∧
      run? ops.length s =
        some ({ s with trace := s.trace ++ entries ops answers, chip := rest, tick := s.tick + ops.length }.ended r .ok
          (reply.setWidth 32))

/-- A mailbox command whose 200 polls all fail (R133, R135, R139): PifTimeout after exactly 200 polls, for SET_INTERNAL
(4k+2) + 3 + 400 transactions in all, for GET_INTERNAL (4k+2) + 2 + 400, these ones in this order. (A run in which no
other agent moves, log 1.) -/
def Obligations.SetInternalTimesOutAfter200Polls : Prop :=
  ∀ (s : State) (r : Nat) (q : Request) (i : Instr) (queued : List Byte) (clear : Byte) (stale : List (Byte × Byte))
    (failed : List Byte) (rest : List SpiResult),
    ((∃ a k v, i = .setInternal a k v ∧ queued = [a, k, v]) ∧ (∀ b ∈ failed, toCpuEmpty s.params b = false) ∨
      (∃ a k, i = .getInternal a k ∧ queued = [a, k]) ∧
        ∀ b ∈ failed, fromCpuValid s.params b = false ∨ toCpuEmpty s.params b = false) →
    s.schedule = [] → s.pc = .exec r q .start → decode q = .ok i → s.cfg.initialized ≠ 0 →
    stale.length < s.params.drainMax → (∀ c ∈ stale, fromCpuValid s.params c.1 = true) →
    fromCpuValid s.params clear = false → failed.length = 200 →
    let answers := drainAnswers stale ++ byteAnswers clear ++ writeAnswers queued.length ++ statusAnswers failed
    let ops := drainOps s.params stale.length ++ queueOps s.params queued ++ pollOps s.params 200
    s.chip = answers ++ rest →
      ops.length = (4 * stale.length + 2) + queued.length + 400 ∧
      run? ops.length s =
        some ({ s with trace := s.trace ++ entries ops answers, chip := rest, tick := s.tick + ops.length }.ended r
          .pifTimeout 0)

/-- A drain whose P_DRAIN_MAX status reads all show "from-CPU valid" (R130, R139): PifTimeout after exactly
4*P_DRAIN_MAX transactions, no byte queued; for SET_INTERNAL and GET_INTERNAL. -/
def Obligations.DrainTimesOutAfterItsBound : Prop :=
  ∀ (s : State) (r : Nat) (q : Request) (i : Instr) (stale : List (Byte × Byte)) (rest : List SpiResult),
    ((∃ a k v, i = .setInternal a k v) ∨ (∃ a k, i = .getInternal a k)) →
    s.schedule = [] → s.pc = .exec r q .start → decode q = .ok i → s.cfg.initialized ≠ 0 →
    0 < stale.length → stale.length = s.params.drainMax → (∀ c ∈ stale, fromCpuValid s.params c.1 = true) →
    s.chip = drainAnswers stale ++ rest →
    let ops := (List.replicate stale.length (readOps s.params.mbxStatusAddr ++ readOps s.params.mbxFromCpuAddr)).flatten
    ops.length = 4 * s.params.drainMax ∧
    run? ops.length s =
      some ({ s with
        trace := s.trace ++ entries ops (drainAnswers stale)
        chip := rest
        tick := s.tick + ops.length }.ended r .pifTimeout 0)

/-! ## Frame fetch (spec/43_frame_fetch.md) -/

/-- The checks before the fetch's first transaction (R150, R222), for FETCH_FRAME and READ_FRAME_NORM past the gate: an
UNSET FRAME_READ_SIZE is the model fault ReadUnset; a size above P_RAW_CAP ends BufferTooSmall with no transaction; else
the first counter read begins, in the same step (log 11), and ends HwError where the chip answers Err (R122). -/
def Obligations.FetchChecksItsSizeFirst : Prop :=
  ∀ (s : State) (r : Nat) (q : Request) (i : Instr), i = .fetchFrame ∨ i = .readFrameNorm →
    s.pc = .exec r q .start → s.cfg.initialized ≠ 0 →
    (s.cfg.frameReadSize = none → exec i s = .fault .readUnset) ∧
    (∀ frs : Word, s.cfg.frameReadSize = some frs → s.params.rawCap < frs.toNat →
      exec i s = .next (s.ended r .bufferTooSmall 0)) ∧
    (∀ (frs : Word) (bs : List Byte), s.cfg.frameReadSize = some frs → frs.toNat ≤ s.params.rawCap →
      s.answer (.write [s.params.mbxStatusAddr]) = .ok bs →
      exec i s = .next ((s.after (.write [s.params.mbxStatusAddr]) (.ok [])).at r q
        (.counter frs.toNat 0 0 (.drainStatusRecv 1)))) ∧
    ∀ frs : Word, s.cfg.frameReadSize = some frs → frs.toNat ≤ s.params.rawCap →
      s.answer (.write [s.params.mbxStatusAddr]) = .err →
      exec i s = .next ((s.after (.write [s.params.mbxStatusAddr]) .err).ended r .hwError 0)

/-- The five mailbox accesses of the fetch (R136, R137, R151, R152): counter read j runs transaction by transaction as
GET_INTERNAL of `P_FC_ADDR[j]` with kind 2 does, the action as SET_INTERNAL of the action address with kind 3 and the
action argument; an error ends the command as it ends theirs; the raw read follows the action. -/
def Obligations.FetchAccessesRunAsMailboxCommands : Prop :=
  ∀ (s : State) (r : Nat) (q : Request) (i : Instr) (frs : Nat) (fc acc : Word) (j : Fin 4) (m : MailboxPos),
    i = .fetchFrame ∨ i = .readFrameNorm →
    (s.pc = .exec r q (.counter frs j acc m) →
      let access := exec (.getInternal s.params.fcAddr[j] 2) (s.at r q (.mailbox m))
      (∀ (t : State) (m' : MailboxPos), access = .next (t.at r q (.mailbox m')) →
        exec i s = .next (t.at r q (.counter frs j acc m'))) ∧
      ∀ (t : State) (st : Status), st ≠ .ok → access = .next (t.ended r st 0) → exec i s = .next (t.ended r st 0)) ∧
    (s.pc = .exec r q (.action frs fc m) →
      let access := exec (.setInternal s.params.fetchActionAddr 3 s.params.actionArg) (s.at r q (.mailbox m))
      (∀ (t : State) (m' : MailboxPos), access = .next (t.at r q (.mailbox m')) →
        exec i s = .next (t.at r q (.action frs fc m'))) ∧
      (∀ (t : State) (st : Status), st ≠ .ok → access = .next (t.ended r st 0) → exec i s = .next (t.ended r st 0)) ∧
      ∀ op : SpiOp, access = .next ((s.after op (s.answer op)).ended r .ok 0) →
        exec i s = .next ((s.after op (s.answer op)).at r q (.raw frs fc)))

/-- The frame counter (R151, R152, R67): reply byte j is put in place j, the next counter read follows bytes 0 to 2 and
the fetch action byte 3, and four bytes so placed are the little-endian counter. -/
def Obligations.FrameCounterIsLittleEndian : Prop :=
  (∀ (s : State) (r : Nat) (q : Request) (i : Instr) (frs n : Nat) (j : Fin 4) (acc : Word) (b : Byte),
    i = .fetchFrame ∨ i = .readFrameNorm → s.pc = .exec r q (.counter frs j acc (.replyRecv n)) →
    s.answer (.read 1) = .ok [b] →
      (∀ h : j.val + 1 < 4, exec i s = .next ((s.after (.read 1) (.ok [b])).at r q
        (.counter frs ⟨j.val + 1, h⟩ (placeByte acc j b) (.drainStatusSend 1)))) ∧
      (j = 3 → exec i s = .next ((s.after (.read 1) (.ok [b])).at r q
        (.action frs (placeByte acc j b) (.drainStatusSend 1))))) ∧
  ∀ b0 b1 b2 b3 : Byte,
    placeByte (placeByte (placeByte (placeByte 0 0 b0) 1 b1) 2 b2) 3 b3 = (b3 ++ b2 ++ b1 ++ b0 : BitVec (8 + 8 + 8 + 8))

/-- The commit (R153, R154): the successful raw read of `frs` bytes ends FETCH_FRAME with (OK, fc), RAWBUF holding the
bytes from index 0 and everything above as before, FRAME_COUNTER fc; a raw read that the chip answers Err ends it
HwError; no other step of FETCH_FRAME writes registers or buffers. -/
def Obligations.FetchCommitsOnlyAtItsRawRead : Prop :=
  (∀ (s : State) (r : Nat) (q : Request) (frs : Nat) (fc : Word) (bs : List Byte),
    s.pc = .exec r q (.raw frs fc) →
    let op := SpiOp.writeRead [s.params.radarDataAddr] frs
    s.answer op = .ok bs →
      ∃ raw, exec .fetchFrame s = .next
          ({ s.after op (.ok bs) with rawbuf := raw, cfg := { s.cfg with frameCounter := fc } }.ended r .ok fc) ∧
        (∀ k, k < frs → Memory.get? raw k = bs[k]?) ∧ (∀ k, frs ≤ k → Memory.get? raw k = Memory.get? s.rawbuf k) ∧
        bs.length = frs) ∧
  (∀ (s : State) (r : Nat) (q : Request) (frs : Nat) (fc : Word),
    s.pc = .exec r q (.raw frs fc) →
    let op := SpiOp.writeRead [s.params.radarDataAddr] frs
    s.answer op = .err → exec .fetchFrame s = .next ((s.after op .err).ended r .hwError 0)) ∧
  ∀ (s t : State) (r : Nat) (q : Request) (p : Pos), s.pc = .exec r q p → exec .fetchFrame s = .next t →
    (∀ frs fc bs, p = .raw frs fc → s.answer (.writeRead [s.params.radarDataAddr] frs) ≠ .ok bs) →
      t.cfg = s.cfg ∧ t.rawbuf = s.rawbuf ∧ t.outbuf = s.outbuf

/-- The whole of a cooperative FETCH_FRAME (R150 to R155 with every k = 0 and n = 1): 40 transactions; RAWBUF holds the
raw bytes, FRAME_COUNTER and RDATA the little-endian counter. (A run in which no other agent moves, log 1.) -/
def Obligations.CooperativeFetchMakes40Transactions : Prop :=
  ∀ (s : State) (r : Nat) (q : Request) (frs : Word) (clear ready : Byte) (b0 b1 b2 b3 : Byte) (raw : List Byte)
    (rest : List SpiResult),
    s.schedule = [] → s.pc = .exec r q .start → decode q = .ok .fetchFrame → s.cfg.initialized ≠ 0 →
    s.params.legal = true → s.cfg.frameReadSize = some frs → frs.toNat ≤ s.params.rawCap → raw.length = frs.toNat →
    fromCpuValid s.params clear = false → toCpuEmpty s.params clear = true → readReady s.params ready = true →
    let counterAnswers := fun b => byteAnswers clear ++ writeAnswers 2 ++ byteAnswers ready ++ byteAnswers b
    let actionAnswers := byteAnswers clear ++ writeAnswers 3 ++ byteAnswers clear
    s.chip = counterAnswers b0 ++ counterAnswers b1 ++ counterAnswers b2 ++ counterAnswers b3 ++ actionAnswers
      ++ [.ok raw] ++ rest →
    let fc : Word := (b3 ++ b2 ++ b1 ++ b0 : BitVec (8 + 8 + 8 + 8))
    ∃ t, run? 40 s = some t ∧ t.trace.length = s.trace.length + 40 ∧
      t.trace.getLast? = some ⟨.writeRead [s.params.radarDataAddr] frs.toNat, .ok raw⟩ ∧
      t.pc = .idle ∧ t.lockOwner = none ∧ Memory.get? t.resp r = some ⟨.ok, fc⟩ ∧
      t.cfg = { s.cfg with frameCounter := fc } ∧ t.outbuf = s.outbuf ∧ t.chip = rest ∧
      (∀ k, k < frs.toNat → Memory.get? t.rawbuf k = raw[k]?) ∧
      (∀ k, frs.toNat ≤ k → Memory.get? t.rawbuf k = Memory.get? s.rawbuf k)

/-! ## Frame unpacker (spec/44_unpack.md) -/

/-- Counter(i, w) (R160): it fails exactly where one of its w bytes is UNSET, and else is the little-endian number of
the bytes at index i*w on, so below 2^(8w). -/
def Obligations.CounterIsLittleEndian : Prop :=
  ∀ (raw : Memory Byte) (i w : Nat),
    (counter raw i w = none ↔ ∃ k, k < w ∧ Memory.get? raw (i * w + k) = none) ∧
    ∀ c, counter raw i w = some c →
      c < 2 ^ (8 * w) ∧ ∀ k, k < w → ∃ b, Memory.get? raw (i * w + k) = some b ∧ c / 2 ^ (8 * k) % 256 = b.toNat

/-- Sign extension (R163): the result is in -2^(8w-1) .. 2^(8w-1)-1 and differs from the counter by 0 or 2^(8w). -/
def Obligations.SignExtensionIsTwosComplement : Prop :=
  ∀ w c : Nat, 1 ≤ w → c < 2 ^ (8 * w) →
    -(2 ^ (8 * w - 1) : Int) ≤ signExtend w c ∧ signExtend w c ≤ 2 ^ (8 * w - 1) - 1 ∧
    (signExtend w c = c ∨ signExtend w c = (c : Int) - 2 ^ (8 * w))

/-- UNPACK_RF completes (R161, R168) in every state that has what it reads: output k of OUTBUF is counter k, converted,
times NFACTOR, minus NORM_OFFSET, each operation rounded by itself (the NaN patterns free); all n = FRAME_READ_SIZE div
BPC of them, nothing above; OUT_COUNT and RDATA are n; no other register but ZERO_FRAME_CTR, and nothing else, changes.
-/
def Obligations.UnpackRfNormalizesEveryCounter : Prop :=
  ∀ (s : State) (r : Nat) (q : Request) (p : Pos) (w n : Nat) (nf off : Word),
    s.pc = .exec r q p → RfReady s w n nf off →
    ∃ out ctr, exec .unpackRf s = .next
        ({ s with
            outbuf := out
            cfg := { s.cfg with zeroFrameCtr := ctr, outCount := BitVec.ofNat 32 n }
            tick := s.tick + 1 }.ended r .ok (BitVec.ofNat 32 n)) ∧
      (∀ k, k < n → ∃ c m d, counter s.rawbuf k w = some c ∧
        Memory.get? out k = some (F32.sub d (F32.mul m (F32.ofInt c) nf) off)) ∧
      ∀ k, n ≤ k → Memory.get? out k = Memory.get? s.outbuf k

/-- UNPACK_IQ completes (R162, R164, R168) in every state that has what it reads: sample k is counter k, sign-extended,
converted, times the scale NFACTOR*FILTER_NORM rounded once, negated at odd k (the NaN patterns free); it goes to its
place in the order IQ_SEPARATE selects; n = 2*(FRAME_READ_SIZE div 2*BPC) of them, nothing above; OUT_COUNT and RDATA
are n; no other register but ZERO_FRAME_CTR, and nothing else, changes. -/
def Obligations.UnpackIqNormalizesEverySample : Prop :=
  ∀ (s : State) (r : Nat) (q : Request) (p : Pos) (w n : Nat) (nf fnf : Word),
    s.pc = .exec r q p → IqReady s w n nf fnf →
    ∃ out ctr m0, exec .unpackIq s = .next
        ({ s with
            outbuf := out
            cfg := { s.cfg with zeroFrameCtr := ctr, outCount := BitVec.ofNat 32 n }
            tick := s.tick + 1 }.ended r .ok (BitVec.ofNat 32 n)) ∧
      (∀ k, k < n → ∃ c m, counter s.rawbuf k w = some c ∧
        let v := F32.mul m (F32.ofInt (signExtend w c)) (F32.mul m0 nf fnf)
        Memory.get? out (samplePlace s.cfg.iqSeparate n k) = some (if k % 2 = 1 then F32.neg v else v)) ∧
      ∀ k, n ≤ k → Memory.get? out k = Memory.get? s.outbuf k

/-- UNPACK_RF's checks in the pseudocode's order (R161, R222, R226): width 0 is the model fault CounterWidthZero; a
width above 4 ends UnpackCounterTooLarge; an UNSET size is ReadUnset; a raw size above P_RAW_CAP, then a count above
P_OUT_CAP, end BufferTooSmall; an UNSET constant or raw cell is ReadUnset. An error has no other effect. -/
def Obligations.UnpackRfChecksInOrder : Prop :=
  ∀ (s : State) (r : Nat) (q : Request) (p : Pos), s.pc = .exec r q p →
    (s.cfg.bpc = 0 → exec .unpackRf s = .fault .counterWidthZero) ∧
    (4 < s.cfg.bpc.toNat → exec .unpackRf s = .next (s.ended r .unpackCounterTooLarge 0)) ∧
    (s.cfg.bpc ≠ 0 → s.cfg.bpc.toNat ≤ 4 →
      (s.cfg.frameReadSize = none → exec .unpackRf s = .fault .readUnset) ∧
      ∀ frs : Word, s.cfg.frameReadSize = some frs →
        (s.params.rawCap < frs.toNat → exec .unpackRf s = .next (s.ended r .bufferTooSmall 0)) ∧
        (s.params.outCap < frs.toNat / s.cfg.bpc.toNat → exec .unpackRf s = .next (s.ended r .bufferTooSmall 0)) ∧
        (frs.toNat ≤ s.params.rawCap → frs.toNat / s.cfg.bpc.toNat ≤ s.params.outCap →
          (s.cfg.nfactor = none ∨ s.cfg.normOffset = none ∨
            ∃ k, k < frs.toNat / s.cfg.bpc.toNat * s.cfg.bpc.toNat ∧ Memory.get? s.rawbuf k = none) →
          exec .unpackRf s = .fault .readUnset))

/-- UNPACK_IQ's checks in the pseudocode's order (R162, R222, R226), as UnpackRfChecksInOrder with the width limit 6,
the constants NFACTOR and FILTER_NORM, and the count of whole pairs. -/
def Obligations.UnpackIqChecksInOrder : Prop :=
  ∀ (s : State) (r : Nat) (q : Request) (p : Pos), s.pc = .exec r q p →
    (s.cfg.bpc = 0 → exec .unpackIq s = .fault .counterWidthZero) ∧
    (6 < s.cfg.bpc.toNat → exec .unpackIq s = .next (s.ended r .unpackCounterTooLarge 0)) ∧
    (s.cfg.bpc ≠ 0 → s.cfg.bpc.toNat ≤ 6 →
      (s.cfg.frameReadSize = none → exec .unpackIq s = .fault .readUnset) ∧
      ∀ frs : Word, s.cfg.frameReadSize = some frs →
        let count := 2 * (frs.toNat / (2 * s.cfg.bpc.toNat))
        (s.params.rawCap < frs.toNat → exec .unpackIq s = .next (s.ended r .bufferTooSmall 0)) ∧
        (s.params.outCap < count → exec .unpackIq s = .next (s.ended r .bufferTooSmall 0)) ∧
        (frs.toNat ≤ s.params.rawCap → count ≤ s.params.outCap →
          (s.cfg.nfactor = none ∨ s.cfg.filterNorm = none ∨
            ∃ k, k < count * s.cfg.bpc.toNat ∧ Memory.get? s.rawbuf k = none) →
          exec .unpackIq s = .fault .readUnset))

/-- Zero-frame tracking (R165), for every unpack that does not raise, on both paths and in READ_FRAME_NORM: when every
output v of the frame has -EPS ≤ v ≤ EPS, ZERO_FRAME_CTR rises by 1 below P_ZERO_FRAME_CAP and else stays; when some
output has not, it becomes 0. -/
def Obligations.ZeroFramesAreCountedUpToTheCap : Prop :=
  ∀ (s t : State) (r : Nat) (q : Request) (p : Pos) (i : Instr) (v : Word), s.params.legal = true →
    (i = .unpackRf ∨ i = .unpackIq ∨ (i = .readFrameNorm ∧ ∃ fc, p = .unpack fc)) →
    s.pc = .exec r q p → exec i s = .next t → Memory.get? t.resp r = some ⟨.ok, v⟩ →
    let isZero := fun k => ∃ x, Memory.get? t.outbuf k = some x ∧
      F32.le (F32.neg 0x34000000) x = true ∧ F32.le x 0x34000000 = true
    let n := t.cfg.outCount.toNat
    ((∀ k, k < n → isZero k) →
      t.cfg.zeroFrameCtr =
        if s.cfg.zeroFrameCtr < s.params.zeroFrameCap then s.cfg.zeroFrameCtr + 1 else s.cfg.zeroFrameCtr) ∧
    ((∃ k, k < n ∧ ¬ isZero k) → t.cfg.zeroFrameCtr = 0)

/-- READ_FRAME_NORM (R166): at its raw read it commits the frame as FETCH_FRAME does, but stays in flight, and ends
HwError where the chip answers Err; then the body DOWNCONV_EN selects runs as UNPACK_RF or UNPACK_IQ does: it completes
with the frame counter in RDATA where they complete, ends with the same error and the commit kept where they raise, and
faults where they fault. -/
def Obligations.ReadFrameNormFetchesThenUnpacks : Prop :=
  (∀ (s : State) (r : Nat) (q : Request) (frs : Nat) (fc : Word) (bs : List Byte),
    s.pc = .exec r q (.raw frs fc) →
    let op := SpiOp.writeRead [s.params.radarDataAddr] frs
    s.answer op = .ok bs →
      ∃ raw, exec .readFrameNorm s = .next
          ({ s.after op (.ok bs) with rawbuf := raw, cfg := { s.cfg with frameCounter := fc } }.at r q (.unpack fc)) ∧
        (∀ k, k < frs → Memory.get? raw k = bs[k]?) ∧ ∀ k, frs ≤ k → Memory.get? raw k = Memory.get? s.rawbuf k) ∧
  (∀ (s : State) (r : Nat) (q : Request) (frs : Nat) (fc : Word),
    s.pc = .exec r q (.raw frs fc) →
    let op := SpiOp.writeRead [s.params.radarDataAddr] frs
    s.answer op = .err → exec .readFrameNorm s = .next ((s.after op .err).ended r .hwError 0)) ∧
  ∀ (s : State) (r : Nat) (q : Request) (fc : Word), s.pc = .exec r q (.unpack fc) →
    let body := if s.cfg.downconvEn = 0 then Instr.unpackRf else Instr.unpackIq
    (∀ f, exec body s = .fault f → exec .readFrameNorm s = .fault f) ∧
    ∀ t, exec body s = .next t →
      (∀ st, st ≠ .ok → t = s.ended r st 0 → exec .readFrameNorm s = .next (s.ended r st 0)) ∧
      (∀ v, Memory.get? t.resp r = some ⟨.ok, v⟩ →
        exec .readFrameNorm s = .next { t with resp := Memory.set s.resp r ⟨.ok, fc⟩ })

/-- READ_FRAME_NORM completes (R166) on both paths, at its unpack, in every state that has what the selected body reads:
the response is (OK, fc) and OUT_COUNT is the number of outputs. -/
def Obligations.ReadFrameNormCompletes : Prop :=
  ∀ (s : State) (r : Nat) (q : Request) (fc : Word) (w n : Nat) (nf c : Word), s.pc = .exec r q (.unpack fc) →
    (s.cfg.downconvEn = 0 ∧ RfReady s w n nf c) ∨ (s.cfg.downconvEn ≠ 0 ∧ IqReady s w n nf c) →
    ∃ t, exec .readFrameNorm s = .next t ∧ t.pc = .idle ∧ t.lockOwner = none ∧
      Memory.get? t.resp r = some ⟨.ok, fc⟩ ∧ t.cfg.outCount = BitVec.ofNat 32 n ∧ t.rawbuf = s.rawbuf ∧
      t.trace = s.trace ∧ t.cfg.frameCounter = s.cfg.frameCounter

/-! ## Float32 primitives (spec/00_scope.md R10) -/

/-- `f32_of_int` rounds to nearest, ties to even (R10, D18), for every integer a counter can give (below 2^48 in
magnitude): the result is finite, no finite pattern is nearer, and where another value is as near the result's last bit
is 0. The integer 0 is +0 (log 8). -/
def Obligations.IntToFloatRoundsToNearestEven : Prop :=
  F32.ofInt 0 = 0x00000000 ∧
  ∀ n : Int, n.natAbs < 2 ^ 48 →
    let r := F32.ofInt n
    F32.isFinite r = true ∧
    ∀ w : Word, F32.isFinite w = true →
      (F32.value r - n * 2 ^ 149).natAbs ≤ (F32.value w - n * 2 ^ 149).natAbs ∧
      ((F32.value r - n * 2 ^ 149).natAbs = (F32.value w - n * 2 ^ 149).natAbs → F32.value w ≠ F32.value r →
        r.getLsbD 0 = false)

/-- `f32_mul` on finite operands (R10, D18): the sign is the exclusive or; below the overflow threshold the result is
the finite pattern nearest to the exact product, ties to even; from the threshold on it is infinity. -/
def Obligations.MultiplyRoundsToNearestEven : Prop :=
  ∀ nan a b : Word, F32.isFinite a = true → F32.isFinite b = true →
    let r := F32.mul nan a b
    let x := F32.value a * F32.value b
    F32.sign r = (F32.sign a ^^ F32.sign b) ∧
    (x.natAbs < (2 ^ 25 - 1) * 2 ^ 401 →
      F32.isFinite r = true ∧
      ∀ w : Word, F32.isFinite w = true →
        (F32.value r * 2 ^ 149 - x).natAbs ≤ (F32.value w * 2 ^ 149 - x).natAbs ∧
        ((F32.value r * 2 ^ 149 - x).natAbs = (F32.value w * 2 ^ 149 - x).natAbs → F32.value w ≠ F32.value r →
          r.getLsbD 0 = false)) ∧
    ((2 ^ 25 - 1) * 2 ^ 401 ≤ x.natAbs → F32.isInf r = true)

/-- `f32_sub` on finite operands (R10, D18): below the overflow threshold the finite pattern nearest to the exact
difference, ties to even; from the threshold on infinity of its sign. An exact zero is +0, but for (-0) - (+0), which is
-0 (log 8). -/
def Obligations.SubtractRoundsToNearestEven : Prop :=
  ∀ nan a b : Word, F32.isFinite a = true → F32.isFinite b = true →
    let r := F32.sub nan a b
    let x := F32.value a - F32.value b
    (x.natAbs < (2 ^ 25 - 1) * 2 ^ 252 →
      F32.isFinite r = true ∧
      ∀ w : Word, F32.isFinite w = true →
        (F32.value r - x).natAbs ≤ (F32.value w - x).natAbs ∧
        ((F32.value r - x).natAbs = (F32.value w - x).natAbs → F32.value w ≠ F32.value r → r.getLsbD 0 = false)) ∧
    ((2 ^ 25 - 1) * 2 ^ 252 ≤ x.natAbs → F32.isInf r = true ∧ F32.sign r = decide (x < 0)) ∧
    (F32.value a = F32.value b →
      r = if a = 0x80000000 ∧ b = 0x00000000 then 0x80000000 else 0x00000000)

/-- NaN and infinity in `f32_mul` and `f32_sub` (R10): a NaN operand, infinity times zero and infinity minus the same
infinity give some NaN; other results with an infinite operand are the infinities of IEEE 754. -/
def Obligations.NaNAndInfinityFollowIeee : Prop :=
  ∀ nan a b : Word,
    (F32.isNaN a = true ∨ F32.isNaN b = true →
      F32.isNaN (F32.mul nan a b) = true ∧ F32.isNaN (F32.sub nan a b) = true) ∧
    (F32.isInf a = true → F32.isFinite b = true →
      (F32.value b = 0 → F32.isNaN (F32.mul nan a b) = true ∧ F32.isNaN (F32.mul nan b a) = true) ∧
      (F32.value b ≠ 0 → F32.isInf (F32.mul nan a b) = true ∧ F32.isInf (F32.mul nan b a) = true ∧
        F32.sign (F32.mul nan a b) = (F32.sign a ^^ F32.sign b) ∧
        F32.sign (F32.mul nan b a) = (F32.sign a ^^ F32.sign b)) ∧
      F32.sub nan a b = a ∧ F32.sub nan b a = F32.neg a) ∧
    (F32.isInf a = true → F32.isInf b = true →
      F32.isInf (F32.mul nan a b) = true ∧ F32.sign (F32.mul nan a b) = (F32.sign a ^^ F32.sign b) ∧
      (F32.sign a = F32.sign b → F32.isNaN (F32.sub nan a b) = true) ∧
      (F32.sign a ≠ F32.sign b → F32.sub nan a b = a))

/-- `f32_le` is the order of the values on finite patterns, with minus infinity below and plus infinity above every
number, and false with a NaN; `f32_neg` flips bit 31 and nothing else (R10, the infinities as IEEE 754 orders them, log
8). -/
def Obligations.CompareAndNegateFollowIeee : Prop :=
  (∀ a b : Word, F32.isFinite a = true → F32.isFinite b = true →
    (F32.le a b = true ↔ F32.value a ≤ F32.value b)) ∧
  (∀ a b : Word, F32.isNaN a = true ∨ F32.isNaN b = true → F32.le a b = false) ∧
  (∀ a b : Word, F32.isNaN a = false → F32.isNaN b = false →
    (F32.isInf a = true → (F32.le a b = true ↔ F32.sign a = true ∨ b = a)) ∧
    (F32.isInf b = true → (F32.le a b = true ↔ F32.sign b = false ∨ a = b))) ∧
  (∀ (a : Word) (k : Nat), k < 32 → (F32.neg a).getLsbD k = if k = 31 then !a.getLsbD 31 else a.getLsbD k) ∧
  ∀ a : Word, F32.value (F32.neg a) = -F32.value a

/-! ## Host access commands (spec/45_host_access.md) -/

/-- CFG_WRITE (R170), the words 10 reg 00 00 and the data word: a register that is neither reserved nor read only takes
the data word, narrowed to its width; it reads back so, and no other register changes; (OK, 0). Which register each
index names is R22's table, written out. A reserved or read-only index ends IllegalCommand with no other effect. -/
def Obligations.CfgWriteWritesOneRegister : Prop :=
  ∀ (s : State) (r : Nat) (q : Request) (p : Pos) (reg : Byte) (data : Word), s.pc = .exec r q p →
    decode ⟨(0x10 : Byte) ++ reg ++ (0 : Half), data⟩ = .ok (.cfgWrite reg data) ∧
    (0x0C ≤ reg.toNat ∨ reg = 0x09 ∨ reg = 0x0A →
      exec (.cfgWrite reg data) s = .next (s.ended r .illegalCommand 0)) ∧
    (reg.toNat ≤ 0x0B → reg ≠ 0x09 → reg ≠ 0x0A →
      ∃ name cfg, CfgReg.ofIndex reg = some name ∧
        exec (.cfgWrite reg data) s = .next ({ s with cfg := cfg }.ended r .ok 0) ∧
        cfg.read name = some (if reg.toNat ≤ 2 then data &&& 1 else if reg = 3 then data &&& 0xFF else data) ∧
        ∀ other, other ≠ name → cfg.read other = s.cfg.read other) ∧
    ∀ row ∈ ([
        (0x00, { s.cfg with initialized := data.setWidth 1 }),
        (0x01, { s.cfg with downconvEn := data.setWidth 1 }),
        (0x02, { s.cfg with iqSeparate := data.setWidth 1 }),
        (0x03, { s.cfg with bpc := data.setWidth 8 }),
        (0x04, { s.cfg with frameReadSize := some data }),
        (0x05, { s.cfg with nfactor := some data }),
        (0x06, { s.cfg with normOffset := some data }),
        (0x07, { s.cfg with filterNorm := some data }),
        (0x08, { s.cfg with zeroFrameCtr := data }),
        (0x0B, { s.cfg with lockTimeoutMs := some data })] : List (Byte × CfgRegs)),
      exec (.cfgWrite row.1 data) s = .next ({ s with cfg := row.2 }.ended r .ok 0)

/-- CFG_READ (R171), the word 11 reg 00 00: the register's value, zero-extended; the model fault ReadUnset where it
holds UNSET; IllegalCommand for a reserved index. Which register each index names is R22's table, written out. -/
def Obligations.CfgReadReturnsTheRegister : Prop :=
  ∀ (s : State) (r : Nat) (q : Request) (p : Pos) (reg : Byte), s.pc = .exec r q p →
    decode ⟨(0x11 : Byte) ++ reg ++ (0 : Half), 0⟩ = .ok (.cfgRead reg) ∧
    (0x0C ≤ reg.toNat → exec (.cfgRead reg) s = .next (s.ended r .illegalCommand 0)) ∧
    ∀ row ∈ ([
        (0x00, some (s.cfg.initialized.setWidth 32)),
        (0x01, some (s.cfg.downconvEn.setWidth 32)),
        (0x02, some (s.cfg.iqSeparate.setWidth 32)),
        (0x03, some (s.cfg.bpc.setWidth 32)),
        (0x04, s.cfg.frameReadSize),
        (0x05, s.cfg.nfactor),
        (0x06, s.cfg.normOffset),
        (0x07, s.cfg.filterNorm),
        (0x08, some s.cfg.zeroFrameCtr),
        (0x09, some s.cfg.frameCounter),
        (0x0A, some s.cfg.outCount),
        (0x0B, s.cfg.lockTimeoutMs)] : List (Byte × UnsetOr Word)), row.1 = reg →
      (∀ v, row.2 = some v → exec (.cfgRead reg) s = .next (s.ended r .ok v)) ∧
      (row.2 = none → exec (.cfgRead reg) s = .fault .readUnset)

/-- RAW_WRITE (R172), the word 12 idx val: RAWBUF[IDX] is VAL and no other cell changes; (OK, 0). OutOfRange at or above
P_RAW_CAP, with no other effect. -/
def Obligations.RawWriteWritesOneCell : Prop :=
  ∀ (s : State) (r : Nat) (q : Request) (p : Pos) (idx : Half) (val : Byte), s.pc = .exec r q p →
    decode ⟨(0x12 : Byte) ++ idx ++ val, 0⟩ = .ok (.rawWrite idx val) ∧
    (s.params.rawCap ≤ idx.toNat → exec (.rawWrite idx val) s = .next (s.ended r .outOfRange 0)) ∧
    (idx.toNat < s.params.rawCap →
      ∃ raw, exec (.rawWrite idx val) s = .next ({ s with rawbuf := raw }.ended r .ok 0) ∧
        Memory.get? raw idx.toNat = some val ∧ ∀ k, k ≠ idx.toNat → Memory.get? raw k = Memory.get? s.rawbuf k)

/-- RAW_READ (R173), the word 13 idx 00: RAWBUF[IDX] zero-extended; ReadUnset for an UNSET cell; OutOfRange at or above
P_RAW_CAP. -/
def Obligations.RawReadReturnsTheCell : Prop :=
  ∀ (s : State) (r : Nat) (q : Request) (p : Pos) (idx : Half), s.pc = .exec r q p →
    decode ⟨(0x13 : Byte) ++ idx ++ (0 : Byte), 0⟩ = .ok (.rawRead idx) ∧
    (s.params.rawCap ≤ idx.toNat → exec (.rawRead idx) s = .next (s.ended r .outOfRange 0)) ∧
    (idx.toNat < s.params.rawCap →
      (∀ b, Memory.get? s.rawbuf idx.toNat = some b →
        exec (.rawRead idx) s = .next (s.ended r .ok (b.setWidth 32))) ∧
      (Memory.get? s.rawbuf idx.toNat = none → exec (.rawRead idx) s = .fault .readUnset))

/-- OUT_READ (R174), the word 14 idx 00: the float32 pattern in OUTBUF[IDX]; ReadUnset for an UNSET cell; OutOfRange at
or above P_OUT_CAP. -/
def Obligations.OutReadReturnsTheCell : Prop :=
  ∀ (s : State) (r : Nat) (q : Request) (p : Pos) (idx : Half), s.pc = .exec r q p →
    decode ⟨(0x14 : Byte) ++ idx ++ (0 : Byte), 0⟩ = .ok (.outRead idx) ∧
    (s.params.outCap ≤ idx.toNat → exec (.outRead idx) s = .next (s.ended r .outOfRange 0)) ∧
    (idx.toNat < s.params.outCap →
      (∀ v, Memory.get? s.outbuf idx.toNat = some v → exec (.outRead idx) s = .next (s.ended r .ok v)) ∧
      (Memory.get? s.outbuf idx.toNat = none → exec (.outRead idx) s = .fault .readUnset))

/-! ## Errors, faults and whole-machine rules (spec/60_exceptions.md) -/

/-- No execution is refused, and the model faults are those of R226 where it says: CounterWidthZero only from an unpack
with BPC = 0, ReadUnset only from the commands that read a register or cell that can be UNSET. -/
def Obligations.OnlyTheNamedFaultsAndNoRefusal : Prop :=
  ∀ (i : Instr) (s : State),
    (∀ e, exec i s ≠ .refused e) ∧
    (exec i s = .fault .counterWidthZero →
      s.cfg.bpc = 0 ∧ (i = .unpackRf ∨ i = .unpackIq ∨ i = .readFrameNorm)) ∧
    (exec i s = .fault .readUnset →
      i = .unpackRf ∨ i = .unpackIq ∨ i = .readFrameNorm ∨ i = .fetchFrame ∨ (∃ reg, i = .cfgRead reg) ∨
        (∃ k, i = .rawRead k) ∨ ∃ k, i = .outRead k)

/-- Errors are clean (R224): a step that ends a command with an error leaves registers and buffers as they were; so does
every step that leaves the command in flight, but for the fetch commit of READ_FRAME_NORM. -/
def Obligations.ErrorsLeaveRegistersAndBuffers : Prop :=
  ∀ (i : Instr) (s t : State) (r : Nat) (q : Request) (p : Pos), s.pc = .exec r q p → exec i s = .next t →
    (∀ st v, t.pc = .idle → Memory.get? t.resp r = some ⟨st, v⟩ → st ≠ .ok →
      t.cfg = s.cfg ∧ t.rawbuf = s.rawbuf ∧ t.outbuf = s.outbuf) ∧
    (t.pc ≠ .idle → (i = .readFrameNorm ∧ ∃ frs fc, p = .raw frs fc) ∨
      (t.cfg = s.cfg ∧ t.rawbuf = s.rawbuf ∧ t.outbuf = s.outbuf))

/-- What each command leaves alone when it steps to a next state: only CFG_WRITE, the fetch and the unpacks write a
register, only RAW_WRITE and the fetch write RAWBUF, only the unpacks write OUTBUF. -/
def Obligations.CommandsWriteOnlyTheirOwnState : Prop :=
  ∀ (i : Instr) (s t : State), exec i s = .next t →
    ((∀ reg d, i ≠ .cfgWrite reg d) → i ≠ .fetchFrame → i ≠ .readFrameNorm → i ≠ .unpackRf → i ≠ .unpackIq →
      t.cfg = s.cfg) ∧
    ((∀ k v, i ≠ .rawWrite k v) → i ≠ .fetchFrame → i ≠ .readFrameNorm →
      ∀ k, Memory.get? t.rawbuf k = Memory.get? s.rawbuf k) ∧
    (i ≠ .unpackRf → i ≠ .unpackIq → i ≠ .readFrameNorm → ∀ k, Memory.get? t.outbuf k = Memory.get? s.outbuf k)

/-- INITIALIZED (R23, R253): X4MBU never writes it; a step changes it only by a reset or by the host's CFG_WRITE of
index 0x00. -/
def Obligations.InitializedIsTheHostsAlone : Prop :=
  ∀ s t : State, step s = .next t → t.cfg.initialized ≠ s.cfg.initialized →
    s.schedule.head? = some .reset ∨
      ∃ r q p d, s.pc = .exec r q p ∧ decode q = .ok (.cfgWrite 0x00 d) ∧ t.cfg.initialized = d.setWidth 1

/-! ## Reset (spec/70_reset_and_hazards.md) -/

/-- The state after reset (R250, R22): registers at the reset column, both buffers UNSET everywhere, the lock free,
Idle, no request, no response, T empty; and X4MBU, with nothing scheduled (log 17), then waits for a request. -/
def Obligations.ResetStateHasTheResetValues : Prop :=
  let s := State.reset
  s.cfg.initialized = 0 ∧ s.cfg.downconvEn = 0 ∧ s.cfg.iqSeparate = 0 ∧ s.cfg.bpc = 3 ∧ s.cfg.frameReadSize = none ∧
  s.cfg.nfactor = none ∧ s.cfg.normOffset = none ∧ s.cfg.filterNorm = none ∧ s.cfg.zeroFrameCtr = 0 ∧
  s.cfg.frameCounter = 0 ∧ s.cfg.outCount = 0 ∧ s.cfg.lockTimeoutMs = none ∧
  (∀ k, Memory.get? s.rawbuf k = none ∧ Memory.get? s.outbuf k = none) ∧
  (∀ r, Memory.get? s.req r = none ∧ Memory.get? s.resp r = none) ∧
  s.lockOwner = none ∧ s.pc = .idle ∧ s.trace = [] ∧ step s = .next s

/-- A reset at any moment, in flight or not (R251): every piece of X4MBU's state becomes its reset value, with no
response. (That the parameters, the rest of the schedule and the chip's answers stay is the model's choice, log 18.) -/
def Obligations.ResetAbandonsTheCommand : Prop :=
  ∀ (s : State) (rest : List Event), s.schedule = .reset :: rest →
    step s = .next { State.reset with params := s.params, schedule := rest, chip := s.chip, tick := s.tick }

/-! ## Invariants and termination -/

/-- The invariant holds after reset. -/
def Obligations.InvHoldsAfterReset : Prop := State.reset.Inv

/-- Every step keeps the invariant: canonical buffers within their capacities, slots within the requesters, the lock
with its phase, legal requests, the command in flight at a position of its own pseudocode with its counters in range,
OUT_COUNT within OUTBUF, RDATA 0 with an error, T's entries with the bytes they read. -/
def Obligations.EveryStepKeepsTheInvariant : Prop :=
  ∀ s t : State, s.Inv → step s = .next t → t.Inv

/-- Termination (R109): from every state the invariant holds of, with a command in flight and no other agent moving (log
1), the command ends in a response, or stops at a model fault, within the bound of its position. -/
def Obligations.EveryCommandEndsWithinItsBound : Prop :=
  ∀ (s : State) (r : Nat) (q : Request) (p : Pos) (i : Instr),
    s.Inv → s.schedule = [] → s.pc = .exec r q p → decode q = .ok i →
    ∃ n, n < p.bound s.params i ∧ ∃ u, run? n s = some u ∧
      ((∃ f, step u = .fault f) ∨
        ∃ t, step u = .next t ∧ t.pc = .idle ∧ t.lockOwner = none ∧ ∃ a, Memory.get? t.resp r = some a)
end

