-- ==== Sys2Proof/Laws/Decode.lean ====
section
/-! SUPPORT. The laws of the command word's fields (spec/30_encoding.md R81): what the encoder packs, the decoder's fields
give back, bit by bit. -/

namespace Sys2Proof

theorem getLsbD_packBytes (op high mid low : Byte) (k : Nat) :
    (packBytes op high mid low).getLsbD k =
      if k < 8 then low.getLsbD k
      else if k < 16 then mid.getLsbD (k - 8)
      else if k < 24 then high.getLsbD (k - 16)
      else op.getLsbD (k - 24) := by
  have h : (packBytes op high mid low).getLsbD k = ((op ++ high ++ mid) ++ low : BitVec (8 + 8 + 8 + 8)).getLsbD k := rfl
  rw [h, BitVec.getLsbD_append, BitVec.getLsbD_append, BitVec.getLsbD_append]
  simp only [Nat.sub_sub]
  split
  · rfl
  · have : (k - 8 < 8) ↔ k < 16 := by omega
    have : (k - (8 + 8) < 8) ↔ k < 24 := by omega
    simp_all

theorem getLsbD_packIdx (op : Byte) (idx : Half) (low : Byte) (k : Nat) :
    (packIdx op idx low).getLsbD k =
      if k < 8 then low.getLsbD k else if k < 24 then idx.getLsbD (k - 8) else op.getLsbD (k - 24) := by
  have h : (packIdx op idx low).getLsbD k = ((op ++ idx) ++ low : BitVec (8 + 16 + 8)).getLsbD k := rfl
  rw [h, BitVec.getLsbD_append, BitVec.getLsbD_append]
  simp only [Nat.sub_sub]
  split
  · rfl
  · have : (k - 8 < 16) ↔ k < 24 := by omega
    simp_all

/-- A field of a word whose bits are known by place is the field put there. -/
theorem extract_eq_of_bits {w : Nat} {c : Word} {lo : Nat} {v : BitVec w}
    (h : ∀ k, k < w → c.getLsbD (lo + k) = v.getLsbD k) : c.extractLsb' lo w = v := by
  apply BitVec.eq_of_getLsbD_eq
  intro k hk
  rw [BitVec.getLsbD_extractLsb', h k hk]
  simp [hk]

@[simp] theorem opcodeOf_packBytes (op high mid low : Byte) : opcodeOf (packBytes op high mid low) = op :=
  extract_eq_of_bits fun k hk => by
    rw [getLsbD_packBytes, if_neg (by omega), if_neg (by omega), if_neg (by omega)]; congr 1; omega

@[simp] theorem fieldHigh_packBytes (op high mid low : Byte) : fieldHigh (packBytes op high mid low) = high :=
  extract_eq_of_bits fun k hk => by
    rw [getLsbD_packBytes, if_neg (by omega), if_neg (by omega), if_pos (by omega)]; congr 1; omega

@[simp] theorem fieldMid_packBytes (op high mid low : Byte) : fieldMid (packBytes op high mid low) = mid :=
  extract_eq_of_bits fun k hk => by
    rw [getLsbD_packBytes, if_neg (by omega), if_pos (by omega)]; congr 1; omega

@[simp] theorem fieldLow_packBytes (op high mid low : Byte) : fieldLow (packBytes op high mid low) = low :=
  extract_eq_of_bits fun k hk => by
    rw [getLsbD_packBytes, if_pos (by omega)]; congr 1; omega

@[simp] theorem fieldLow16_packBytes_zero (op high : Byte) : fieldLow16 (packBytes op high 0#8 0#8) = 0#16 :=
  extract_eq_of_bits fun k hk => by
    rw [getLsbD_packBytes]
    split
    · simp
    · rw [if_pos (by omega)]; simp

@[simp] theorem fieldLow24_packBytes_zero (op : Byte) : fieldLow24 (packBytes op 0#8 0#8 0#8) = 0#24 :=
  extract_eq_of_bits fun k hk => by
    rw [getLsbD_packBytes]
    split
    · simp
    · split
      · simp
      · rw [if_pos (by omega)]; simp

@[simp] theorem opcodeOf_packIdx (op : Byte) (idx : Half) (low : Byte) : opcodeOf (packIdx op idx low) = op :=
  extract_eq_of_bits fun k hk => by
    rw [getLsbD_packIdx, if_neg (by omega), if_neg (by omega)]; congr 1; omega

@[simp] theorem fieldIdx_packIdx (op : Byte) (idx : Half) (low : Byte) : fieldIdx (packIdx op idx low) = idx :=
  extract_eq_of_bits fun k hk => by
    rw [getLsbD_packIdx, if_neg (by omega), if_pos (by omega)]; congr 1; omega

@[simp] theorem fieldLow_packIdx (op : Byte) (idx : Half) (low : Byte) : fieldLow (packIdx op idx low) = low :=
  extract_eq_of_bits fun k hk => by
    rw [getLsbD_packIdx, if_pos (by omega)]; congr 1; omega

/-! ## Words and masks -/

/-- A mask acts on the four bytes apart. -/
theorem packBytes_and (op high mid low op' high' mid' low' : Byte) :
    packBytes op high mid low &&& packBytes op' high' mid' low' =
      packBytes (op &&& op') (high &&& high') (mid &&& mid') (low &&& low') := by
  apply BitVec.eq_of_getLsbD_eq
  intro k _
  rw [BitVec.getLsbD_and, getLsbD_packBytes, getLsbD_packBytes, getLsbD_packBytes]
  split
  · rw [BitVec.getLsbD_and]
  · split
    · rw [BitVec.getLsbD_and]
    · split <;> rw [BitVec.getLsbD_and]

/-- A buffer index is two bytes of the word. -/
theorem packIdx_eq_packBytes (op : Byte) (idx : Half) (low : Byte) :
    packIdx op idx low = packBytes op (idx.extractLsb' 8 8) (idx.extractLsb' 0 8) low := by
  apply BitVec.eq_of_getLsbD_eq
  intro k _
  rw [getLsbD_packIdx, getLsbD_packBytes, BitVec.getLsbD_extractLsb', BitVec.getLsbD_extractLsb']
  split
  · rfl
  · split
    · split
      · simp [show k - 8 < 8 by omega]
      · simp [show k - 16 < 8 by omega, show 8 + (k - 16) = k - 8 by omega]
    · rw [if_neg (by omega)]

end Sys2Proof
end

