-- ==== Sys2Proof/Laws/Memory.lean ====
section
/-! SUPPORT. The laws of the cells: a read after a write, frames, and that every memory operation keeps the canonical
form. -/

namespace Sys2Proof.Machine.Memory

variable {α : Type}

@[simp] theorem get?_nil (k : Nat) : get? ([] : Memory α) k = none := rfl

@[simp] theorem get?_set_self (m : Memory α) (k : Nat) (v : α) : get? (set m k v) k = some v := by
  induction m with
  | nil => simp [set, get?]
  | cons c m ih =>
    obtain ⟨a, w⟩ := c
    simp only [set]
    split
    · simp [get?]
    · split
      · simp [get?]
      · simp [get?, *]

theorem get?_set_of_ne (m : Memory α) {k j : Nat} (v : α) (h : j ≠ k) : get? (set m k v) j = get? m j := by
  induction m with
  | nil => simp [set, get?, h.symm]
  | cons c m ih =>
    obtain ⟨a, w⟩ := c
    simp only [set]
    split
    · simp [get?, h.symm]
    · split
      · next heq => subst heq; simp [get?, h.symm]
      · simp [get?, ih]

theorem get?_set (m : Memory α) (k j : Nat) (v : α) :
    get? (set m k v) j = if j = k then some v else get? m j := by
  split
  · next h => subst h; exact get?_set_self m j v
  · next h => exact get?_set_of_ne m v h

theorem get?_erase_of_ne (m : Memory α) {k j : Nat} (h : j ≠ k) : get? (erase m k) j = get? m j := by
  induction m with
  | nil => rfl
  | cons c m ih =>
    obtain ⟨a, w⟩ := c
    simp only [erase]
    split
    · next heq => subst heq; simp [get?, h.symm]
    · simp [get?, ih]

/-- An index below every listed one is unlisted. -/
theorem get?_eq_none_of_forall_lt (m : Memory α) (k : Nat) (h : ∀ c ∈ m, k < c.1) : get? m k = none := by
  induction m with
  | nil => rfl
  | cons c m ih =>
    obtain ⟨a, w⟩ := c
    have ha : k < a := h (a, w) (by simp)
    simp [get?, Nat.ne_of_gt ha, ih fun c hc => h c (by simp [hc])]

theorem wf_cons {a : Nat} {w : α} {m : Memory α} :
    wf ((a, w) :: m) ↔ (∀ c ∈ m, a < c.1) ∧ wf m := by
  simp only [wf, List.map_cons, List.pairwise_cons, List.mem_map]
  constructor
  · rintro ⟨h, hm⟩
    exact ⟨fun c hc => h _ ⟨c, hc, rfl⟩, hm⟩
  · rintro ⟨h, hm⟩
    exact ⟨by rintro _ ⟨c, hc, rfl⟩; exact h c hc, hm⟩

@[simp] theorem get?_erase_self (m : Memory α) (k : Nat) (h : wf m) : get? (erase m k) k = none := by
  induction m with
  | nil => rfl
  | cons c m ih =>
    obtain ⟨a, w⟩ := c
    obtain ⟨hlt, hm⟩ := wf_cons.1 h
    simp only [erase]
    split
    · next heq => subst heq; exact get?_eq_none_of_forall_lt m a hlt
    · next hne => simp [get?, hne, ih hm]

theorem mem_of_get? {m : Memory α} {k : Nat} {v : α} (h : get? m k = some v) : (k, v) ∈ m := by
  induction m with
  | nil => simp at h
  | cons c m ih =>
    obtain ⟨a, w⟩ := c
    simp only [get?] at h
    split at h
    · next heq => subst heq; simp_all
    · exact List.mem_cons_of_mem _ (ih h)

theorem get?_of_mem {m : Memory α} {k : Nat} {v : α} (hm : wf m) (h : (k, v) ∈ m) : get? m k = some v := by
  induction m with
  | nil => simp at h
  | cons c m ih =>
    obtain ⟨a, w⟩ := c
    obtain ⟨hlt, hm⟩ := wf_cons.1 hm
    rcases List.mem_cons.1 h with h | h
    · cases h; simp [get?]
    · have hak := hlt _ h
      simp [get?, Nat.ne_of_lt hak, ih hm h]

theorem mem_set {m : Memory α} {k : Nat} {v : α} {c : Nat × α} (h : c ∈ set m k v) : c = (k, v) ∨ c ∈ m := by
  induction m with
  | nil => simpa [set] using h
  | cons d m ih =>
    obtain ⟨a, w⟩ := d
    simp only [set] at h
    split at h
    · simpa using h
    · split at h
      · rcases List.mem_cons.1 h with h | h
        · exact .inl h
        · exact .inr (List.mem_cons_of_mem _ h)
      · rcases List.mem_cons.1 h with h | h
        · exact .inr (by simp [h])
        · exact (ih h).imp id (List.mem_cons_of_mem _)

theorem mem_erase {m : Memory α} {k : Nat} {c : Nat × α} (h : c ∈ erase m k) : c ∈ m := by
  induction m with
  | nil => simp [erase] at h
  | cons d m ih =>
    obtain ⟨a, w⟩ := d
    simp only [erase] at h
    split at h
    · exact List.mem_cons_of_mem _ h
    · rcases List.mem_cons.1 h with h | h
      · simp [h]
      · exact List.mem_cons_of_mem _ (ih h)

/-- A write keeps the canonical form. -/
theorem wf_set (m : Memory α) (k : Nat) (v : α) (h : wf m) : wf (set m k v) := by
  induction m with
  | nil => simp [set, wf]
  | cons c m ih =>
    obtain ⟨a, w⟩ := c
    obtain ⟨hlt, hm⟩ := wf_cons.1 h
    simp only [set]
    split
    · next hka =>
      refine wf_cons.2 ⟨fun c hc => ?_, h⟩
      rcases List.mem_cons.1 hc with hc | hc
      · subst hc; exact hka
      · exact Nat.lt_trans hka (hlt c hc)
    · split
      · next heq => subst heq; exact wf_cons.2 ⟨hlt, hm⟩
      · next hka hne =>
        refine wf_cons.2 ⟨fun c hc => ?_, ih hm⟩
        rcases mem_set hc with hc | hc
        · subst hc; show a < k; omega
        · exact hlt c hc

/-- An erasure keeps the canonical form. -/
theorem wf_erase (m : Memory α) (k : Nat) (h : wf m) : wf (erase m k) := by
  induction m with
  | nil => exact h
  | cons c m ih =>
    obtain ⟨a, w⟩ := c
    obtain ⟨hlt, hm⟩ := wf_cons.1 h
    simp only [erase]
    split
    · exact hm
    · exact wf_cons.2 ⟨fun c hc => hlt c (mem_erase hc), ih hm⟩

theorem below_set {cap : Nat} {m : Memory α} {k : Nat} (v : α) (h : below cap m) (hk : k < cap) :
    below cap (set m k v) := by
  intro c hc
  rcases mem_set hc with hc | hc
  · subst hc; exact hk
  · exact h c hc

theorem below_erase {cap : Nat} {m : Memory α} (k : Nat) (h : below cap m) : below cap (erase m k) :=
  fun c hc => h c (mem_erase hc)

/-- A range write keeps the canonical form. -/
theorem wf_writeRange (m : Memory α) (i : Nat) (vs : List α) (h : wf m) : wf (writeRange m i vs) := by
  induction vs generalizing m i with
  | nil => exact h
  | cons v vs ih => exact ih _ _ (wf_set m i v h)

theorem below_writeRange {cap : Nat} {m : Memory α} (i : Nat) (vs : List α) (h : below cap m)
    (hfit : i + vs.length ≤ cap) : below cap (writeRange m i vs) := by
  induction vs generalizing m i with
  | nil => exact h
  | cons v vs ih =>
    simp only [List.length_cons] at hfit
    exact ih (i + 1) (below_set v h (by omega)) (by omega)

/-- What a range write leaves at an index: the value written there, or what was there before. -/
theorem get?_writeRange (m : Memory α) (i : Nat) (vs : List α) (j : Nat) :
    get? (writeRange m i vs) j = if h : i ≤ j ∧ j < i + vs.length then some (vs[j - i]'(by omega)) else get? m j := by
  induction vs generalizing m i with
  | nil =>
    have : ¬ (i ≤ j ∧ j < i) := by omega
    simp [writeRange, this]
  | cons v vs ih =>
    simp only [writeRange, ih, get?_set, List.length_cons]
    by_cases hji : j = i
    · subst hji
      simp
    · by_cases hr : i + 1 ≤ j ∧ j < i + 1 + vs.length
      · have h2 : i ≤ j ∧ j < i + (vs.length + 1) := by omega
        obtain ⟨d, rfl⟩ : ∃ d, j = i + 1 + d := ⟨j - (i + 1), by omega⟩
        have h3 : i + 1 + d - i = d + 1 := by omega
        have h4 : i + 1 + d - (i + 1) = d := by omega
        simp only [dif_pos hr, dif_pos h2]
        simp [h3, h4]
      · have h2 : ¬ (i ≤ j ∧ j < i + (vs.length + 1)) := by omega
        rw [dif_neg hr, dif_neg h2, if_neg hji]

/-- A range read gives the cells in order, and fails exactly where one of them is unlisted. -/
theorem readRange_eq_some {m : Memory α} {i n : Nat} {vs : List α} :
    readRange m i n = some vs ↔ vs.length = n ∧ ∀ k, (h : k < vs.length) → get? m (i + k) = some vs[k] := by
  induction n generalizing i vs with
  | zero =>
    simp only [readRange, Option.some.injEq]
    constructor
    · rintro rfl; simp
    · rintro ⟨h, -⟩; exact (List.length_eq_zero_iff.1 h).symm
  | succ n ih =>
    simp only [readRange]
    constructor
    · intro h
      split at h
      · next v ws hv hws =>
        cases h
        obtain ⟨hlen, hget⟩ := ih.1 hws
        refine ⟨by simp [hlen], fun k hk => ?_⟩
        cases k with
        | zero => simpa using hv
        | succ k =>
          have := hget k (by simpa using hk)
          rw [show i + (k + 1) = i + 1 + k by omega]
          simpa using this
      · cases h
    · rintro ⟨hlen, hget⟩
      cases vs with
      | nil => simp at hlen
      | cons v ws =>
        have hv : get? m i = some v := hget 0 (by simp)
        have hws : readRange m (i + 1) n = some ws := by
          refine ih.2 ⟨by simpa using hlen, fun k hk => ?_⟩
          have := hget (k + 1) (by simpa using hk)
          rw [show i + 1 + k = i + (k + 1) by omega]
          simpa using this
        simp [hv, hws]

end Sys2Proof.Machine.Memory
end

