-- ==== Sys2Proof/Laws/State.lean ====
section
/-! SUPPORT. One lemma per field per update of the state, so that no later proof unfolds a record update. -/

namespace Sys2Proof.Machine

/-! ## The position of the command in flight -/

@[simp] theorem State.goto_cfg (s : State) (p : Pos) : (s.goto p).cfg = s.cfg := rfl
@[simp] theorem State.goto_rawbuf (s : State) (p : Pos) : (s.goto p).rawbuf = s.rawbuf := rfl
@[simp] theorem State.goto_outbuf (s : State) (p : Pos) : (s.goto p).outbuf = s.outbuf := rfl
@[simp] theorem State.goto_lockOwner (s : State) (p : Pos) : (s.goto p).lockOwner = s.lockOwner := rfl
@[simp] theorem State.goto_pc (s : State) (p : Pos) : (s.goto p).pc = s.pc.moveTo p := rfl
@[simp] theorem State.goto_req (s : State) (p : Pos) : (s.goto p).req = s.req := rfl
@[simp] theorem State.goto_resp (s : State) (p : Pos) : (s.goto p).resp = s.resp := rfl
@[simp] theorem State.goto_trace (s : State) (p : Pos) : (s.goto p).trace = s.trace := rfl
@[simp] theorem State.goto_params (s : State) (p : Pos) : (s.goto p).params = s.params := rfl
@[simp] theorem State.goto_schedule (s : State) (p : Pos) : (s.goto p).schedule = s.schedule := rfl
@[simp] theorem State.goto_chip (s : State) (p : Pos) : (s.goto p).chip = s.chip := rfl
@[simp] theorem State.goto_tick (s : State) (p : Pos) : (s.goto p).tick = s.tick := rfl

@[simp] theorem Phase.moveTo_idle (p : Pos) : Phase.idle.moveTo p = .idle := rfl
@[simp] theorem Phase.moveTo_exec (p p' : Pos) (r : Nat) (q : Request) : (Phase.exec r q p).moveTo p' = .exec r q p' := rfl
@[simp] theorem Phase.moveTo_moveTo (p p' : Pos) (ph : Phase) : (ph.moveTo p).moveTo p' = ph.moveTo p' := by
  cases ph <;> rfl
@[simp] theorem Phase.requester?_moveTo (p : Pos) (ph : Phase) : (ph.moveTo p).requester? = ph.requester? := by
  cases ph <;> rfl
@[simp] theorem Phase.requester?_idle : Phase.idle.requester? = none := rfl
@[simp] theorem Phase.requester?_exec (r : Nat) (q : Request) (p : Pos) : (Phase.exec r q p).requester? = some r := rfl

/-! ## A transaction -/

@[simp] theorem State.record_cfg (s : State) (op : SpiOp) : (s.record op).cfg = s.cfg := rfl
@[simp] theorem State.record_rawbuf (s : State) (op : SpiOp) : (s.record op).rawbuf = s.rawbuf := rfl
@[simp] theorem State.record_outbuf (s : State) (op : SpiOp) : (s.record op).outbuf = s.outbuf := rfl
@[simp] theorem State.record_lockOwner (s : State) (op : SpiOp) : (s.record op).lockOwner = s.lockOwner := rfl
@[simp] theorem State.record_pc (s : State) (op : SpiOp) : (s.record op).pc = s.pc := rfl
@[simp] theorem State.record_req (s : State) (op : SpiOp) : (s.record op).req = s.req := rfl
@[simp] theorem State.record_resp (s : State) (op : SpiOp) : (s.record op).resp = s.resp := rfl
@[simp] theorem State.record_trace (s : State) (op : SpiOp) : (s.record op).trace = s.trace ++ [⟨op, s.answer op⟩] := rfl
@[simp] theorem State.record_params (s : State) (op : SpiOp) : (s.record op).params = s.params := rfl
@[simp] theorem State.record_schedule (s : State) (op : SpiOp) : (s.record op).schedule = s.schedule := rfl
@[simp] theorem State.record_chip (s : State) (op : SpiOp) : (s.record op).chip = s.chip.tail := rfl
@[simp] theorem State.record_tick (s : State) (op : SpiOp) : (s.record op).tick = s.tick + 1 := rfl

/-! ## A configuration register -/

@[simp] theorem State.writeCfg_cfg (s : State) (reg : CfgReg) (v : Word) : (s.writeCfg reg v).cfg = s.cfg.write reg v := rfl
@[simp] theorem State.writeCfg_rawbuf (s : State) (reg : CfgReg) (v : Word) : (s.writeCfg reg v).rawbuf = s.rawbuf := rfl
@[simp] theorem State.writeCfg_outbuf (s : State) (reg : CfgReg) (v : Word) : (s.writeCfg reg v).outbuf = s.outbuf := rfl
@[simp] theorem State.writeCfg_lockOwner (s : State) (reg : CfgReg) (v : Word) : (s.writeCfg reg v).lockOwner = s.lockOwner := rfl
@[simp] theorem State.writeCfg_pc (s : State) (reg : CfgReg) (v : Word) : (s.writeCfg reg v).pc = s.pc := rfl
@[simp] theorem State.writeCfg_req (s : State) (reg : CfgReg) (v : Word) : (s.writeCfg reg v).req = s.req := rfl
@[simp] theorem State.writeCfg_resp (s : State) (reg : CfgReg) (v : Word) : (s.writeCfg reg v).resp = s.resp := rfl
@[simp] theorem State.writeCfg_trace (s : State) (reg : CfgReg) (v : Word) : (s.writeCfg reg v).trace = s.trace := rfl
@[simp] theorem State.writeCfg_params (s : State) (reg : CfgReg) (v : Word) : (s.writeCfg reg v).params = s.params := rfl
@[simp] theorem State.writeCfg_schedule (s : State) (reg : CfgReg) (v : Word) : (s.writeCfg reg v).schedule = s.schedule := rfl
@[simp] theorem State.writeCfg_chip (s : State) (reg : CfgReg) (v : Word) : (s.writeCfg reg v).chip = s.chip := rfl
@[simp] theorem State.writeCfg_tick (s : State) (reg : CfgReg) (v : Word) : (s.writeCfg reg v).tick = s.tick := rfl

/-! ## The commit of a frame -/

@[simp] theorem State.commitFrame_cfg (s : State) (fc : Word) (bs : List Byte) : (s.commitFrame fc bs).cfg = s.cfg.write .frameCounter fc := rfl
@[simp] theorem State.commitFrame_rawbuf (s : State) (fc : Word) (bs : List Byte) : (s.commitFrame fc bs).rawbuf = Memory.writeRange s.rawbuf 0 bs := rfl
@[simp] theorem State.commitFrame_outbuf (s : State) (fc : Word) (bs : List Byte) : (s.commitFrame fc bs).outbuf = s.outbuf := rfl
@[simp] theorem State.commitFrame_lockOwner (s : State) (fc : Word) (bs : List Byte) : (s.commitFrame fc bs).lockOwner = s.lockOwner := rfl
@[simp] theorem State.commitFrame_pc (s : State) (fc : Word) (bs : List Byte) : (s.commitFrame fc bs).pc = s.pc := rfl
@[simp] theorem State.commitFrame_req (s : State) (fc : Word) (bs : List Byte) : (s.commitFrame fc bs).req = s.req := rfl
@[simp] theorem State.commitFrame_resp (s : State) (fc : Word) (bs : List Byte) : (s.commitFrame fc bs).resp = s.resp := rfl
@[simp] theorem State.commitFrame_trace (s : State) (fc : Word) (bs : List Byte) : (s.commitFrame fc bs).trace = s.trace := rfl
@[simp] theorem State.commitFrame_params (s : State) (fc : Word) (bs : List Byte) : (s.commitFrame fc bs).params = s.params := rfl
@[simp] theorem State.commitFrame_schedule (s : State) (fc : Word) (bs : List Byte) : (s.commitFrame fc bs).schedule = s.schedule := rfl
@[simp] theorem State.commitFrame_chip (s : State) (fc : Word) (bs : List Byte) : (s.commitFrame fc bs).chip = s.chip := rfl
@[simp] theorem State.commitFrame_tick (s : State) (fc : Word) (bs : List Byte) : (s.commitFrame fc bs).tick = s.tick := rfl

/-! ## The end of an unpack -/

@[simp] theorem State.commitUnpack_cfg (s : State) (vals out : List Word) : (s.commitUnpack vals out).cfg = (s.cfg.write .zeroFrameCtr (zeroTrack s.params.zeroFrameCap s.cfg.zeroFrameCtr vals)).write .outCount
    (BitVec.ofNat 32 out.length) := rfl
@[simp] theorem State.commitUnpack_rawbuf (s : State) (vals out : List Word) : (s.commitUnpack vals out).rawbuf = s.rawbuf := rfl
@[simp] theorem State.commitUnpack_outbuf (s : State) (vals out : List Word) : (s.commitUnpack vals out).outbuf = Memory.writeRange s.outbuf 0 out := rfl
@[simp] theorem State.commitUnpack_lockOwner (s : State) (vals out : List Word) : (s.commitUnpack vals out).lockOwner = s.lockOwner := rfl
@[simp] theorem State.commitUnpack_pc (s : State) (vals out : List Word) : (s.commitUnpack vals out).pc = s.pc := rfl
@[simp] theorem State.commitUnpack_req (s : State) (vals out : List Word) : (s.commitUnpack vals out).req = s.req := rfl
@[simp] theorem State.commitUnpack_resp (s : State) (vals out : List Word) : (s.commitUnpack vals out).resp = s.resp := rfl
@[simp] theorem State.commitUnpack_trace (s : State) (vals out : List Word) : (s.commitUnpack vals out).trace = s.trace := rfl
@[simp] theorem State.commitUnpack_params (s : State) (vals out : List Word) : (s.commitUnpack vals out).params = s.params := rfl
@[simp] theorem State.commitUnpack_schedule (s : State) (vals out : List Word) : (s.commitUnpack vals out).schedule = s.schedule := rfl
@[simp] theorem State.commitUnpack_chip (s : State) (vals out : List Word) : (s.commitUnpack vals out).chip = s.chip := rfl
@[simp] theorem State.commitUnpack_tick (s : State) (vals out : List Word) : (s.commitUnpack vals out).tick = s.tick + 1 := rfl

/-! ## A reset -/

@[simp] theorem resetMachine_cfg (s : State) : (resetMachine s).cfg = CfgRegs.reset := rfl
@[simp] theorem resetMachine_rawbuf (s : State) : (resetMachine s).rawbuf = [] := rfl
@[simp] theorem resetMachine_outbuf (s : State) : (resetMachine s).outbuf = [] := rfl
@[simp] theorem resetMachine_lockOwner (s : State) : (resetMachine s).lockOwner = none := rfl
@[simp] theorem resetMachine_pc (s : State) : (resetMachine s).pc = .idle := rfl
@[simp] theorem resetMachine_req (s : State) : (resetMachine s).req = [] := rfl
@[simp] theorem resetMachine_resp (s : State) : (resetMachine s).resp = [] := rfl
@[simp] theorem resetMachine_trace (s : State) : (resetMachine s).trace = [] := rfl
@[simp] theorem resetMachine_params (s : State) : (resetMachine s).params = s.params := rfl
@[simp] theorem resetMachine_schedule (s : State) : (resetMachine s).schedule = s.schedule := rfl
@[simp] theorem resetMachine_chip (s : State) : (resetMachine s).chip = s.chip := rfl
@[simp] theorem resetMachine_tick (s : State) : (resetMachine s).tick = s.tick := rfl

/-! ## A request placed in flight -/

@[simp] theorem State.withRequestInFlight_cfg (s : State) (q : Request) : (s.withRequestInFlight q).cfg = s.cfg := rfl
@[simp] theorem State.withRequestInFlight_rawbuf (s : State) (q : Request) : (s.withRequestInFlight q).rawbuf = s.rawbuf := rfl
@[simp] theorem State.withRequestInFlight_outbuf (s : State) (q : Request) : (s.withRequestInFlight q).outbuf = s.outbuf := rfl
@[simp] theorem State.withRequestInFlight_lockOwner (s : State) (q : Request) : (s.withRequestInFlight q).lockOwner = some 0 := rfl
@[simp] theorem State.withRequestInFlight_pc (s : State) (q : Request) : (s.withRequestInFlight q).pc = .exec 0 q .start := rfl
@[simp] theorem State.withRequestInFlight_req (s : State) (q : Request) : (s.withRequestInFlight q).req = Memory.set s.req 0 q := rfl
@[simp] theorem State.withRequestInFlight_resp (s : State) (q : Request) : (s.withRequestInFlight q).resp = Memory.erase s.resp 0 := rfl
@[simp] theorem State.withRequestInFlight_trace (s : State) (q : Request) : (s.withRequestInFlight q).trace = s.trace := rfl
@[simp] theorem State.withRequestInFlight_params (s : State) (q : Request) : (s.withRequestInFlight q).params = s.params := rfl
@[simp] theorem State.withRequestInFlight_schedule (s : State) (q : Request) : (s.withRequestInFlight q).schedule = .x4mbu :: s.schedule := rfl
@[simp] theorem State.withRequestInFlight_chip (s : State) (q : Request) : (s.withRequestInFlight q).chip = s.chip := rfl
@[simp] theorem State.withRequestInFlight_tick (s : State) (q : Request) : (s.withRequestInFlight q).tick = s.tick := rfl

/-! ## The ending of a command -/

@[simp] theorem State.endCommand_cfg (s : State) (st : Status) (v : Word) : (s.endCommand st v).cfg = s.cfg := by
  unfold State.endCommand; split <;> rfl
@[simp] theorem State.endCommand_rawbuf (s : State) (st : Status) (v : Word) : (s.endCommand st v).rawbuf = s.rawbuf := by
  unfold State.endCommand; split <;> rfl
@[simp] theorem State.endCommand_outbuf (s : State) (st : Status) (v : Word) : (s.endCommand st v).outbuf = s.outbuf := by
  unfold State.endCommand; split <;> rfl
@[simp] theorem State.endCommand_trace (s : State) (st : Status) (v : Word) : (s.endCommand st v).trace = s.trace := by
  unfold State.endCommand; split <;> rfl
@[simp] theorem State.endCommand_params (s : State) (st : Status) (v : Word) : (s.endCommand st v).params = s.params := by
  unfold State.endCommand; split <;> rfl
@[simp] theorem State.endCommand_schedule (s : State) (st : Status) (v : Word) : (s.endCommand st v).schedule = s.schedule := by
  unfold State.endCommand; split <;> rfl
@[simp] theorem State.endCommand_chip (s : State) (st : Status) (v : Word) : (s.endCommand st v).chip = s.chip := by
  unfold State.endCommand; split <;> rfl
@[simp] theorem State.endCommand_tick (s : State) (st : Status) (v : Word) : (s.endCommand st v).tick = s.tick := by
  unfold State.endCommand; split <;> rfl
@[simp] theorem State.endCommand_pc (s : State) (st : Status) (v : Word) : (s.endCommand st v).pc = .idle := by
  unfold State.endCommand; split
  · assumption
  · rfl

@[simp] theorem State.ret_cfg (s : State) (v : Word) : (s.ret v).cfg = s.cfg := State.endCommand_cfg ..
@[simp] theorem State.ret_rawbuf (s : State) (v : Word) : (s.ret v).rawbuf = s.rawbuf := State.endCommand_rawbuf ..
@[simp] theorem State.ret_outbuf (s : State) (v : Word) : (s.ret v).outbuf = s.outbuf := State.endCommand_outbuf ..
@[simp] theorem State.ret_trace (s : State) (v : Word) : (s.ret v).trace = s.trace := State.endCommand_trace ..
@[simp] theorem State.ret_params (s : State) (v : Word) : (s.ret v).params = s.params := State.endCommand_params ..
@[simp] theorem State.ret_schedule (s : State) (v : Word) : (s.ret v).schedule = s.schedule := State.endCommand_schedule ..
@[simp] theorem State.ret_chip (s : State) (v : Word) : (s.ret v).chip = s.chip := State.endCommand_chip ..
@[simp] theorem State.ret_tick (s : State) (v : Word) : (s.ret v).tick = s.tick := State.endCommand_tick ..
@[simp] theorem State.ret_pc (s : State) (v : Word) : (s.ret v).pc = .idle := State.endCommand_pc ..

@[simp] theorem State.raise_cfg (s : State) (st : Status) : (s.raise st).cfg = s.cfg := State.endCommand_cfg ..
@[simp] theorem State.raise_rawbuf (s : State) (st : Status) : (s.raise st).rawbuf = s.rawbuf := State.endCommand_rawbuf ..
@[simp] theorem State.raise_outbuf (s : State) (st : Status) : (s.raise st).outbuf = s.outbuf := State.endCommand_outbuf ..
@[simp] theorem State.raise_trace (s : State) (st : Status) : (s.raise st).trace = s.trace := State.endCommand_trace ..
@[simp] theorem State.raise_params (s : State) (st : Status) : (s.raise st).params = s.params := State.endCommand_params ..
@[simp] theorem State.raise_schedule (s : State) (st : Status) : (s.raise st).schedule = s.schedule := State.endCommand_schedule ..
@[simp] theorem State.raise_chip (s : State) (st : Status) : (s.raise st).chip = s.chip := State.endCommand_chip ..
@[simp] theorem State.raise_tick (s : State) (st : Status) : (s.raise st).tick = s.tick := State.endCommand_tick ..
@[simp] theorem State.raise_pc (s : State) (st : Status) : (s.raise st).pc = .idle := State.endCommand_pc ..

/-- The whole ending (R106), for the command of requester `r`. -/
theorem State.endCommand_of_exec {s : State} {r : Nat} {q : Request} {p : Pos} (h : s.pc = .exec r q p) (st : Status)
    (v : Word) :
    s.endCommand st v =
      { s with
        resp := Memory.set s.resp r ⟨st, v⟩, req := Memory.erase s.req r, lockOwner := none, pc := .idle } := by
  unfold State.endCommand; rw [h]

theorem State.ret_of_exec {s : State} {r : Nat} {q : Request} {p : Pos} (h : s.pc = .exec r q p) (v : Word) :
    s.ret v =
      { s with
        resp := Memory.set s.resp r ⟨.ok, v⟩, req := Memory.erase s.req r, lockOwner := none, pc := .idle } :=
  State.endCommand_of_exec h .ok v

theorem State.raise_of_exec {s : State} {r : Nat} {q : Request} {p : Pos} (h : s.pc = .exec r q p) (st : Status) :
    s.raise st =
      { s with
        resp := Memory.set s.resp r ⟨st, 0⟩, req := Memory.erase s.req r, lockOwner := none, pc := .idle } :=
  State.endCommand_of_exec h st 0

theorem State.goto_of_exec {s : State} {r : Nat} {q : Request} {p : Pos} (h : s.pc = .exec r q p) (p' : Pos) :
    s.goto p' = { s with pc := .exec r q p' } := by
  unfold State.goto; rw [h]; rfl

/-! ## Configuration registers -/

/-- A write leaves every other register alone. -/
theorem CfgRegs.read_write_of_ne (c : CfgRegs) {reg other : CfgReg} (v : Word) (h : other ≠ reg) :
    (c.write reg v).read other = c.read other := by
  cases reg <;> cases other <;> first | rfl | exact absurd rfl h

/-! ## The parameters after reset -/

/-- The parameters of the machine that comes out of reset are a legal choice (R7, log 3). -/
theorem params_legal : Config.params.legal = true := by
  unfold Config.params
  rcases Bool.eq_false_or_eq_true Config.rangedParams.legal with h | h
  · simp only [h, if_true]
  · have hraw : Config.openParams.rawCap % 65536 < 65536 := Nat.mod_lt _ (by decide)
    have hout : Config.openParams.outCap % 65536 < 65536 := Nat.mod_lt _ (by decide)
    simp only [h, Bool.false_eq_true, if_false]
    simp [Params.legal, Config.rangedParams, Config.kindSwreg, Config.kindSwaction]
    omega

end Sys2Proof.Machine
end

