-- ==== Sys2Proof/Laws/Ops.lean ====
section
/-! SUPPORT. What each shared operation over the SPI port and the command in flight can do, said once. -/

namespace Sys2Proof.Machine

/-! ## Execution under the lock -/

@[simp] theorem underLock_of_exec {s : State} {r : Nat} {q : Request} {p : Pos} (h : s.pc = .exec r q p)
    (k : Pos → Outcome) : underLock s k = k p := by
  unfold underLock; rw [h]

@[simp] theorem underLock_of_idle {s : State} (h : s.pc = .idle) (k : Pos → Outcome) : underLock s k = .next s := by
  unfold underLock; rw [h]

/-! ## Transactions -/

@[simp] theorem fitBytes_length (tick n : Nat) (bytes : List Byte) : (fitBytes tick n bytes).length = n := by
  simp [fitBytes]

/-- A listed answer of the right length is taken as it is. -/
theorem fitBytes_of_length {tick n : Nat} {bytes : List Byte} (h : bytes.length = n) :
    fitBytes tick n bytes = bytes := by
  apply List.ext_getElem (by simp [h])
  intro k h1 h2
  simp [fitBytes, h2]

@[simp] theorem fitBytes_zero (tick : Nat) (bytes : List Byte) : fitBytes tick 0 bytes = [] := rfl

theorem answer_of_ok {s : State} {op : SpiOp} {bytes : List Byte} {rest : List SpiResult}
    (h : s.chip = .ok bytes :: rest) : s.answer op = .ok (fitBytes s.tick op.count bytes) := by
  unfold State.answer; rw [h]

theorem answer_of_err {s : State} {op : SpiOp} {rest : List SpiResult} (h : s.chip = .err :: rest) :
    s.answer op = .err := by
  unfold State.answer; rw [h]

/-- An answer has exactly the bytes the transaction reads (R13). -/
theorem answer_length {s : State} {op : SpiOp} {bytes : List Byte} (h : s.answer op = .ok bytes) :
    bytes.length = op.count := by
  unfold State.answer at h
  split at h
  · cases h; simp
  · cases h
  · split at h
    · cases h
    · cases h; simp

/-- One transaction ends the command with HwError, or goes on with exactly the bytes it reads. -/
theorem transact_cases (s : State) (op : SpiOp) (k : List Byte → State → State) :
    (s.answer op = .err ∧ transact s op k = (s.record op).raise .hwError) ∨
    ∃ bytes, s.answer op = .ok bytes ∧ bytes.length = op.count ∧ transact s op k = k bytes (s.record op) := by
  unfold transact
  cases h : s.answer op with
  | err => exact .inl ⟨rfl, rfl⟩
  | ok bytes => exact .inr ⟨bytes, rfl, answer_length h, rfl⟩

theorem transact_of_ok {s : State} {op : SpiOp} {bytes : List Byte} {rest : List SpiResult}
    (h : s.chip = .ok bytes :: rest) (k : List Byte → State → State) :
    transact s op k = k (fitBytes s.tick op.count bytes) (s.record op) := by
  unfold transact; rw [answer_of_ok h]

theorem transact_of_err {s : State} {op : SpiOp} {rest : List SpiResult} (h : s.chip = .err :: rest)
    (k : List Byte → State → State) : transact s op k = (s.record op).raise .hwError := by
  unfold transact; rw [answer_of_err h]

/-- A transaction's entry in T fits (R13). -/
theorem record_trace_fits {s : State} {op : SpiOp} (h : ∀ e ∈ s.trace, e.fits = true) :
    ∀ e ∈ (s.record op).trace, e.fits = true := by
  intro e he
  rcases List.mem_append.1 (State.record_trace s op ▸ he) with he | he
  · exact h e he
  · obtain rfl := List.mem_singleton.1 he
    unfold TraceEntry.fits
    cases ha : s.answer op with
    | err => rfl
    | ok bytes => simpa using answer_length ha

/-! ## Transactions whose answer is known -/

theorem record_of_answer {s : State} {op : SpiOp} {res : SpiResult} (h : s.answer op = res) :
    s.record op = s.after op res := by
  subst h; rfl

theorem transact_ok {s : State} {op : SpiOp} {bytes : List Byte} (h : s.answer op = .ok bytes)
    (k : List Byte → State → State) : transact s op k = k bytes (s.after op (.ok bytes)) := by
  unfold transact; rw [h]; exact congrArg (k bytes) (record_of_answer h)

theorem transact_err {s : State} {op : SpiOp} (h : s.answer op = .err) (k : List Byte → State → State) :
    transact s op k = (s.after op .err).raise .hwError := by
  unfold transact; rw [h]; exact congrArg (State.raise · .hwError) (record_of_answer h)

/-- A write's answer has no bytes (R13). -/
theorem answer_write_ok {s : State} {bs bytes : List Byte} (h : s.answer (.write bs) = .ok bytes) :
    s.answer (.write bs) = .ok [] := by
  have := answer_length h
  rw [h, List.length_eq_zero_iff.1 this]

theorem directSend_ok {s : State} {a : Byte} {bytes : List Byte} (h : s.answer (.write [a]) = .ok bytes)
    (k : State → State) : directSend s a k = k (s.after (.write [a]) (.ok [])) := transact_ok (answer_write_ok h) _

theorem directSend_err {s : State} {a : Byte} (h : s.answer (.write [a]) = .err) (k : State → State) :
    directSend s a k = (s.after (.write [a]) .err).raise .hwError := transact_err h _

theorem directWrite_ok {s : State} {a v : Byte} {bytes : List Byte}
    (h : s.answer (.write [a ||| s.params.writeBit, v]) = .ok bytes) (k : State → State) :
    directWrite s a v k = k (s.after (.write [a ||| s.params.writeBit, v]) (.ok [])) :=
  transact_ok (answer_write_ok h) _

theorem directWrite_err {s : State} {a v : Byte} (h : s.answer (.write [a ||| s.params.writeBit, v]) = .err)
    (k : State → State) :
    directWrite s a v k = (s.after (.write [a ||| s.params.writeBit, v]) .err).raise .hwError := transact_err h _

theorem directRecv_ok {s : State} {b : Byte} (h : s.answer (.read 1) = .ok [b]) (k : Byte → State → State) :
    directRecv s k = k b (s.after (.read 1) (.ok [b])) := transact_ok h _

theorem directRecv_err {s : State} (h : s.answer (.read 1) = .err) (k : Byte → State → State) :
    directRecv s k = (s.after (.read 1) .err).raise .hwError := transact_err h _

/-! ## The command in flight after a transaction, and its ending -/

@[simp] theorem State.after_pc (s : State) (op : SpiOp) (res : SpiResult) : (s.after op res).pc = s.pc := rfl
@[simp] theorem State.after_cfg (s : State) (op : SpiOp) (res : SpiResult) : (s.after op res).cfg = s.cfg := rfl
@[simp] theorem State.after_params (s : State) (op : SpiOp) (res : SpiResult) : (s.after op res).params = s.params := rfl

theorem State.ret_eq_ended {s : State} {r : Nat} {q : Request} {p : Pos} (h : s.pc = .exec r q p) (v : Word) :
    s.ret v = s.ended r .ok v := State.ret_of_exec h v

theorem State.raise_eq_ended {s : State} {r : Nat} {q : Request} {p : Pos} (h : s.pc = .exec r q p) (st : Status) :
    s.raise st = s.ended r st 0 := State.raise_of_exec h st

theorem State.goto_eq_at {s : State} {r : Nat} {q : Request} {p : Pos} (h : s.pc = .exec r q p) (p' : Pos) :
    s.goto p' = s.at r q p' := State.goto_of_exec h p'

/-- A failed transaction of the command in flight ends it with HwError, whatever was to follow (R120, R122, R153). -/
theorem transact_err_ended {s : State} {r : Nat} {q : Request} {p : Pos} {op : SpiOp} (hpc : s.pc = .exec r q p)
    (h : s.answer op = .err) (k : List Byte → State → State) :
    transact s op k = (s.after op .err).ended r .hwError 0 := by
  rw [transact_err h, State.raise_eq_ended ((State.after_pc s op .err).trans hpc)]

/-! ## Direct-bus primitives -/

theorem directSend_cases (s : State) (a : Byte) (k : State → State) :
    directSend s a k = (s.record (.write [a])).raise .hwError ∨ directSend s a k = k (s.record (.write [a])) := by
  rcases transact_cases s (.write [a]) (fun _ => k) with ⟨-, h⟩ | ⟨_, -, -, h⟩
  · exact .inl h
  · exact .inr h

theorem directWrite_cases (s : State) (a v : Byte) (k : State → State) :
    directWrite s a v k = (s.record (.write [a ||| s.params.writeBit, v])).raise .hwError ∨
      directWrite s a v k = k (s.record (.write [a ||| s.params.writeBit, v])) := by
  rcases transact_cases s (.write [a ||| s.params.writeBit, v]) (fun _ => k) with ⟨-, h⟩ | ⟨_, -, -, h⟩
  · exact .inl h
  · exact .inr h

theorem directRecv_cases (s : State) (k : Byte → State → State) :
    directRecv s k = (s.record (.read 1)).raise .hwError ∨
      ∃ b, s.answer (.read 1) = .ok [b] ∧ directRecv s k = k b (s.record (.read 1)) := by
  rcases transact_cases s (.read 1) (fun bytes => k (firstByte bytes)) with ⟨-, h⟩ | ⟨bytes, ha, hl, h⟩
  · exact .inl h
  · obtain ⟨b, rfl⟩ := List.length_eq_one_iff.1 hl
    exact .inr ⟨b, ha, h⟩

theorem directSend_of_ok {s : State} {bytes : List Byte} {rest : List SpiResult} (h : s.chip = .ok bytes :: rest)
    (a : Byte) (k : State → State) : directSend s a k = k (s.record (.write [a])) := transact_of_ok h _

theorem directWrite_of_ok {s : State} {bytes : List Byte} {rest : List SpiResult} (h : s.chip = .ok bytes :: rest)
    (a v : Byte) (k : State → State) :
    directWrite s a v k = k (s.record (.write [a ||| s.params.writeBit, v])) := transact_of_ok h _

theorem directRecv_of_ok {s : State} {b : Byte} {rest : List SpiResult} (h : s.chip = .ok [b] :: rest)
    (k : Byte → State → State) : directRecv s k = k b (s.record (.read 1)) := by
  unfold directRecv
  rw [transact_of_ok h, show fitBytes s.tick (SpiOp.read 1).count [b] = [b] from fitBytes_of_length rfl]
  rfl

end Sys2Proof.Machine
end

