-- ==== Sys2Proof/Laws/Mailbox.lean ====
section
/-! SUPPORT. What one transaction of a mailbox access can do (spec/42_mailbox.md): the one inversion lemma that later proofs
cite instead of unfolding the FSM. -/

namespace Sys2Proof.Machine

/-- A position that follows another inside an access keeps the counters in range and is nearer the end. -/
structure MailboxPos.Follows (p : Params) (queued : Nat) (reads : Bool) (reply : Nat) (m m' : MailboxPos) : Prop where
  inRange : m.inRange p queued reads = true → m'.inRange p queued reads = true
  bound : m.inRange p queued reads = true → m'.bound p queued reply < m.bound p queued reply

/-- One transaction of a mailbox access: HwError, PifTimeout, a later position of the access, or (from a successful poll or
from the reply byte) what the command does then. -/
theorem mailboxStep_cases (bytes : List Byte) (hne : bytes ≠ []) (ready : Params → Byte → Bool)
    (onReady : Nat → State → State) (onReply : Byte → State → State) (place : MailboxPos → Pos) (m : MailboxPos)
    (s : State) (reads : Bool) (reply : Nat) :
    ∃ op, mailboxStep bytes ready onReady onReply place m s = (s.record op).raise .hwError ∨
      mailboxStep bytes ready onReady onReply place m s = (s.record op).raise .pifTimeout ∨
      (∃ m', mailboxStep bytes ready onReady onReply place m s = (s.record op).goto (place m') ∧
        m.Follows s.params bytes.length reads reply m') ∨
      (∃ n, m = .pollRecv n ∧ mailboxStep bytes ready onReady onReply place m s = onReady n (s.record op)) ∨
      (∃ n b, m = .replyRecv n ∧ mailboxStep bytes ready onReady onReply place m s = onReply b (s.record op)) := by
  have hpos : 0 < bytes.length := List.length_pos_iff.2 hne
  cases m with
  | drainStatusSend d =>
    refine ⟨.write [s.params.mbxStatusAddr], ?_⟩
    simp only [mailboxStep]
    rcases directSend_cases s s.params.mbxStatusAddr fun t => t.goto (place (.drainStatusRecv d)) with h | h
    · exact .inl h
    · exact .inr (.inr (.inl ⟨_, h, id, fun _ => by simp [MailboxPos.bound]⟩))
  | drainStatusRecv d =>
    refine ⟨.read 1, ?_⟩
    simp only [mailboxStep]
    rcases directRecv_cases s (fun status t =>
      if fromCpuValid t.params status then t.goto (place (.drainDataSend d)) else t.goto (place (.queue 0))) with
      h | ⟨b, -, h⟩
    · exact .inl h
    · rw [h]
      split
      · exact .inr (.inr (.inl ⟨_, rfl, id, fun _ => by simp [MailboxPos.bound]⟩))
      · exact .inr (.inr (.inl ⟨_, rfl, fun _ => by simpa [MailboxPos.inRange] using hpos,
          fun _ => by simp only [MailboxPos.bound]; omega⟩))
  | drainDataSend d =>
    refine ⟨.write [s.params.mbxFromCpuAddr], ?_⟩
    simp only [mailboxStep]
    rcases directSend_cases s s.params.mbxFromCpuAddr fun t => t.goto (place (.drainDataRecv d)) with h | h
    · exact .inl h
    · exact .inr (.inr (.inl ⟨_, h, id, fun _ => by simp [MailboxPos.bound]⟩))
  | drainDataRecv d =>
    refine ⟨.read 1, ?_⟩
    simp only [mailboxStep]
    rcases directRecv_cases s (fun _ t =>
      if d < t.params.drainMax then t.goto (place (.drainStatusSend (d + 1))) else t.raise .pifTimeout) with
      h | ⟨b, -, h⟩
    · exact .inl h
    · rw [h]
      split
      · next hd =>
        have hd' : d < s.params.drainMax := hd
        refine .inr (.inr (.inl ⟨_, rfl, fun hr => ?_, fun _ => by simp only [MailboxPos.bound]; omega⟩))
        simp only [MailboxPos.inRange, Bool.and_eq_true, decide_eq_true_eq] at hr ⊢
        omega
      · exact .inr (.inl rfl)
  | queue i =>
    simp only [mailboxStep]
    cases hb : bytes[i]? with
    | none =>
      refine ⟨.write [s.params.mbxStatusAddr], ?_⟩
      rcases directSend_cases s s.params.mbxStatusAddr fun t => t.goto (place (.pollRecv 1)) with h | h
      · exact .inl h
      · have hi : bytes.length ≤ i := List.getElem?_eq_none_iff.1 hb
        refine .inr (.inr (.inl ⟨_, h, fun _ => by simp [MailboxPos.inRange, Config.pollMax], fun hr => ?_⟩))
        simp only [MailboxPos.inRange, decide_eq_true_eq] at hr
        omega
    | some b =>
      refine ⟨.write [s.params.mbxToCpuAddr ||| s.params.writeBit, b], ?_⟩
      rcases directWrite_cases s s.params.mbxToCpuAddr b (fun t =>
        t.goto (place (if i + 1 < bytes.length then .queue (i + 1) else .pollSend 1))) with h | h
      · exact .inl h
      · refine .inr (.inr (.inl ⟨_, h, fun _ => ?_, fun hr => ?_⟩))
        · split
          · simpa [MailboxPos.inRange]
          · simp [MailboxPos.inRange, Config.pollMax]
        · simp only [MailboxPos.inRange, decide_eq_true_eq] at hr
          split
          · simp only [MailboxPos.bound]; omega
          · simp only [MailboxPos.bound, Config.pollMax]; omega
  | pollSend n =>
    refine ⟨.write [s.params.mbxStatusAddr], ?_⟩
    simp only [mailboxStep]
    rcases directSend_cases s s.params.mbxStatusAddr fun t => t.goto (place (.pollRecv n)) with h | h
    · exact .inl h
    · exact .inr (.inr (.inl ⟨_, h, id, fun _ => by simp [MailboxPos.bound]⟩))
  | pollRecv n =>
    refine ⟨.read 1, ?_⟩
    simp only [mailboxStep]
    rcases directRecv_cases s (fun status t =>
      if ready t.params status then onReady n t
      else if n < Config.pollMax then t.goto (place (.pollSend (n + 1)))
      else t.raise .pifTimeout) with h | ⟨b, -, h⟩
    · exact .inl h
    · rw [h]
      split
      · exact .inr (.inr (.inr (.inl ⟨n, rfl, rfl⟩)))
      · split
        · next hn =>
          refine .inr (.inr (.inl ⟨_, rfl, fun hr => ?_, fun _ => by simp only [MailboxPos.bound]; omega⟩))
          simp only [MailboxPos.inRange, Bool.and_eq_true, decide_eq_true_eq] at hr ⊢
          omega
        · exact .inr (.inl rfl)
  | replySend n =>
    refine ⟨.write [s.params.mbxFromCpuAddr], ?_⟩
    simp only [mailboxStep]
    rcases directSend_cases s s.params.mbxFromCpuAddr fun t => t.goto (place (.replyRecv n)) with h | h
    · exact .inl h
    · exact .inr (.inr (.inl ⟨_, h, id, fun _ => by simp [MailboxPos.bound]⟩))
  | replyRecv n =>
    refine ⟨.read 1, ?_⟩
    simp only [mailboxStep]
    rcases directRecv_cases s onReply with h | ⟨b, -, h⟩
    · exact .inl h
    · exact .inr (.inr (.inr (.inr ⟨n, b, rfl, h⟩)))

/-- `InternalWrite` (R136): the cases of one transaction; `done` follows only a successful poll. -/
theorem internalWrite_cases (a k v : Byte) (place : MailboxPos → Pos) (done : State → State) (m : MailboxPos) (s : State)
    (hm : m.inRange s.params 3 false = true) :
    ∃ op, internalWrite a k v place done m s = (s.record op).raise .hwError ∨
      internalWrite a k v place done m s = (s.record op).raise .pifTimeout ∨
      (∃ m', internalWrite a k v place done m s = (s.record op).goto (place m') ∧
        m'.inRange s.params 3 false = true ∧ m'.bound s.params 3 0 < m.bound s.params 3 0) ∨
      internalWrite a k v place done m s = done (s.record op) := by
  obtain ⟨op, h | h | ⟨m', h, hf⟩ | ⟨n, -, h⟩ | ⟨n, b, hn, -⟩⟩ :=
    mailboxStep_cases [a, k, v] (by simp) toCpuEmpty (fun _ => done) (fun _ => done) place m s false 0
  · exact ⟨op, .inl h⟩
  · exact ⟨op, .inr (.inl h)⟩
  · exact ⟨op, .inr (.inr (.inl ⟨m', h, hf.inRange hm, hf.bound hm⟩))⟩
  · exact ⟨op, .inr (.inr (.inr h))⟩
  · subst hn; simp [MailboxPos.inRange] at hm

/-- `InternalRead` (R137): the cases of one transaction; `done` follows only the reply byte. -/
theorem internalRead_cases (a k : Byte) (place : MailboxPos → Pos) (done : Byte → State → State) (m : MailboxPos)
    (s : State) (hm : m.inRange s.params 2 true = true) :
    ∃ op, internalRead a k place done m s = (s.record op).raise .hwError ∨
      internalRead a k place done m s = (s.record op).raise .pifTimeout ∨
      (∃ m', internalRead a k place done m s = (s.record op).goto (place m') ∧
        m'.inRange s.params 2 true = true ∧ m'.bound s.params 2 2 < m.bound s.params 2 2) ∨
      ∃ n b, m = .replyRecv n ∧ internalRead a k place done m s = done b (s.record op) := by
  obtain ⟨op, h | h | ⟨m', h, hf⟩ | ⟨n, hn, h⟩ | ⟨n, b, hn, h⟩⟩ :=
    mailboxStep_cases [a, k] (by simp) readReady (fun n t => t.goto (place (.replySend n))) done place m s true 2
  · exact ⟨op, .inl h⟩
  · exact ⟨op, .inr (.inl h)⟩
  · exact ⟨op, .inr (.inr (.inl ⟨m', h, hf.inRange hm, hf.bound hm⟩))⟩
  · subst hn
    refine ⟨op, .inr (.inr (.inl ⟨_, h, ?_, ?_⟩))⟩
    · simpa [MailboxPos.inRange] using hm
    · simp only [MailboxPos.bound]; omega
  · exact ⟨op, .inr (.inr (.inr ⟨n, b, hn, h⟩))⟩

end Sys2Proof.Machine
end

