-- ==== Sys2Proof/Laws/Unpack.lean ====
section
/-! SUPPORT. The laws of the unpack bodies (spec/44_unpack.md): how a body can end, and what each output is. -/

namespace Sys2Proof.Machine

@[simp] theorem rfValues_length (tick : Nat) (nf off : Word) (cs : List Nat) :
    (rfValues tick nf off cs).length = cs.length := by simp [rfValues]

@[simp] theorem iqSamples_length (tick w : Nat) (scale : Word) (cs : List Nat) :
    (iqSamples tick w scale cs).length = cs.length := by simp [iqSamples]

theorem rfValues_getElem {tick : Nat} {nf off : Word} {cs : List Nat} {k : Nat} (h : k < cs.length) :
    (rfValues tick nf off cs)[k]'(by simpa using h) = rfValue tick nf off k cs[k] := by simp [rfValues]

theorem iqSamples_getElem {tick w : Nat} {scale : Word} {cs : List Nat} {k : Nat} (h : k < cs.length) :
    (iqSamples tick w scale cs)[k]'(by simpa using h) = iqSample tick w scale k cs[k] := by simp [iqSamples]

/-! ## Counters -/

/-- `counters` gives the counters in order, and fails exactly where one of them has an UNSET byte. -/
theorem counters_eq_some {raw : Memory Byte} {w i n : Nat} {cs : List Nat} :
    counters raw w i n = some cs ↔
      cs.length = n ∧ ∀ k, (h : k < cs.length) → counter raw (i + k) w = some cs[k] := by
  induction n generalizing i cs with
  | zero =>
    simp only [counters, Option.some.injEq]
    constructor
    · rintro rfl; simp
    · rintro ⟨h, -⟩; exact (List.length_eq_zero_iff.1 h).symm
  | succ n ih =>
    simp only [counters]
    constructor
    · intro h
      split at h
      · next c ds hc hds =>
        cases h
        obtain ⟨hlen, hget⟩ := ih.1 hds
        refine ⟨by simp [hlen], fun k hk => ?_⟩
        cases k with
        | zero => exact hc
        | succ k =>
          have := hget k (by simpa using hk)
          rw [show i + (k + 1) = i + 1 + k by omega]
          exact this
      · cases h
    · rintro ⟨hlen, hget⟩
      cases cs with
      | nil => simp at hlen
      | cons c ds =>
        have hc : counter raw i w = some c := hget 0 (by simp)
        have hds : counters raw w (i + 1) n = some ds := by
          refine ih.2 ⟨by simpa using hlen, fun k hk => ?_⟩
          have := hget (k + 1) (by simpa using hk)
          rw [show i + 1 + k = i + (k + 1) by omega]
          exact this
        simp [hc, hds]

theorem counters_length {raw : Memory Byte} {w i n : Nat} {cs : List Nat} (h : counters raw w i n = some cs) :
    cs.length = n := (counters_eq_some.1 h).1

/-- Little-endian bytes are below the field's range. -/
theorem littleEndian_lt (bs : List Byte) : littleEndian bs < 256 ^ bs.length := by
  induction bs with
  | nil => simp [littleEndian]
  | cons b bs ih =>
    have hb : b.toNat < 256 := b.isLt
    simp only [littleEndian, List.length_cons, Nat.pow_succ]
    omega

/-! ## Reordering -/

theorem evens_length {α : Type} (l : List α) : (evens l).length = (l.length + 1) / 2 := by
  induction l using evens.induct with
  | case1 => simp [evens]
  | case2 => simp [evens]
  | case3 a b rest ih => simp only [evens, List.length_cons, ih]; omega

theorem odds_length {α : Type} (l : List α) : (odds l).length = l.length / 2 := by
  induction l using evens.induct with
  | case1 => simp [odds]
  | case2 => simp [odds]
  | case3 a b rest ih => simp only [odds, List.length_cons, ih]; omega

/-- Entry `j` of the I block is entry `2j` of the samples. -/
theorem evens_getElem? {α : Type} (l : List α) (j : Nat) : (evens l)[j]? = l[2 * j]? := by
  induction l using evens.induct generalizing j with
  | case1 => simp [evens]
  | case2 a => cases j <;> simp [evens]
  | case3 a b rest ih =>
    cases j with
    | zero => simp [evens]
    | succ j => simp only [evens, List.getElem?_cons_succ, ih, show 2 * (j + 1) = 2 * j + 1 + 1 by omega]

/-- Entry `j` of the Q block is entry `2j+1` of the samples. -/
theorem odds_getElem? {α : Type} (l : List α) (j : Nat) : (odds l)[j]? = l[2 * j + 1]? := by
  induction l using evens.induct generalizing j with
  | case1 => simp [odds]
  | case2 a => simp [odds]
  | case3 a b rest ih =>
    cases j with
    | zero => simp [odds]
    | succ j => simp only [odds, List.getElem?_cons_succ, ih, show 2 * (j + 1) = 2 * j + 1 + 1 by omega]

@[simp] theorem reorder_length (separate : BitVec 1) (smp : List Word) : (reorder separate smp).length = smp.length := by
  unfold reorder
  split
  · rfl
  · simp only [List.length_append, evens_length, odds_length]; omega

/-! ## How a body ends -/

/-- The RF body ends at a fault, at an error, or by its commit with as many outputs as it says, within the buffer. -/
theorem rfBody_cases (s : State) :
    (∃ f, rfBody s = .fault f) ∨ (∃ st, rfBody s = .raised st ∧ st ≠ .ok) ∨
      ∃ n vals, rfBody s = .done n (s.commitUnpack vals vals) ∧ vals.length = n ∧ n ≤ s.params.outCap := by
  unfold rfBody
  dsimp only
  split
  · exact .inl ⟨_, rfl⟩
  split
  · exact .inr (.inl ⟨_, rfl, nofun⟩)
  split
  · exact .inl ⟨_, rfl⟩
  split
  · exact .inr (.inl ⟨_, rfl, nofun⟩)
  split
  · exact .inr (.inl ⟨_, rfl, nofun⟩)
  · next hn =>
    split
    · next hcs => exact .inr (.inr ⟨_, _, rfl, by simp [counters_length hcs], Nat.not_lt.1 hn⟩)
    · exact .inl ⟨_, rfl⟩

/-- The IQ body ends at a fault, at an error, or by its commit with as many outputs as it says, within the buffer. -/
theorem iqBody_cases (s : State) :
    (∃ f, iqBody s = .fault f) ∨ (∃ st, iqBody s = .raised st ∧ st ≠ .ok) ∨
      ∃ n vals out, iqBody s = .done n (s.commitUnpack vals out) ∧ vals.length = n ∧ out.length = n ∧
        n ≤ s.params.outCap := by
  unfold iqBody
  dsimp only
  split
  · exact .inl ⟨_, rfl⟩
  split
  · exact .inr (.inl ⟨_, rfl, nofun⟩)
  split
  · exact .inl ⟨_, rfl⟩
  split
  · exact .inr (.inl ⟨_, rfl, nofun⟩)
  split
  · exact .inr (.inl ⟨_, rfl, nofun⟩)
  · next hn =>
    split
    · next hcs =>
      exact .inr (.inr ⟨_, _, _, rfl, by simp [counters_length hcs], by simp [counters_length hcs], Nat.not_lt.1 hn⟩)
    · exact .inl ⟨_, rfl⟩

/-- The selected body ends as one of the two. -/
theorem selectedBody_cases (s : State) :
    (∃ f, selectedBody s = .fault f) ∨ (∃ st, selectedBody s = .raised st ∧ st ≠ .ok) ∨
      ∃ n vals out, selectedBody s = .done n (s.commitUnpack vals out) ∧ vals.length = n ∧ out.length = n ∧
        n ≤ s.params.outCap := by
  unfold selectedBody
  split
  · rcases rfBody_cases s with h | h | ⟨n, vals, h, hl, hn⟩
    · exact .inl h
    · exact .inr (.inl h)
    · exact .inr (.inr ⟨n, vals, vals, h, hl, hl, hn⟩)
  · exact iqBody_cases s

end Sys2Proof.Machine
end

