-- ==== Sys2Proof/Laws/Effect.lean ====
section
/-! SUPPORT. Everything one execution step can do to the state, said once for all thirteen commands and for every position,
those of other commands' pseudocode included. -/

namespace Sys2Proof.Machine

/-- The commands that can stop at a read of an UNSET register or cell (R226). -/
def readsUnset : Instr → Bool
  | .fetchFrame | .unpackRf | .unpackIq | .readFrameNorm | .cfgRead _ | .rawRead _ | .outRead _ => true
  | _ => false

/-- The commands with an unpack body. -/
def unpacks : Instr → Bool
  | .unpackRf | .unpackIq | .readFrameNorm => true
  | _ => false

/-- The commands that make transactions. -/
def transacts : Instr → Bool
  | .setDirect _ _ | .getDirect _ | .setInternal _ _ _ | .getInternal _ _ | .fetchFrame | .readFrameNorm => true
  | _ => false

/-- What a step of command `i` from position `p` can answer, with the state it leaves. -/
inductive Effect (s : State) (i : Instr) (p : Pos) : Outcome → Prop
  | readUnset (hi : readsUnset i = true) : Effect s i p (.fault .readUnset)
  | widthZero (hi : unpacks i = true) (hw : s.cfg.bpc = 0) : Effect s i p (.fault .counterWidthZero)
  | raised (st : Status) (hst : st ≠ .ok) : Effect s i p (.next (s.raise st))
  | failed (op : SpiOp) (hi : transacts i = true) (ha : s.answer op = .err) :
      Effect s i p (.next ((s.record op).raise .hwError))
  | timedOut (op : SpiOp) (bytes : List Byte) (hi : transacts i = true) (ha : s.answer op = .ok bytes) :
      Effect s i p (.next ((s.record op).raise .pifTimeout))
  | moved (op : SpiOp) (bytes : List Byte) (p' : Pos) (hi : transacts i = true) (ha : s.answer op = .ok bytes) :
      Effect s i p (.next ((s.record op).goto p'))
  | answered (op : SpiOp) (bytes : List Byte) (v : Word) (hi : transacts i = true) (ha : s.answer op = .ok bytes) :
      Effect s i p (.next ((s.record op).ret v))
  | fetched (frs : Nat) (fc : Word) (bytes : List Byte) (hi : i = .fetchFrame) (hp : p = .raw frs fc)
      (ha : s.answer (.writeRead [s.params.radarDataAddr] frs) = .ok bytes) :
      Effect s i p (.next (((s.record (.writeRead [s.params.radarDataAddr] frs)).commitFrame fc bytes).ret fc))
  | fetchedFirst (frs : Nat) (fc : Word) (bytes : List Byte) (hi : i = .readFrameNorm) (hp : p = .raw frs fc)
      (ha : s.answer (.writeRead [s.params.radarDataAddr] frs) = .ok bytes) :
      Effect s i p
        (.next (((s.record (.writeRead [s.params.radarDataAddr] frs)).commitFrame fc bytes).goto (.unpack fc)))
  | unpacked (n : Nat) (vals out : List Word) (v : Word) (hi : unpacks i = true)
      (hp : i = .readFrameNorm → ∃ fc, p = .unpack fc) (hv : vals.length = n) (ho : out.length = n)
      (hn : n ≤ s.params.outCap) : Effect s i p (.next ((s.commitUnpack vals out).ret v))
  | cfgWritten (reg : Byte) (data : Word) (name : CfgReg) (hi : i = .cfgWrite reg data)
      (hr : CfgReg.ofIndex reg = some name) (hro : name.readOnly = false) :
      Effect s i p (.next ((s.writeCfg name data).ret 0))
  | rawWritten (idx : Half) (val : Byte) (hi : i = .rawWrite idx val) (hlt : idx.toNat < s.params.rawCap) :
      Effect s i p (.next (State.ret { s with rawbuf := Memory.writeRange s.rawbuf idx.toNat [val] } 0))
  | read (v : Word) (hi : readsUnset i = true) (ht : transacts i = false) : Effect s i p (.next (s.ret v))

/-- One transaction, whose continuation's effect is known. -/
theorem transact_effect {s : State} {i : Instr} {p : Pos} (op : SpiOp) (k : List Byte → State → State)
    (hi : transacts i = true) (hk : ∀ bytes, s.answer op = .ok bytes → Effect s i p (.next (k bytes (s.record op)))) :
    Effect s i p (.next (transact s op k)) := by
  rcases transact_cases s op k with ⟨ha, h⟩ | ⟨bytes, ha, -, h⟩
  · rw [h]; exact .failed op hi ha
  · rw [h]; exact hk bytes ha

/-- One transaction of a mailbox access, where its ends only move or answer. -/
theorem mailboxStep_effect {s : State} {i : Instr} {p : Pos} (queued : List Byte) (ready : Params → Byte → Bool)
    (onReady : Nat → State → State) (onReply : Byte → State → State) (place : MailboxPos → Pos) (m : MailboxPos)
    (hi : transacts i = true)
    (hready : ∀ n op bytes, s.answer op = .ok bytes → Effect s i p (.next (onReady n (s.record op))))
    (hreply : ∀ b op bytes, s.answer op = .ok bytes → Effect s i p (.next (onReply b (s.record op)))) :
    Effect s i p (.next (mailboxStep queued ready onReady onReply place m s)) := by
  cases m <;> simp only [mailboxStep]
  case drainStatusSend d => exact transact_effect _ _ hi fun _ ha => .moved _ _ _ hi ha
  case drainStatusRecv d =>
    refine transact_effect _ _ hi fun bytes ha => ?_
    dsimp only
    split <;> exact .moved _ _ _ hi ha
  case drainDataSend d => exact transact_effect _ _ hi fun _ ha => .moved _ _ _ hi ha
  case drainDataRecv d =>
    refine transact_effect _ _ hi fun bytes ha => ?_
    dsimp only
    split
    · exact .moved _ _ _ hi ha
    · exact .timedOut _ _ hi ha
  case queue j => split <;> exact transact_effect _ _ hi fun _ ha => .moved _ _ _ hi ha
  case pollSend n => exact transact_effect _ _ hi fun _ ha => .moved _ _ _ hi ha
  case pollRecv n =>
    refine transact_effect _ _ hi fun bytes ha => ?_
    dsimp only
    split
    · exact hready _ _ _ ha
    · split
      · exact .moved _ _ _ hi ha
      · exact .timedOut _ _ hi ha
  case replySend n => exact transact_effect _ _ hi fun _ ha => .moved _ _ _ hi ha
  case replyRecv n => exact transact_effect _ _ hi fun bytes ha => hreply _ _ _ ha

theorem counterStep_effect {s : State} {i : Instr} {p : Pos} (hi : transacts i = true) (frs : Nat) (j : Fin 4)
    (acc : Word) (m : MailboxPos) : Effect s i p (.next (counterStep frs j acc m s)) := by
  refine mailboxStep_effect _ _ _ _ _ _ hi (fun _ _ _ ha => .moved _ _ _ hi ha) fun b op bytes ha => ?_
  dsimp only
  split <;> exact .moved _ _ _ hi ha

/-- A step of the fetch; `raw` is what the command does at the raw read. -/
theorem fetchStep_effect {s : State} {i : Instr} {p : Pos} (done : Word → State → State) (hi : transacts i = true)
    (hu : readsUnset i = true)
    (hraw : ∀ frs fc, p = .raw frs fc → Effect s i p (.next (rawStep frs fc (done fc) s))) :
    Effect s i p (fetchStep done p s) := by
  have start : Effect s i p (
      if s.gateClosed then .next (s.raise .uninitialized)
      else
        match s.cfg.frameReadSize with
        | none => .fault .readUnset
        | some frs =>
          .next <|
            if frs.toNat > s.params.rawCap then s.raise .bufferTooSmall
            else counterStep frs.toNat 0 0 .first s) := by
    split
    · exact .raised _ nofun
    · split
      · exact .readUnset hu
      · split
        · exact .raised _ nofun
        · exact counterStep_effect hi _ _ _ _
  cases p with
  | counter frs j acc m => exact counterStep_effect hi _ _ _ _
  | action frs fc m =>
    exact mailboxStep_effect _ _ _ _ _ _ hi (fun _ _ _ ha => .moved _ _ _ hi ha) fun _ _ _ ha => .moved _ _ _ hi ha
  | raw frs fc => exact hraw frs fc rfl
  | _ => exact start

/-- The three ends of an unpack body. -/
theorem unpackStep_effect {s : State} {i : Instr} {p : Pos} (body : BodyEnd) (rdata : Nat → Word) (hi : unpacks i = true)
    (hp : i = .readFrameNorm → ∃ fc, p = .unpack fc)
    (hf : ∀ f, body = .fault f → f = .readUnset ∨ f = .counterWidthZero ∧ s.cfg.bpc = 0)
    (h : (∃ f, body = .fault f) ∨ (∃ st, body = .raised st ∧ st ≠ .ok) ∨
      ∃ n vals out, body = .done n (s.commitUnpack vals out) ∧ vals.length = n ∧ out.length = n ∧ n ≤ s.params.outCap) :
    Effect s i p (unpackStep s body rdata) := by
  have hu : readsUnset i = true := by cases i <;> simp [unpacks] at hi <;> rfl
  rcases h with ⟨f, rfl⟩ | ⟨st, rfl, hst⟩ | ⟨n, vals, out, rfl, hv, ho, hn⟩
  · rcases hf f rfl with rfl | ⟨rfl, hw⟩
    · exact .readUnset hu
    · exact .widthZero hi hw
  · exact .raised st hst
  · exact .unpacked n vals out _ hi hp hv ho hn

theorem bpc_zero {s : State} (h : s.cfg.bpc.toNat = 0) : s.cfg.bpc = 0 := BitVec.eq_of_toNat_eq h

/-- The only faults of the RF body (R226). -/
theorem rfBody_fault {s : State} {f : Fault} (h : rfBody s = .fault f) :
    f = .readUnset ∨ f = .counterWidthZero ∧ s.cfg.bpc = 0 := by
  unfold rfBody at h
  dsimp only at h
  split at h
  · next hw => cases h; exact .inr ⟨rfl, bpc_zero hw⟩
  · (repeat' split at h) <;> cases h <;> exact .inl rfl

/-- The only faults of the IQ body (R226). -/
theorem iqBody_fault {s : State} {f : Fault} (h : iqBody s = .fault f) :
    f = .readUnset ∨ f = .counterWidthZero ∧ s.cfg.bpc = 0 := by
  unfold iqBody at h
  dsimp only at h
  split at h
  · next hw => cases h; exact .inr ⟨rfl, bpc_zero hw⟩
  · (repeat' split at h) <;> cases h <;> exact .inl rfl

theorem selectedBody_fault {s : State} {f : Fault} (h : selectedBody s = .fault f) :
    f = .readUnset ∨ f = .counterWidthZero ∧ s.cfg.bpc = 0 := by
  unfold selectedBody at h
  split at h
  · exact rfBody_fault h
  · exact iqBody_fault h

/-- With no command in flight there is nothing to execute (log 13). -/
theorem exec_of_idle {s : State} (h : s.pc = .idle) (i : Instr) : exec i s = .next s := by
  cases i <;>
    simp only [exec, execSetDirect, execGetDirect, execSetInternal, execGetInternal, execFetchFrame, execUnpackRf,
      execUnpackIq, execReadFrameNorm, execCfgWrite, execCfgRead, execRawWrite, execRawRead, execOutRead,
      underLock_of_idle h]

/-- The effect of every command's step, in every state with a command in flight. -/
theorem exec_effect {s : State} {r : Nat} {q : Request} {p : Pos} (hpc : s.pc = .exec r q p) (i : Instr) :
    Effect s i p (exec i s) := by
  cases i with
  | setDirect addr val =>
    simp only [exec, execSetDirect, underLock_of_exec hpc]
    split
    · exact .raised _ nofun
    · exact transact_effect _ _ rfl fun _ ha => .answered _ _ _ rfl ha
  | getDirect addr =>
    simp only [exec, execGetDirect, underLock_of_exec hpc]
    split
    · exact transact_effect _ _ rfl fun _ ha => .answered _ _ _ rfl ha
    · split
      · exact .raised _ nofun
      · exact transact_effect _ _ rfl fun _ ha => .moved _ _ _ rfl ha
  | setInternal addr kind val =>
    simp only [exec, execSetInternal, underLock_of_exec hpc]
    split
    · exact mailboxStep_effect _ _ _ _ _ _ rfl (fun _ _ _ ha => .answered _ _ _ rfl ha) fun _ _ _ ha =>
        .answered _ _ _ rfl ha
    · split
      · exact .raised _ nofun
      · exact mailboxStep_effect _ _ _ _ _ _ rfl (fun _ _ _ ha => .answered _ _ _ rfl ha) fun _ _ _ ha =>
          .answered _ _ _ rfl ha
  | getInternal addr kind =>
    simp only [exec, execGetInternal, underLock_of_exec hpc]
    split
    · exact mailboxStep_effect _ _ _ _ _ _ rfl (fun _ _ _ ha => .moved _ _ _ rfl ha) fun _ _ _ ha =>
        .answered _ _ _ rfl ha
    · split
      · exact .raised _ nofun
      · exact mailboxStep_effect _ _ _ _ _ _ rfl (fun _ _ _ ha => .moved _ _ _ rfl ha) fun _ _ _ ha =>
          .answered _ _ _ rfl ha
  | fetchFrame =>
    simp only [exec, execFetchFrame, underLock_of_exec hpc]
    exact fetchStep_effect _ rfl rfl fun frs fc hp => transact_effect _ _ rfl fun bytes ha =>
      .fetched frs fc bytes rfl hp ha
  | unpackRf =>
    simp only [exec, execUnpackRf, underLock_of_exec hpc]
    refine unpackStep_effect _ _ rfl nofun (fun f => rfBody_fault) ((rfBody_cases s).imp id (Or.imp id ?_))
    rintro ⟨n, vals, h, hl, hn⟩
    exact ⟨n, vals, vals, h, hl, hl, hn⟩
  | unpackIq =>
    simp only [exec, execUnpackIq, underLock_of_exec hpc]
    exact unpackStep_effect _ _ rfl nofun (fun f => iqBody_fault) (iqBody_cases s)
  | readFrameNorm =>
    simp only [exec, execReadFrameNorm, underLock_of_exec hpc]
    split
    · next fc => exact unpackStep_effect _ _ rfl (fun _ => ⟨fc, rfl⟩) (fun f => selectedBody_fault) (selectedBody_cases s)
    · exact fetchStep_effect _ rfl rfl fun frs fc hp => transact_effect _ _ rfl fun bytes ha =>
        .fetchedFirst frs fc bytes rfl hp ha
  | cfgWrite reg data =>
    simp only [exec, execCfgWrite, underLock_of_exec hpc]
    split
    · exact .raised _ nofun
    · next name hr =>
      split
      · exact .raised _ nofun
      · next hro => exact .cfgWritten reg data name rfl hr (by simpa using hro)
  | cfgRead reg =>
    simp only [exec, execCfgRead, underLock_of_exec hpc]
    split
    · exact .raised _ nofun
    · split
      · exact .readUnset rfl
      · exact .read _ rfl rfl
  | rawWrite idx val =>
    simp only [exec, execRawWrite, underLock_of_exec hpc]
    split
    · exact .raised _ nofun
    · next hlt => exact .rawWritten idx val rfl (Nat.not_le.1 hlt)
  | rawRead idx =>
    simp only [exec, execRawRead, underLock_of_exec hpc]
    split
    · exact .raised _ nofun
    · split
      · exact .readUnset rfl
      · exact .read _ rfl rfl
  | outRead idx =>
    simp only [exec, execOutRead, underLock_of_exec hpc]
    split
    · exact .raised _ nofun
    · split
      · exact .readUnset rfl
      · exact .read _ rfl rfl

end Sys2Proof.Machine
end

