-- ==== Sys2Proof/Laws/Exec.lean ====
section
/-! SUPPORT. What one execution step of a command in flight can do, said once for all thirteen commands: a model fault, the
command's ending, or a later position of the same command. -/

namespace Sys2Proof.Machine

/-! ## Effects of a step inside a command -/

/-- The parts of the invariant about registers, buffers and T. -/
structure State.DataInv (s : State) : Prop where
  raw : Memory.wf s.rawbuf ∧ Memory.below s.params.rawCap s.rawbuf
  out : Memory.wf s.outbuf ∧ Memory.below s.params.outCap s.outbuf
  outCount : s.cfg.outCount.toNat ≤ s.params.outCap
  trace : ∀ e ∈ s.trace, e.fits = true

/-- `u` is `s` but for registers, buffers, T and what was used of the chip's answers; its data is sound if `s`'s was. -/
structure State.Within (s u : State) : Prop where
  pc : u.pc = s.pc
  req : u.req = s.req
  resp : u.resp = s.resp
  lockOwner : u.lockOwner = s.lockOwner
  params : u.params = s.params
  schedule : u.schedule = s.schedule
  data : s.DataInv → u.DataInv

theorem State.Within.refl (s : State) : s.Within s := ⟨rfl, rfl, rfl, rfl, rfl, rfl, id⟩

theorem State.Within.trans {s t u : State} (h : s.Within t) (h' : t.Within u) : s.Within u :=
  ⟨h'.pc.trans h.pc, h'.req.trans h.req, h'.resp.trans h.resp, h'.lockOwner.trans h.lockOwner,
    h'.params.trans h.params, h'.schedule.trans h.schedule, h'.data ∘ h.data⟩

theorem within_record (s : State) (op : SpiOp) : s.Within (s.record op) :=
  ⟨rfl, rfl, rfl, rfl, rfl, rfl, fun h => ⟨h.raw, h.out, h.outCount, record_trace_fits h.trace⟩⟩

theorem within_writeCfg (s : State) (reg : CfgReg) (v : Word) (h : reg.readOnly = false) : s.Within (s.writeCfg reg v) :=
  ⟨rfl, rfl, rfl, rfl, rfl, rfl, fun hd => ⟨hd.raw, hd.out, (by
    cases reg <;> first | exact hd.outCount | exact absurd h (by decide)), hd.trace⟩⟩

theorem within_commitFrame (s : State) (fc : Word) (bytes : List Byte) (h : bytes.length ≤ s.params.rawCap) :
    s.Within (s.commitFrame fc bytes) :=
  ⟨rfl, rfl, rfl, rfl, rfl, rfl, fun hd =>
    ⟨⟨Memory.wf_writeRange _ _ _ hd.raw.1, Memory.below_writeRange _ _ hd.raw.2 (by simpa using h)⟩, hd.out,
      hd.outCount, hd.trace⟩⟩

theorem within_rawWrite (s : State) (k : Nat) (v : Byte) (h : k < s.params.rawCap) :
    s.Within { s with rawbuf := Memory.writeRange s.rawbuf k [v] } :=
  ⟨rfl, rfl, rfl, rfl, rfl, rfl, fun hd =>
    ⟨⟨Memory.wf_writeRange _ _ _ hd.raw.1, Memory.below_writeRange _ _ hd.raw.2 (by simpa using h)⟩, hd.out,
      hd.outCount, hd.trace⟩⟩

theorem within_commitUnpack (s : State) (vals out : List Word) (h : out.length ≤ s.params.outCap) :
    s.Within (s.commitUnpack vals out) :=
  ⟨rfl, rfl, rfl, rfl, rfl, rfl, fun hd =>
    ⟨hd.raw, ⟨Memory.wf_writeRange _ _ _ hd.out.1, Memory.below_writeRange _ _ hd.out.2 (by simpa using h)⟩,
      Nat.le_trans (by
        show (BitVec.ofNat 32 out.length).toNat ≤ out.length
        simpa using Nat.mod_le _ _) h, hd.trace⟩⟩

/-! ## The three ways a step inside a command can go -/

/-- What a step of command `i` from position `p` can answer. -/
inductive StepKind (s : State) (i : Instr) (p : Pos) (o : Outcome) : Prop where
  | fault (f : Fault) (h : o = .fault f)
  | ends (u : State) (st : Status) (v : Word) (h : o = .next (u.endCommand st v)) (hu : s.Within u) (hv : st ≠ .ok → v = 0)
  | goes (u : State) (p' : Pos) (h : o = .next (u.goto p')) (hu : s.Within u) (hfit : p'.fits s.params i = true)
      (hbound : p'.bound s.params i < p.bound s.params i)

theorem StepKind.raise {s t : State} {i : Instr} {p : Pos} (u : State) (st : Status)
    (h : t = u.raise st) (hu : s.Within u) : StepKind s i p (.next t) := by
  subst h; exact .ends u st 0 rfl hu fun _ => rfl

theorem StepKind.ret {s t : State} {i : Instr} {p : Pos} (u : State) (v : Word)
    (h : t = u.ret v) (hu : s.Within u) : StepKind s i p (.next t) := by
  subst h; exact .ends u .ok v rfl hu fun h => absurd rfl h

theorem StepKind.move {s t : State} {i : Instr} {p : Pos} (u : State) (p' : Pos) (h : t = u.goto p') (hu : s.Within u)
    (hfit : p'.fits s.params i = true) (hbound : p'.bound s.params i < p.bound s.params i) :
    StepKind s i p (.next t) := by
  subst h; exact .goes u p' rfl hu hfit hbound

/-- A step of the body of an unpack command. -/
theorem unpackStep_kind {s : State} {i : Instr} {p : Pos} (body : BodyEnd) (rdata : Nat → Word)
    (h : (∃ f, body = .fault f) ∨ (∃ st, body = .raised st ∧ st ≠ .ok) ∨
      ∃ n vals out, body = .done n (s.commitUnpack vals out) ∧ vals.length = n ∧ out.length = n ∧ n ≤ s.params.outCap) :
    StepKind s i p (unpackStep s body rdata) := by
  rcases h with ⟨f, rfl⟩ | ⟨st, rfl, -⟩ | ⟨n, vals, out, rfl, -, hl, hn⟩
  · exact .fault f rfl
  · exact .raise s st rfl (.refl s)
  · exact .ret _ _ rfl (within_commitUnpack s vals out (hl ▸ hn))

theorem drainMax_pos {p : Params} (h : p.legal = true) : 1 ≤ p.drainMax := by
  simp only [Params.legal, Bool.and_eq_true, decide_eq_true_eq] at h
  omega

theorem first_inRange {p : Params} (h : p.legal = true) (queued : Nat) (reads : Bool) :
    MailboxPos.first.inRange p queued reads = true := by
  simpa [MailboxPos.first, MailboxPos.inRange] using drainMax_pos h

theorem first_bound {p : Params} (h : p.legal = true) (queued reply : Nat) :
    MailboxPos.first.bound p queued reply = accessBound p queued reply := by
  have := drainMax_pos h
  simp only [MailboxPos.first, MailboxPos.bound, accessBound]
  omega

/-- A step inside a mailbox write, whose own completion is an ending or a nearer position. -/
theorem internalWrite_kind {s : State} {i : Instr} {p : Pos} (a k v : Byte) (place : MailboxPos → Pos)
    (done : State → State) (m : MailboxPos) (hm : m.inRange s.params 3 false = true)
    (hplace : ∀ m', m'.inRange s.params 3 false = true → m'.bound s.params 3 0 < m.bound s.params 3 0 →
      (place m').fits s.params i = true ∧ (place m').bound s.params i < p.bound s.params i)
    (hdone : ∀ u, s.Within u → StepKind s i p (.next (done u))) :
    StepKind s i p (.next (internalWrite a k v place done m s)) := by
  obtain ⟨op, h | h | ⟨m', h, hr, hb⟩ | h⟩ := internalWrite_cases a k v place done m s hm
  · exact .raise _ _ h (within_record s op)
  · exact .raise _ _ h (within_record s op)
  · exact .move _ _ h (within_record s op) (hplace m' hr hb).1 (hplace m' hr hb).2
  · rw [h]; exact hdone _ (within_record s op)

/-- A step inside a mailbox read, whose own completion is an ending or a nearer position. -/
theorem internalRead_kind {s : State} {i : Instr} {p : Pos} (a k : Byte) (place : MailboxPos → Pos)
    (done : Byte → State → State) (m : MailboxPos) (hm : m.inRange s.params 2 true = true)
    (hplace : ∀ m', m'.inRange s.params 2 true = true → m'.bound s.params 2 2 < m.bound s.params 2 2 →
      (place m').fits s.params i = true ∧ (place m').bound s.params i < p.bound s.params i)
    (hdone : ∀ b u, s.Within u → StepKind s i p (.next (done b u))) :
    StepKind s i p (.next (internalRead a k place done m s)) := by
  obtain ⟨op, h | h | ⟨m', h, hr, hb⟩ | ⟨n, b, -, h⟩⟩ := internalRead_cases a k place done m s hm
  · exact .raise _ _ h (within_record s op)
  · exact .raise _ _ h (within_record s op)
  · exact .move _ _ h (within_record s op) (hplace m' hr hb).1 (hplace m' hr hb).2
  · rw [h]; exact hdone b _ (within_record s op)

theorem MailboxPos.bound_pos (m : MailboxPos) (p : Params) (queued reply : Nat) (h : m.inRange p queued true = true) :
    1 ≤ m.bound p queued reply := by
  cases m <;> simp only [MailboxPos.bound, MailboxPos.inRange, decide_eq_true_eq] at * <;> omega

/-! ## The fetch -/

/-- A step of a counter read. -/
theorem counterStep_kind {s : State} {i : Instr} {p : Pos} (hp : s.params.legal = true) (hi : isFetch i = true)
    (frs : Nat) (j : Fin 4) (acc : Word) (m : MailboxPos) (hf : frs ≤ s.params.rawCap)
    (hm : m.inRange s.params 2 true = true)
    (hb : (Pos.counter frs j acc m).bound s.params i ≤ p.bound s.params i) :
    StepKind s i p (.next (counterStep frs j acc m s)) := by
  unfold counterStep
  refine internalRead_kind _ _ _ _ m hm (fun m' hr hlt => ⟨?_, ?_⟩) fun b u hu => ?_
  · simp [Pos.fits, hi, hf, hr]
  · simp only [Pos.bound] at hb ⊢; omega
  · have h1 : 1 ≤ m.bound s.params 2 2 := m.bound_pos _ _ _ hm
    dsimp only
    split
    · next hj =>
      refine .move u _ rfl hu ?_ ?_
      · simp [Pos.fits, hi, hf, first_inRange hp]
      · simp only [Pos.bound, first_bound hp] at hb ⊢
        obtain ⟨e, he⟩ : ∃ e, 3 - j.val = e + 1 := ⟨3 - j.val - 1, by omega⟩
        have he' : 3 - (j.val + 1) = e := by omega
        rw [he, Nat.succ_mul] at hb
        rw [he']
        omega
    · refine .move u _ rfl hu ?_ ?_
      · simp [Pos.fits, hi, hf, first_inRange hp]
      · simp only [Pos.bound, first_bound hp, fetchTailBound] at hb ⊢
        omega

/-- A step of the fetch, for a command whose continuation after the commit ends it or goes to a nearer position. -/
theorem fetchStep_kind {s : State} {i : Instr} {p : Pos} (done : Word → State → State) (hp : s.params.legal = true)
    (hi : isFetch i = true) (hfit : p.fits s.params i = true) (hun : ∀ fc, p ≠ .unpack fc)
    (hstart : Pos.bound s.params i .start = 4 * accessBound s.params 2 2 + fetchTailBound s.params)
    (hdone : ∀ frs fc u, p = .raw frs fc → s.Within u → StepKind s i p (.next (done fc u))) :
    StepKind s i p (fetchStep done p s) := by
  have start : p = .start → StepKind s i p (
      if s.gateClosed then .next (s.raise .uninitialized)
      else
        match s.cfg.frameReadSize with
        | none => .fault .readUnset
        | some frs =>
          .next <|
            if frs.toNat > s.params.rawCap then s.raise .bufferTooSmall
            else counterStep frs.toNat 0 0 .first s) := by
    rintro rfl
    split
    · exact .raise s _ rfl (.refl s)
    · split
      · exact .fault _ rfl
      · split
        · exact .raise s _ rfl (.refl s)
        · next hle =>
          refine counterStep_kind hp hi _ _ _ _ (Nat.not_lt.1 hle) (first_inRange hp 2 true) ?_
          rw [hstart]
          simp only [Pos.bound, first_bound hp]
          show _ + 3 * _ + _ ≤ _
          omega
  cases p with
  | start => exact start rfl
  | directRecv => cases i <;> simp [Pos.fits, isFetch] at hfit hi
  | mailbox m => cases i <;> simp [Pos.fits, isFetch] at hfit hi
  | counter frs j acc m =>
    simp only [Pos.fits, Bool.and_eq_true, decide_eq_true_eq] at hfit
    exact counterStep_kind hp hi frs j acc m hfit.1.2 hfit.2 (Nat.le_refl _)
  | action frs fc m =>
    simp only [Pos.fits, Bool.and_eq_true, decide_eq_true_eq] at hfit
    have h1 : 1 ≤ m.bound s.params 3 0 := m.bound_pos _ _ _ (by
      cases m <;> simp_all [MailboxPos.inRange])
    simp only [fetchStep]
    unfold actionStep
    refine internalWrite_kind _ _ _ _ _ m hfit.2 (fun m' hr hlt => ⟨?_, ?_⟩) fun u hu => ?_
    · simp [Pos.fits, hi, hfit.1.2, hr]
    · simp only [Pos.bound]; omega
    · exact .move u _ rfl hu (by simp [Pos.fits, hi, hfit.1.2]) (by simp only [Pos.bound]; omega)
  | raw frs fc =>
    simp only [Pos.fits, Bool.and_eq_true, decide_eq_true_eq] at hfit
    simp only [fetchStep, rawStep]
    rcases transact_cases s (.writeRead [s.params.radarDataAddr] frs)
      (fun bytes t => done fc (t.commitFrame fc bytes)) with ⟨-, h⟩ | ⟨bytes, -, hl, h⟩
    · exact .raise _ _ h (within_record _ _)
    · rw [h]
      refine hdone frs fc _ rfl ((within_record s _).trans (within_commitFrame _ fc bytes ?_))
      show bytes.length ≤ s.params.rawCap
      rw [hl]; exact hfit.2
  | unpack fc => exact absurd rfl (hun fc)

/-! ## Every command -/

/-- What one execution step can do (R106, R107, R109): for a command in flight at a position of its own pseudocode. -/
theorem exec_kind {s : State} {i : Instr} {r : Nat} {q : Request} {p : Pos} (hpc : s.pc = .exec r q p)
    (hp : s.params.legal = true) (hfit : p.fits s.params i = true) : StepKind s i p (exec i s) := by
  cases i with
  | setDirect addr val =>
    simp only [exec, execSetDirect, underLock_of_exec hpc]
    split
    · exact .raise s _ rfl (.refl s)
    · rcases directWrite_cases s addr val (fun t => t.ret 0) with h | h
      · exact .raise _ _ h (within_record _ _)
      · exact .ret _ _ h (within_record _ _)
  | getDirect addr =>
    simp only [exec, execGetDirect, underLock_of_exec hpc]
    cases p with
    | directRecv =>
      rcases directRecv_cases s (fun b t => t.ret (b.setWidth 32)) with h | ⟨b, -, h⟩
      · exact .raise _ _ h (within_record _ _)
      · exact .ret _ _ h (within_record _ _)
    | start =>
      dsimp only
      split
      · exact .raise s _ rfl (.refl s)
      · rcases directSend_cases s addr (fun t => t.goto .directRecv) with h | h
        · exact .raise _ _ h (within_record _ _)
        · exact .move _ _ h (within_record _ _) rfl (by simp [Pos.bound, startBound])
    | _ => simp [Pos.fits, isFetch] at hfit
  | setInternal addr kind val =>
    simp only [exec, execSetInternal, underLock_of_exec hpc]
    cases p with
    | mailbox m =>
      exact internalWrite_kind _ _ _ _ _ m hfit (fun m' hr hlt => ⟨hr, hlt⟩) fun u hu => .ret u 0 rfl hu
    | start =>
      dsimp only
      split
      · exact .raise s _ rfl (.refl s)
      · exact internalWrite_kind _ _ _ _ _ _ (first_inRange hp 3 false)
          (fun m' hr hlt => ⟨hr, by rwa [first_bound hp] at hlt⟩) fun u hu => .ret u 0 rfl hu
    | _ => simp [Pos.fits, isFetch] at hfit
  | getInternal addr kind =>
    simp only [exec, execGetInternal, underLock_of_exec hpc]
    cases p with
    | mailbox m =>
      exact internalRead_kind _ _ _ _ m hfit (fun m' hr hlt => ⟨hr, hlt⟩) fun b u hu => .ret u _ rfl hu
    | start =>
      dsimp only
      split
      · exact .raise s _ rfl (.refl s)
      · exact internalRead_kind _ _ _ _ _ (first_inRange hp 2 true)
          (fun m' hr hlt => ⟨hr, by rwa [first_bound hp] at hlt⟩) fun b u hu => .ret u _ rfl hu
    | _ => simp [Pos.fits, isFetch] at hfit
  | fetchFrame =>
    simp only [exec, execFetchFrame, underLock_of_exec hpc]
    refine fetchStep_kind _ hp rfl hfit ?_ (by simp only [Pos.bound, startBound]) fun _ fc u _ hu => .ret u fc rfl hu
    rintro fc rfl
    simp [Pos.fits] at hfit
  | unpackRf =>
    simp only [exec, execUnpackRf, underLock_of_exec hpc]
    refine unpackStep_kind _ _ ((rfBody_cases s).imp id (Or.imp id ?_))
    rintro ⟨n, vals, h, hl, hn⟩
    exact ⟨n, vals, vals, h, hl, hl, hn⟩
  | unpackIq =>
    simp only [exec, execUnpackIq, underLock_of_exec hpc]
    exact unpackStep_kind _ _ (iqBody_cases s)
  | readFrameNorm =>
    simp only [exec, execReadFrameNorm, underLock_of_exec hpc]
    cases p with
    | unpack fc => exact unpackStep_kind _ _ (selectedBody_cases s)
    | _ =>
      refine fetchStep_kind _ hp rfl hfit nofun (by simp only [Pos.bound, startBound]) fun frs fc u heq hu => ?_
      first
      | (cases heq; done)
      | exact .move u _ rfl hu rfl (by simp [Pos.bound])
  | cfgWrite reg data =>
    simp only [exec, execCfgWrite, underLock_of_exec hpc]
    split
    · exact .raise s _ rfl (.refl s)
    · next name _ =>
      split
      · exact .raise s _ rfl (.refl s)
      · next hro => exact .ret _ _ rfl (within_writeCfg s name data (by simpa using hro))
  | cfgRead reg =>
    simp only [exec, execCfgRead, underLock_of_exec hpc]
    split
    · exact .raise s _ rfl (.refl s)
    · split
      · exact .fault _ rfl
      · exact .ret s _ rfl (.refl s)
  | rawWrite idx val =>
    simp only [exec, execRawWrite, underLock_of_exec hpc]
    split
    · exact .raise s _ rfl (.refl s)
    · next hlt => exact .ret _ _ rfl (within_rawWrite s _ val (Nat.not_le.1 hlt))
  | rawRead idx =>
    simp only [exec, execRawRead, underLock_of_exec hpc]
    split
    · exact .raise s _ rfl (.refl s)
    · split
      · exact .fault _ rfl
      · exact .ret s _ rfl (.refl s)
  | outRead idx =>
    simp only [exec, execOutRead, underLock_of_exec hpc]
    split
    · exact .raise s _ rfl (.refl s)
    · split
      · exact .fault _ rfl
      · exact .ret s _ rfl (.refl s)

end Sys2Proof.Machine
end

