-- ==== Sys2Proof/Laws/Lifecycle.lean ====
section
/-! SUPPORT. What each step around a command's execution can do (spec/40_command_lifecycle.md), said once per operation, and
the shape of one step of the machine. -/

namespace Sys2Proof.Machine

/-! ## The shape of a step -/

/-- Past the schedule's end X4MBU moves. -/
theorem step_of_schedule_nil {s : State} (h : s.schedule = []) : step s = x4mbuStep s := by
  unfold step scheduledStep; rw [h]

/-- The agent the schedule names moves, its entry used up. -/
theorem step_of_schedule_cons {s : State} {e : Event} {rest : List Event} (h : s.schedule = e :: rest) :
    step s = eventStep e { s with schedule := rest } := by
  unfold step scheduledStep; rw [h]

theorem x4mbuStep_of_idle {s : State} (h : s.pc = .idle) : x4mbuStep s = .next (arbitrate s) := by
  unfold x4mbuStep; rw [h]

theorem x4mbuStep_of_exec {s : State} {r : Nat} {q : Request} {p : Pos} {i : Instr} (h : s.pc = .exec r q p)
    (hi : decode? q = some i) : x4mbuStep s = exec i s := by
  unfold x4mbuStep; rw [h]; dsimp only; rw [hi]

/-- Every step is X4MBU's or another agent's, on the state whose schedule has lost the entry. -/
theorem step_cases (s : State) :
    (∃ rest, (s.schedule = [] ∧ rest = [] ∨ s.schedule = .x4mbu :: rest) ∧
      step s = x4mbuStep { s with schedule := rest }) ∨
      ∃ e rest, s.schedule = e :: rest ∧ e ≠ .x4mbu ∧ step s = eventStep e { s with schedule := rest } := by
  cases h : s.schedule with
  | nil => exact .inl ⟨[], .inl ⟨rfl, rfl⟩, by rw [step_of_schedule_nil h, ← h]⟩
  | cons e rest =>
    cases e with
    | x4mbu => exact .inl ⟨rest, .inr rfl, step_of_schedule_cons h⟩
    | _ => exact .inr ⟨_, rest, rfl, nofun, step_of_schedule_cons h⟩

/-- A table word placed by `withFetchWord` is in flight at its start, and the very next step executes its command (log
16). -/
theorem step_withFetchWord (s : State) {nbits w : Nat} {i : Instr} (h : decodeTableWord nbits w = some i) :
    step (s.withFetchWord nbits w) = exec i { s.withFetchWord nbits w with schedule := s.schedule } := by
  rw [step_of_schedule_cons (s := s.withFetchWord nbits w) (e := .x4mbu) (rest := s.schedule) rfl]
  show x4mbuStep { s.withFetchWord nbits w with schedule := s.schedule } = _
  exact x4mbuStep_of_exec (r := 0) (q := tableRequest nbits w) (p := .start) rfl h

/-! ## Submission -/

theorem portRequest_dataFits (cmd dw : Word) : (portRequest cmd dw).dataFits = true := by
  unfold Request.dataFits portRequest
  split <;> simp_all

/-- A submission is not enabled, or takes the slot, or is answered IllegalCommand (R100, R101). -/
theorem submit_cases (r : Nat) (cmd dw : Word) (s : State) :
    submit r cmd dw s = s ∨
      r < s.params.nreq ∧ Memory.get? s.req r = none ∧
        ((∃ i, decode? (portRequest cmd dw) = some i ∧
            submit r cmd dw s =
              { s with req := Memory.set s.req r (portRequest cmd dw), resp := Memory.erase s.resp r }) ∨
          decode? (portRequest cmd dw) = none ∧
            submit r cmd dw s = { s with resp := Memory.set s.resp r ⟨.illegalCommand, 0⟩ }) := by
  unfold submit
  split
  · next h =>
    refine .inr ⟨h.1, h.2, ?_⟩
    cases hd : decode? (portRequest cmd dw) with
    | some i => exact .inl ⟨i, rfl, rfl⟩
    | none => exact .inr ⟨rfl, rfl⟩
  · exact .inl rfl

/-! ## The response -/

/-- A read of a response is not enabled, because another requester holds the lock (R105), or clears the reader's slot
(R36). -/
theorem readResponse_cases (r : Nat) (s : State) :
    (∃ r', s.lockOwner = some r' ∧ r' ≠ r ∧ readResponse r s = s) ∨
      (s.lockOwner = none ∨ s.lockOwner = some r) ∧
        readResponse r s = { s with resp := Memory.erase s.resp r } := by
  unfold readResponse
  split
  · next h => exact .inr ⟨h, rfl⟩
  · next h =>
    cases hl : s.lockOwner with
    | none => exact absurd (.inl hl) h
    | some r' => exact .inl ⟨r', rfl, fun hr => h (.inr (hr ▸ hl)), rfl⟩

/-! ## The lock -/

/-- Giving up is not enabled, or ends the waiting request with Busy (R103). -/
theorem giveUp_cases (r : Nat) (s : State) :
    giveUp r s = s ∨
      ∃ q r', Memory.get? s.req r = some q ∧ s.lockOwner = some r' ∧ r' ≠ r ∧
        giveUp r s = { s with req := Memory.erase s.req r, resp := Memory.set s.resp r ⟨.busy, 0⟩ } := by
  unfold giveUp
  split
  · next q r' hq hl =>
    split
    · exact .inl rfl
    · next hne => exact .inr ⟨q, r', hq, hl, hne, rfl⟩
  · exact .inl rfl

/-- Acquiring is not enabled, or gives the free lock to the request (R102). -/
theorem acquire_cases (r : Nat) (s : State) :
    acquire r s = s ∨
      ∃ q, s.lockOwner = none ∧ s.pc = .idle ∧ Memory.get? s.req r = some q ∧
        acquire r s = { s with lockOwner := some r, pc := .exec r q .start } := by
  unfold acquire
  split
  · next q hl hp hq => exact .inr ⟨q, hl, hp, hq, rfl⟩
  · exact .inl rfl

theorem acquire_of_free {r : Nat} {s : State} {q : Request} (hl : s.lockOwner = none) (hp : s.pc = .idle)
    (hq : Memory.get? s.req r = some q) : acquire r s = { s with lockOwner := some r, pc := .exec r q .start } := by
  unfold acquire; rw [hl, hp, hq]

theorem mem_waiting {s : State} {r : Nat} (hwf : Memory.wf s.req) (h : r ∈ s.waiting) :
    ∃ q, Memory.get? s.req r = some q := by
  obtain ⟨c, hc, rfl⟩ := List.mem_map.1 h
  exact ⟨c.2, Memory.get?_of_mem hwf hc⟩

/-- Arbitration waits, or is an acquisition by some requester (R102, R104), for which a free choice may have been used. -/
theorem arbitrate_cases (s : State) :
    (s.waiting = [] ∧ arbitrate s = s) ∨
      ∃ r tick, r ∈ s.waiting ∧ arbitrate s = { acquire r s with tick := tick } := by
  unfold arbitrate
  split
  · next h => exact .inl ⟨h, rfl⟩
  · next r h =>
    refine .inr ⟨r, (acquire r s).tick, by simp [h], rfl⟩
  · next h1 h2 =>
    refine .inr ⟨_, _, ?_, rfl⟩
    have hpos : 0 < s.waiting.length := List.length_pos_iff.2 h1
    have hlt : Config.freeChoice s.tick % s.waiting.length < s.waiting.length := Nat.mod_lt _ hpos
    rw [List.getD_eq_getElem?_getD, List.getElem?_eq_getElem hlt]
    exact List.getElem_mem hlt

end Sys2Proof.Machine
end

