-- ==== Sys2Proof/Laws/PerInstr.lean ====
section
/-! SUPPORT. Facts stated of every command, one lemma per constructor. -/

namespace Sys2Proof.Laws.TableRow

/-- A command's word belongs to the row of the opcode table that carries its mnemonic (R82). -/
def Statement (i : Instr) : Prop :=
  ∃ row ∈ opcodeTable, row.mnemonic = i.mnemonic ∧ row.matches (encode i).cmd = true

/-- A word matches a row when its bytes do, each under its byte of the mask. -/
theorem matches_of_bytes (name : String) (op high mid low maskHigh maskMid maskLow : Byte)
    (h : high &&& maskHigh = 0) (hm : mid &&& maskMid = 0) (hl : low &&& maskLow = 0) :
    (OpcodeRow.mk name (packBytes op 0 0 0) (packBytes 0xFF maskHigh maskMid maskLow)).matches
      (packBytes op high mid low) = true := by
  have hop : op &&& 0xFF = op := BitVec.and_allOnes
  simp only [OpcodeRow.matches, packBytes_and, h, hm, hl, hop, beq_self_eq_true]

/-- The same for a word with a buffer index, which no mask covers. -/
theorem matches_of_idx (name : String) (op : Byte) (idx : Half) (low maskLow : Byte) (hl : low &&& maskLow = 0) :
    (OpcodeRow.mk name (packBytes op 0 0 0) (packBytes 0xFF 0 0 maskLow)).matches (packIdx op idx low) = true := by
  rw [packIdx_eq_packBytes]
  exact matches_of_bytes name op _ _ low 0 0 maskLow BitVec.and_zero BitVec.and_zero hl

theorem setDirect (addr val : Byte) : Statement (.setDirect addr val) :=
  ⟨_, List.mem_cons_self .., rfl, matches_of_bytes "SET_DIRECT" 0x01 addr val 0 0 0 0xFF BitVec.and_zero BitVec.and_zero rfl⟩

theorem getDirect (addr : Byte) : Statement (.getDirect addr) :=
  ⟨⟨"GET_DIRECT", 0x02000000, 0xFF00FFFF⟩, by simp [opcodeTable], rfl,
    matches_of_bytes "GET_DIRECT" 0x02 addr 0 0 0 0xFF 0xFF BitVec.and_zero rfl rfl⟩

theorem setInternal (addr kind val : Byte) : Statement (.setInternal addr kind val) :=
  ⟨⟨"SET_INTERNAL", 0x03000000, 0xFF000000⟩, by simp [opcodeTable], rfl,
    matches_of_bytes "SET_INTERNAL" 0x03 addr kind val 0 0 0 BitVec.and_zero BitVec.and_zero BitVec.and_zero⟩

theorem getInternal (addr kind : Byte) : Statement (.getInternal addr kind) :=
  ⟨⟨"GET_INTERNAL", 0x04000000, 0xFF0000FF⟩, by simp [opcodeTable], rfl,
    matches_of_bytes "GET_INTERNAL" 0x04 addr kind 0 0 0 0xFF BitVec.and_zero BitVec.and_zero rfl⟩

theorem fetchFrame : Statement .fetchFrame := ⟨⟨"FETCH_FRAME", 0x05000000, 0xFFFFFFFF⟩, by simp [opcodeTable], rfl, rfl⟩

theorem unpackRf : Statement .unpackRf := ⟨⟨"UNPACK_RF", 0x06000000, 0xFFFFFFFF⟩, by simp [opcodeTable], rfl, rfl⟩

theorem unpackIq : Statement .unpackIq := ⟨⟨"UNPACK_IQ", 0x07000000, 0xFFFFFFFF⟩, by simp [opcodeTable], rfl, rfl⟩

theorem readFrameNorm : Statement .readFrameNorm :=
  ⟨⟨"READ_FRAME_NORM", 0x08000000, 0xFFFFFFFF⟩, by simp [opcodeTable], rfl, rfl⟩

theorem cfgWrite (reg : Byte) (data : Word) : Statement (.cfgWrite reg data) :=
  ⟨⟨"CFG_WRITE", 0x10000000, 0xFF00FFFF⟩, by simp [opcodeTable], rfl,
    matches_of_bytes "CFG_WRITE" 0x10 reg 0 0 0 0xFF 0xFF BitVec.and_zero rfl rfl⟩

theorem cfgRead (reg : Byte) : Statement (.cfgRead reg) :=
  ⟨⟨"CFG_READ", 0x11000000, 0xFF00FFFF⟩, by simp [opcodeTable], rfl,
    matches_of_bytes "CFG_READ" 0x11 reg 0 0 0 0xFF 0xFF BitVec.and_zero rfl rfl⟩

theorem rawWrite (idx : Half) (val : Byte) : Statement (.rawWrite idx val) :=
  ⟨⟨"RAW_WRITE", 0x12000000, 0xFF000000⟩, by simp [opcodeTable], rfl,
    matches_of_idx "RAW_WRITE" 0x12 idx val 0 BitVec.and_zero⟩

theorem rawRead (idx : Half) : Statement (.rawRead idx) :=
  ⟨⟨"RAW_READ", 0x13000000, 0xFF0000FF⟩, by simp [opcodeTable], rfl, matches_of_idx "RAW_READ" 0x13 idx 0 0xFF rfl⟩

theorem outRead (idx : Half) : Statement (.outRead idx) :=
  ⟨⟨"OUT_READ", 0x14000000, 0xFF0000FF⟩, by simp [opcodeTable], rfl, matches_of_idx "OUT_READ" 0x14 idx 0 0xFF rfl⟩

end Sys2Proof.Laws.TableRow
end

