-- ==== Sys2Proof/Machine/Assembler.lean ====
section
/-! DEFINITION. The assembler syntax of spec/30_encoding.md R89 and the pseudo-command lines of R90: one line of text to the
command it stands for. No step of the machine uses it. What R89 leaves open of the text form is log 28. -/

namespace Sys2Proof.Machine.Asm

/-! ## Text -/

/-- A space or a tab. -/
def isBlank (c : Char) : Bool := c == ' ' || c == '\t'

/-- A text without blanks at either end. -/
def trim (t : List Char) : List Char := ((t.dropWhile isBlank).reverse.dropWhile isBlank).reverse

/-- The parts of a text between the occurrences of a character. -/
def splitAt (c : Char) : List Char → List (List Char)
  | [] => [[]]
  | x :: xs =>
    if x = c then [] :: splitAt c xs
    else
      match splitAt c xs with
      | part :: parts => (x :: part) :: parts
      | [] => [[x]]

/-! ## Numbers -/

/-- The value of a digit, hexadecimal ones included. -/
def digit? (c : Char) : Option Nat :=
  if '0' ≤ c ∧ c ≤ '9' then some (c.toNat - '0'.toNat)
  else if 'a' ≤ c ∧ c ≤ 'f' then some (c.toNat - 'a'.toNat + 10)
  else if 'A' ≤ c ∧ c ≤ 'F' then some (c.toNat - 'A'.toNat + 10)
  else none

/-- The number that digits of a base continue, from the digits read so far. -/
def digitsFrom (base acc : Nat) : List Char → Option Nat
  | [] => some acc
  | c :: cs =>
    match digit? c with
    | some d => if d < base then digitsFrom base (acc * base + d) cs else none
    | none => none

/-- One or more digits of a base. -/
def digits (base : Nat) (t : List Char) : Option Nat := if t.isEmpty then none else digitsFrom base 0 t

/-- A number of R89: decimal, or hexadecimal with `0x`. -/
def number : List Char → Option Nat
  | '0' :: 'x' :: rest => digits 16 rest
  | t => digits 10 t

/-- A number that fits a field of `width` bits (R88). -/
def field (width : Nat) (t : List Char) : Option (BitVec width) :=
  match number t with
  | some n => if n < 2 ^ width then some (BitVec.ofNat width n) else none
  | none => none

/-- The binary32 nearest to `num / den` (R89): the quotient to 200 binary places with one more place that says whether the
division left a rest, which is far below the last place of any binary32. -/
def roundRational (neg : Bool) (num den : Nat) : Word :=
  let scaled := num * 2 ^ 200
  F32.round neg (2 * (scaled / den) + (if scaled % den = 0 then 0 else 1)) 201

/-- A decimal fraction `d`, `d.d`, either with `e` and an exponent: its digits as one number, and the power of ten to
multiply and to divide it by. -/
def decimal (t : List Char) : Option (Nat × Nat × Nat) :=
  let parts := splitAt 'e' t
  let scale : Option (Nat × Nat) :=
    match parts with
    | [_] => some (0, 0)
    | [_, '-' :: e] => (digits 10 e).map fun n => (0, n)
    | [_, e] => (digits 10 e).map fun n => (n, 0)
    | _ => none
  match splitAt '.' (parts.headD []), scale with
  | [whole], some (up, down) => (digits 10 whole).map fun n => (n, up, down)
  | [whole, part], some (up, down) =>
    match digits 10 whole, digits 10 part with
    | some _, some _ => (digits 10 (whole ++ part)).map fun n => (n, up, down + part.length)
    | _, _ => none
  | _, _ => none

/-- The pattern of a decimal number with an optional minus sign. -/
def float (t : List Char) : Option Word :=
  let (neg, body) := match t with
    | '-' :: rest => (true, rest)
    | rest => (false, rest)
  (decimal body).map fun (n, up, down) => roundRational neg (n * 10 ^ up) (10 ^ down)

/-- A data word: a number, or `f32(x)` (R89). -/
def dataWord (t : List Char) : Option Word :=
  match t with
  | 'f' :: '3' :: '2' :: '(' :: rest =>
    if rest.getLast? = some ')' then float (trim rest.dropLast) else none
  | _ => field 32 t

/-- The names of R22 with their indices. -/
def registerNames : List (String × Byte) :=
  [ ("INITIALIZED", 0x00), ("DOWNCONV_EN", 0x01), ("IQ_SEPARATE", 0x02), ("BPC", 0x03), ("FRAME_READ_SIZE", 0x04),
    ("NFACTOR", 0x05), ("NORM_OFFSET", 0x06), ("FILTER_NORM", 0x07), ("ZERO_FRAME_CTR", 0x08), ("FRAME_COUNTER", 0x09),
    ("OUT_COUNT", 0x0A), ("LOCK_TIMEOUT_MS", 0x0B) ]

/-- A register operand: its name, or a number (R89). -/
def register (t : List Char) : Option Byte :=
  match registerNames.find? fun row => row.1.toList == t with
  | some row => some row.2
  | none => field 8 t

/-! ## Lines -/

/-- Two operands that both read. -/
def both {α β γ : Type} (f : α → β → γ) : Option α → Option β → Option γ
  | some a, some b => some (f a b)
  | _, _ => none

/-- A command line of R89 or a pseudo-command line of R90, from its mnemonic and its operands. -/
def command (p : Params) (mnemonic : String) (ops : List (List Char)) : Option Instr :=
  match mnemonic, ops with
  | "SET_DIRECT", [a, v] => both Instr.setDirect (field 8 a) (field 8 v)
  | "GET_DIRECT", [a] => (field 8 a).map Instr.getDirect
  | "SET_INTERNAL", [a, k, v] => both (fun g v => g v) (both Instr.setInternal (field 8 a) (field 8 k)) (field 8 v)
  | "GET_INTERNAL", [a, k] => both Instr.getInternal (field 8 a) (field 8 k)
  | "FETCH_FRAME", [] => some .fetchFrame
  | "UNPACK_RF", [] => some .unpackRf
  | "UNPACK_IQ", [] => some .unpackIq
  | "READ_FRAME_NORM", [] => some .readFrameNorm
  | "CFG_WRITE", [r, d] => both Instr.cfgWrite (register r) (dataWord d)
  | "CFG_READ", [r] => (register r).map Instr.cfgRead
  | "RAW_WRITE", [i, v] => both Instr.rawWrite (field 16 i) (field 8 v)
  | "RAW_READ", [i] => (field 16 i).map Instr.rawRead
  | "OUT_READ", [i] => (field 16 i).map Instr.outRead
  | "SET_SPI", [a, v] => both (fun a v => (Pseudo.setSpi a v).expand p) (field 8 a) (field 8 v)
  | "GET_SPI", [a] => (field 8 a).map fun a => (Pseudo.getSpi a).expand p
  | "SET_PIF", [a, v] => both (fun a v => (Pseudo.setPif a v).expand p) (field 8 a) (field 8 v)
  | "GET_PIF", [a] => (field 8 a).map fun a => (Pseudo.getPif a).expand p
  | "SET_XIF", [a, v] => both (fun a v => (Pseudo.setXif a v).expand p) (field 8 a) (field 8 v)
  | "GET_XIF", [a] => (field 8 a).map fun a => (Pseudo.getXif a).expand p
  | "SET_SWREG", [a, v] => both (fun a v => (Pseudo.setSwreg a v).expand p) (field 8 a) (field 8 v)
  | "GET_SWREG", [a] => (field 8 a).map fun a => (Pseudo.getSwreg a).expand p
  | "SW_ACTION", [a] => (field 8 a).map fun a => (Pseudo.swAction a).expand p
  | "CLEAR_ZERO_FRAMES", [] => some (Pseudo.clearZeroFrames.expand p)
  | _, _ => none

/-- What a line of assembler text holds. -/
inductive Line where
  /-- nothing, or a comment only -/
  | blank
  /-- one command -/
  | command (i : Instr)
  /-- no line of R89 or R90 -/
  | unreadable
  deriving DecidableEq, Repr

/-- One line of assembler text (R89): `;` starts a comment; a mnemonic, then operands separated by commas. -/
def assemble (p : Params) (text : String) : Line :=
  let code := trim ((splitAt ';' text.toList).headD [])
  if code.isEmpty then .blank
  else
    let name := code.takeWhile fun c => !isBlank c
    let rest := trim (code.dropWhile fun c => !isBlank c)
    let ops := if rest.isEmpty then [] else (splitAt ',' rest).map trim
    match command p (String.ofList name) ops with
    | some i => .command i
    | none => .unreadable

end Sys2Proof.Machine.Asm
end

