-- ==== Sys2Proof/Tests/Slice0.lean ====
section
/-! SUPPORT. Tests of the model against the words, tables and vectors of spec/ (ids of spec/95_test_vectors.md in the
comments), and for every obligation with hypotheses concrete states and operands that meet them. -/

namespace Sys2Proof.Tests

open Sys2Proof.Machine

/-- P0, the reference instance of R8, which the vectors use. -/
abbrev p0 : Params := Config.referenceInstance

/-! ## WellFormed: each check refuses an ill-formed term (R7, D6, log 4, log 12) -/

theorem test_p0_legal : p0.legal = true := by decide
theorem test_equal_status_bits_refused : { p0 with bitFromCpuValid := 0 }.legal = false := by decide
theorem test_raw_cap_range : ({ p0 with rawCap := 0 }.legal, { p0 with rawCap := 65536 }.legal, { p0 with rawCap := 65537 }.legal) = (false, true, false) := by decide
theorem test_out_cap_range : ({ p0 with outCap := 0 }.legal, { p0 with outCap := 65536 }.legal, { p0 with outCap := 65537 }.legal) = (false, true, false) := by decide
theorem test_no_requester_refused : { p0 with nreq := 0 }.legal = false := by decide
theorem test_no_drain_refused : { p0 with drainMax := 0 }.legal = false := by decide
theorem test_equal_kinds_refused : ({ p0 with kindXif := 0 }.legal, { p0 with kindPif := 2 }.legal, { p0 with kindPif := 3 }.legal) = (false, false, false) := by decide
theorem test_xif_kind_clash_refused : ({ p0 with kindXif := 2 }.legal, { p0 with kindXif := 3 }.legal) = (false, false) := by decide
theorem test_stray_data_word_refused : (Request.mk 0x05000000 1).dataFits = false := by decide
theorem test_data_word_of_cfg_write_accepted : (Request.mk 0x10050000 1).dataFits = true := by decide

/-! ## Decoding: one word per constructor, written out from R81 and R82 -/

theorem test_decode_set_direct : decode? ⟨0b00000001_00100010_01011010_00000000, 0⟩ = some (.setDirect 0x22 0x5A) := by decide
theorem test_decode_get_direct : decode? ⟨0b00000010_00010010_00000000_00000000, 0⟩ = some (.getDirect 0x12) := by decide
theorem test_decode_set_internal : decode? ⟨0b00000011_00110000_11101110_00000001, 0⟩ = some (.setInternal 0x30 0xEE 0x01) := by decide
theorem test_decode_get_internal : decode? ⟨0b00000100_01000100_00000001_00000000, 0⟩ = some (.getInternal 0x44 0x01) := by decide
theorem test_decode_fetch_frame : decode? ⟨0b00000101_00000000_00000000_00000000, 0⟩ = some .fetchFrame := by decide
theorem test_decode_unpack_rf : decode? ⟨0b00000110_00000000_00000000_00000000, 0⟩ = some .unpackRf := by decide
theorem test_decode_unpack_iq : decode? ⟨0b00000111_00000000_00000000_00000000, 0⟩ = some .unpackIq := by decide
theorem test_decode_read_frame_norm : decode? ⟨0b00001000_00000000_00000000_00000000, 0⟩ = some .readFrameNorm := by decide
theorem test_decode_cfg_write : decode? ⟨0b00010000_00000101_00000000_00000000, 0x3F000000⟩ = some (.cfgWrite 0x05 0x3F000000) := by decide
theorem test_decode_cfg_read : decode? ⟨0b00010001_00001011_00000000_00000000, 0⟩ = some (.cfgRead 0x0B) := by decide
theorem test_decode_raw_write : decode? ⟨0b00010010_00000001_11111110_00010001, 0⟩ = some (.rawWrite 0x01FE 0x11) := by decide
theorem test_decode_raw_read : decode? ⟨0b00010011_10000000_00000001_00000000, 0⟩ = some (.rawRead 0x8001) := by decide
theorem test_decode_out_read : decode? ⟨0b00010100_00000000_00000010_00000000, 0⟩ = some (.outRead 2) := by decide

/-- Vectors E1 to E9: every one of these words is illegal. -/
theorem test_illegal_words :
    [0x00000000, 0x09000000, 0x15000000, 0xFF000000, 0x01225A01, 0x02120001, 0x05000001, 0x06800000, 0x11050001, 0x04300201,
      0x13000001].all (fun c : Word => decode? ⟨c, 0⟩ == none && !legal c) = true := by decide

/-- The opcode table's match and mask, as spec/opcode_table.json gives them in order. -/
theorem test_opcode_table :
    opcodeTable.map (fun row => (row.value.toNat / 2 ^ 24, row.mask.toNat % 2 ^ 24)) =
      [(1, 0xFF), (2, 0xFFFF), (3, 0), (4, 0xFF), (5, 0xFFFFFF), (6, 0xFFFFFF), (7, 0xFFFFFF), (8, 0xFFFFFF), (16, 0xFFFF),
        (17, 0xFFFF), (18, 0), (19, 0xFF), (20, 0xFF)] := by decide

/-- No word belongs to two rows: any two differ in a bit both fix. -/
theorem test_rows_disjoint :
    opcodeTable.Pairwise (fun a b => a.mask &&& b.mask &&& (a.value ^^^ b.value) ≠ 0) := by decide

/-- A table word's data word stands in bits 63 to 32 (log 25), and is 0 where the row has 32 bits. -/
theorem test_table_words :
    (decodeTableWord 64 0x3F00000010050000, decodeTableWord 32 0x10050000, decodeTableWord 32 0x15000000) =
      (some (.cfgWrite 5 0x3F000000), some (.cfgWrite 5 0), none) := by decide

/-! ## Pseudo-commands and assembler text (R89, R90) -/

/-- The words M1, M2, M11, M13, H16 give for pseudo-commands. -/
theorem test_pseudo_commands :
    [Pseudo.setSwreg 0x30 0x01, .getSwreg 0x30, .setPif 0x10 0x55, .getXif 0x44, .swAction 0x01, .clearZeroFrames].map
        (fun c => (encode (c.expand p0)).cmd) =
      [0x03300201, 0x04300200, 0x03100055, 0x04440100, 0x03010300, 0x10080000] := by decide

theorem test_assemble_command :
    Asm.assemble p0 "CFG_WRITE NFACTOR, f32(0.5) ; half" = .command (.cfgWrite 5 0x3F000000) := by decide
theorem test_assemble_pseudo_command : Asm.assemble p0 "SW_ACTION 0x40" = .command (.setInternal 0x40 3 0) := by decide

/-! ## Small states -/

/-- `INITIALIZED` = 1, the rest as after reset. -/
def up : CfgRegs := { CfgRegs.reset with initialized := 1 }

/-- P0 right after reset, with requester 0's command `i` in flight at position `p`. -/
def flying (i : Instr) (p : Pos := .start) (cfg : CfgRegs := CfgRegs.reset) (chip : List SpiResult := [])
    (raw : Memory Byte := []) (out : Memory Word := []) : State :=
  { State.reset with
    params := p0
    cfg := cfg
    rawbuf := raw
    outbuf := out
    lockOwner := some 0
    pc := .exec 0 (encode i) p
    req := [(0, encode i)]
    chip := chip }

/-- P0 right after reset, Idle, with these requests and this schedule. -/
def waiting (req : Memory Request) (schedule : List Event) : State :=
  { State.reset with params := p0, req := req, schedule := schedule }

/-- What a step answers, as far as a test looks at it: STATUS code and RDATA of requester 0, if there is a response. -/
def response (o : Outcome) : Option (Byte × Word) :=
  match o with
  | .next t => (Memory.get? t.resp 0).map fun a => (a.status.code, a.rdata)
  | _ => none

/-- T after a step. -/
def traceOf (o : Outcome) : List TraceEntry :=
  match o with
  | .next t => t.trace
  | _ => []

/-- OUTBUF and ZERO_FRAME_CTR after a step. -/
def outputs (o : Outcome) : Memory Word × Nat :=
  match o with
  | .next t => (t.outbuf, t.cfg.zeroFrameCtr.toNat)
  | _ => ([], 99)

/-- Bytes at the indices from 0 on. -/
def bytesFrom0 (bs : List Byte) : Memory Byte := Memory.writeRange [] 0 bs

/-! ## Vectors of spec/95_test_vectors.md, one step each -/

/-- B1. -/
theorem test_B1_set_direct :
    let o := step (flying (.setDirect 0x22 0x5A) .start .reset [.ok []])
    (response o, traceOf o) = (some (0x00, 0), [⟨.write [0xA2, 0x5A], .ok []⟩]) := by decide

/-- B6. -/
theorem test_B6_set_direct_err :
    response (step (flying (.setDirect 0x22 0x5A) .start .reset [.err])) = some (0x06, 0) := by decide

/-- B4, its second transaction. -/
theorem test_B4_get_direct :
    response (step (flying (.getDirect 0x12) .directRecv .reset [.ok [0x5C]])) = some (0x00, 0x5C) := by decide

/-- B7. -/
theorem test_B7_get_direct_err :
    let o := step (flying (.getDirect 0x12) .start .reset [.err])
    (response o, traceOf o) = (some (0x06, 0), [⟨.write [0x12], .err⟩]) := by decide

/-- M1, its last transaction. -/
theorem test_M1_set_internal :
    response (step (flying (.setInternal 0x30 2 1) (.mailbox (.pollRecv 1)) up [.ok [0x01]])) = some (0x00, 0) := by decide

/-- M12: an unusual kind is queued as it is. -/
theorem test_M12_set_internal_kind :
    traceOf (step (flying (.setInternal 0x30 0xEE 1) (.mailbox (.queue 1)) up [.ok []])) =
      [⟨.write [0x90, 0xEE], .ok []⟩] := by decide

/-- M2, its last transaction. -/
theorem test_M2_get_internal :
    response (step (flying (.getInternal 0x30 2) (.mailbox (.replyRecv 1)) up [.ok [0x7F]])) = some (0x00, 0x7F) := by decide

/-- M7: poll 200 reads 0x01. -/
theorem test_M7_get_internal_timeout :
    response (step (flying (.getInternal 0x30 2) (.mailbox (.pollRecv 200)) up [.ok [0x01]])) = some (0x03, 0) := by decide

/-- F1, its raw read. -/
theorem test_F1_fetch_frame :
    let o := step (flying .fetchFrame (.raw 3 0x12A) up [.ok [0x02, 0x00, 0x04]])
    (response o, match o with | .next t => (t.rawbuf, t.cfg.frameCounter) | _ => ([], 0)) =
      (some (0x00, 0x12A), [(0, 0x02), (1, 0x00), (2, 0x04)], 0x12A) := by decide

/-- F4. -/
theorem test_F4_fetch_frame_too_large :
    response (step (flying .fetchFrame .start { up with frameReadSize := some 257 })) = some (0x04, 0) := by decide

/-- U1. -/
theorem test_U1_unpack_rf :
    let cfg := { CfgRegs.reset with frameReadSize := some 12, nfactor := some 0x3F000000, normOffset := some 0x3F800000 }
    let raw := bytesFrom0 [0x00, 0x00, 0x00, 0x02, 0x00, 0x00, 0x02, 0x01, 0x00, 0xFF, 0xFF, 0xFF]
    let o := step (flying .unpackRf .start cfg [] raw)
    (response o, outputs o) =
      (some (0x00, 4), [(0, 0xBF800000), (1, 0x00000000), (2, 0x43000000), (3, 0x4AFFFFFD)], 0) := by decide +kernel

/-- Z1: EPS itself counts as zero. -/
theorem test_Z1_unpack_rf_eps :
    let cfg := { CfgRegs.reset with frameReadSize := some 3, nfactor := some 0x34000000, normOffset := some 0 }
    outputs (step (flying .unpackRf .start cfg [] (bytesFrom0 [0x01, 0x00, 0x00]))) = ([(0, 0x34000000)], 1) := by decide +kernel

/-- Q2. -/
theorem test_Q2_unpack_iq :
    let cfg := { CfgRegs.reset with
      iqSeparate := 1, bpc := 6, frameReadSize := some 24, nfactor := some 0x3F800000, filterNorm := some 0x3E800000 }
    let raw := bytesFrom0 [0x04, 0x00, 0x00, 0x00, 0x00, 0x00, 0x08, 0x00, 0x00, 0x00, 0x00, 0x00,
      0xFC, 0xFF, 0xFF, 0xFF, 0xFF, 0xFF, 0xF8, 0xFF, 0xFF, 0xFF, 0xFF, 0xFF]
    let o := step (flying .unpackIq .start cfg [] raw)
    (response o, outputs o) =
      (some (0x00, 4), [(0, 0x3F800000), (1, 0xBF800000), (2, 0xC0000000), (3, 0x40000000)], 0) := by decide +kernel

/-- Q6: the scale is rounded once, before it meets a sample. -/
theorem test_Q6_unpack_iq_scale :
    let cfg := { CfgRegs.reset with frameReadSize := some 6, nfactor := some 0x3DCCCCCD, filterNorm := some 0x3E99999A }
    outputs (step (flying .unpackIq .start cfg [] (bytesFrom0 [0x0A, 0x00, 0x00, 0x0A, 0x00, 0x00]))) =
      ([(0, 0x3E99999A), (1, 0xBE99999A)], 0) := by decide +kernel

/-- N1, its unpack. -/
theorem test_N1_read_frame_norm :
    let cfg := { up with frameReadSize := some 6, nfactor := some 0x3F000000, normOffset := some 0x3F800000 }
    let o := step (flying .readFrameNorm (.unpack 7) cfg [] (bytesFrom0 [0x02, 0x00, 0x00, 0x04, 0x00, 0x00]))
    (response o, outputs o) = (some (0x00, 7), [(0, 0x00000000), (1, 0x3F800000)], 0) := by decide +kernel

/-- N3, its unpack. -/
theorem test_N3_read_frame_norm_width :
    response (step (flying .readFrameNorm (.unpack 7) { up with bpc := 5 })) = some (0x05, 0) := by decide

/-- H3: BPC keeps the low eight bits. -/
theorem test_H3_cfg_write :
    (match step (flying (.cfgWrite 3 0x106)) with | .next t => t.cfg.bpc | _ => 0) = 6 := by decide

/-- H6. -/
theorem test_H6_cfg_write_read_only : response (step (flying (.cfgWrite 9 5))) = some (0x07, 0) := by decide

/-- H4. -/
theorem test_H4_cfg_read : response (step (flying (.cfgRead 3))) = some (0x00, 3) := by decide

/-- H9. -/
theorem test_H9_cfg_read_unset : step (flying (.cfgRead 5)) = .fault .readUnset := rfl

/-- H11, its write. -/
theorem test_H11_raw_write :
    (match step (flying (.rawWrite 255 0x11)) with | .next t => t.rawbuf | _ => []) = [(255, 0x11)] := by decide

/-- H12. -/
theorem test_H12_raw_write_range : response (step (flying (.rawWrite 256 0))) = some (0x08, 0) := by decide

/-- H11, its read. -/
theorem test_H11_raw_read :
    response (step (flying (.rawRead 255) .start .reset [] [(255, 0x11)])) = some (0x00, 0x11) := by decide

/-- H13. -/
theorem test_H13_raw_read_unset : step (flying (.rawRead 0)) = .fault .readUnset := rfl

/-- H14. -/
theorem test_H14_out_read :
    response (step (flying (.outRead 2) .start .reset [] [] [(2, 0x43000000)])) = some (0x00, 0x43000000) := by decide

/-- H15. -/
theorem test_H15_out_read_range : response (step (flying (.outRead 128))) = some (0x08, 0) := by decide

/-! ## The life of a command -/

/-- E10: an illegal word is answered at once while another holds the lock. -/
theorem test_E10_illegal_at_submission :
    let s := { flying (.setInternal 0x30 2 1) (.mailbox (.pollSend 5)) up with schedule := [.submit 1 0x09000000 0] }
    (match step s with | .next t => (Memory.get? t.resp 1, Memory.get? t.req 1, t.pc == s.pc) | _ => (none, none, false)) =
      (some ⟨.illegalCommand, 0⟩, none, true) := by decide

/-- L1v (a): the waiting requester gives up. -/
theorem test_L1v_busy :
    let s := { flying (.setInternal 0x30 2 1) (.mailbox (.pollSend 5)) up with
      req := [(0, ⟨0x03300201, 0⟩), (1, ⟨0x02120000, 0⟩)], schedule := [.giveUp 1] }
    (match step s with | .next t => (t.resp, t.req) | _ => ([], [])) = ([(1, ⟨.busy, 0⟩)], [(0, ⟨0x03300201, 0⟩)]) := by decide

/-- A response is read while the lock is free, and not while another holds it (R36, R105). -/
theorem test_read_response_waits_for_the_lock :
    let s := { waiting [] [.readResponse 0] with resp := [(0, ⟨.ok, 5⟩), (1, ⟨.busy, 0⟩)] }
    let held := { flying .fetchFrame with resp := [(1, ⟨.ok, 5⟩)], schedule := [.readResponse 1] }
    (match step s with | .next t => t.resp | _ => []) = [(1, ⟨.busy, 0⟩)] ∧
      (match step held with | .next t => t.resp | _ => []) = [(1, ⟨.ok, 5⟩)] := by decide

/-- L3v: a submission clears the old response. -/
theorem test_L3v_resubmission :
    let s := { waiting [] [.submit 0 0x11030000 0] with resp := [(0, ⟨.ok, 5⟩)] }
    (match step s with | .next t => (t.resp, t.req) | _ => ([], [])) = ([], [(0, ⟨0x11030000, 0⟩)]) := by decide

/-! ## Witnesses: for every obligation with hypotheses, states and operands that meet them -/

theorem witness_EncodeOfDecodeIsTheRequest :
    decode ⟨0x10FF0000, 0xFFFFFFFF⟩ = .ok (.cfgWrite 0xFF 0xFFFFFFFF) ∧ (Request.mk 0x10FF0000 0xFFFFFFFF).dataFits = true := by
  decide

/-- The ends of every range of opcodes, listed and unlisted. -/
theorem witness_IllegalWordsAreRejectedByName :
    (∀ c ∈ [0x00000000, 0x09000000, 0x0F000000, 0x15000000, 0xFF000000],
      let op := (opcodeOf (BitVec.ofNat 32 c)).toNat
      op = 0x00 ∨ (0x09 ≤ op ∧ op ≤ 0x0F) ∨ 0x15 ≤ op) ∧
    ∀ c ∈ [0x01000001, 0x08000001, 0x10000001, 0x14000001],
      let op := (opcodeOf (BitVec.ofNat 32 c)).toNat
      ((1 ≤ op ∧ op ≤ 0x08) ∨ (0x10 ≤ op ∧ op ≤ 0x14)) ∧ legal (BitVec.ofNat 32 c) = false := by decide

theorem witness_StepExecutesTheCommandInFlight :
    let s := flying (.rawWrite 7 9)
    s.pc = .exec 0 ⟨0x12000709, 0⟩ .start ∧ decode ⟨0x12000709, 0⟩ = .ok (.rawWrite 7 9) ∧ s.schedule = [] ∧
      { s with schedule := [.x4mbu, .reset] }.schedule = .x4mbu :: [.reset] := by decide

theorem witness_SubmissionDecodesAtOnce :
    let s := waiting [(0, ⟨0x05000000, 0⟩)] [.submit 1 0x02120000 0]
    (s.schedule = [.submit 1 0x02120000 0] ∧ 1 < s.params.nreq ∧ Memory.get? s.req 1 = none ∧ legal 0x02120000 = true) ∧
      legal 0x02120001 = false ∧ s.params.nreq ≤ 2 ∧ Memory.get? s.req 0 ≠ none := by decide

theorem witness_AcquireTakesTheFreeLock :
    let s := waiting [(1, ⟨0x05000000, 0⟩)] [.grant 1]
    (s.schedule = [.grant 1] ∧ s.lockOwner = none ∧ s.pc = .idle ∧ Memory.get? s.req 1 = some ⟨0x05000000, 0⟩) ∧
      Memory.get? s.req 0 = none ∧ (flying .fetchFrame).lockOwner ≠ none ∧ (flying .fetchFrame).pc ≠ .idle := by decide

theorem witness_BusyEndsOnlyAWaitingRequest :
    let s := { flying .fetchFrame with req := [(0, ⟨0x05000000, 0⟩), (1, ⟨0x02120000, 0⟩)], schedule := [.giveUp 1] }
    (s.schedule = [.giveUp 1] ∧ Memory.get? s.req 1 = some ⟨0x02120000, 0⟩ ∧ s.lockOwner = some 0 ∧ 0 ≠ 1) ∧
      (waiting [(1, ⟨0x02120000, 0⟩)] [.giveUp 1]).lockOwner = none ∧ Memory.get? s.req 2 = none := by decide

theorem witness_IdleServesAWaitingRequestOrWaits :
    let s := waiting [(0, ⟨0x05000000, 0⟩), (1, ⟨0x02120000, 0⟩)] []
    (s.schedule = [] ∧ s.lockOwner = none ∧ s.pc = .idle ∧ Memory.wf s.req ∧ s.req ≠ []) ∧ (waiting [] []).req = [] := by decide

/-- The lock free, the reader's own, and another's. -/
theorem witness_ReadingAResponseClearsItsSlot :
    let s := { waiting [] [.readResponse 0] with resp := [(0, ⟨.ok, 5⟩), (1, ⟨.busy, 0⟩)] }
    (s.schedule = [.readResponse 0] ∧ Memory.wf s.resp ∧ s.lockOwner = none) ∧
      { s with lockOwner := some 0 }.lockOwner = some 0 ∧ { s with lockOwner := some 1 }.lockOwner = some 1 ∧ 1 ≠ 0 := by decide

/-- A step that stays in flight, and one that ends. -/
theorem witness_ExecutionEndsAllAtOnce :
    (∃ t, exec (.getDirect 0x12) (flying (.getDirect 0x12) .start .reset [.ok []]) = .next t ∧
      t.pc = .exec 0 ⟨0x02120000, 0⟩ .directRecv) ∧
    ∃ t, exec (.cfgRead 3) (flying (.cfgRead 3)) = .next t ∧ t.pc = .idle :=
  ⟨⟨_, rfl, by decide⟩, ⟨_, rfl, by decide⟩⟩

/-- P0 with a command in flight and a second requester waiting: the invariant holds. -/
def busyState (schedule : List Event) : State :=
  { flying (.setInternal 0x30 2 1) (.mailbox (.pollRecv 200)) up [.ok [0x00]] [(0, 1), (255, 2)] [(127, 3)] with
    req := [(0, ⟨0x03300201, 0⟩), (1, ⟨0x02120000, 0⟩)], resp := [(1, ⟨.ok, 5⟩)], schedule := schedule,
    trace := [⟨.read 1, .ok [7]⟩, ⟨.write [0x12], .err⟩] }

theorem busyState_inv : (busyState []).Inv := by constructor <;> decide

theorem witness_inv (schedule : List Event) : (busyState schedule).Inv :=
  let h := busyState_inv
  ⟨h.params, h.raw, h.out, h.slots, h.lock, h.requests, h.flight, h.outCount, h.responses, h.trace⟩

/-- Another agent's step while a command is in flight, and the step that ends it. -/
theorem witness_LockIsHeldToTheEnd :
    ((busyState [.giveUp 1]).Inv ∧ (busyState [.giveUp 1]).pc = .exec 0 ⟨0x03300201, 0⟩ (.mailbox (.pollRecv 200)) ∧
      (∃ t, step (busyState [.giveUp 1]) = .next t) ∧ (busyState [.giveUp 1]).schedule.head? = some (.giveUp 1)) ∧
    (busyState []).Inv ∧ (busyState []).schedule.head? = none ∧ ∃ t, step (busyState []) = .next t ∧ t.pc = .idle :=
  ⟨⟨witness_inv _, by decide, ⟨_, rfl⟩, by decide⟩, witness_inv _, by decide, _, rfl, by decide⟩

theorem witness_AtMostOneTransactionAStep :
    (∃ t, exec (.setDirect 1 2) (flying (.setDirect 1 2) .start .reset [.ok []]) = .next t) ∧
    ∃ t, step (busyState [.x4mbu]) = .next t ∧ (busyState [.x4mbu]).schedule.head? ≠ some .reset :=
  ⟨⟨_, rfl⟩, ⟨_, rfl, by decide⟩⟩

/-- What U3 reads: one byte, scaled by 1.0, offset 0.0. -/
def oneByte : CfgRegs :=
  { CfgRegs.reset with bpc := 1, frameReadSize := some 1, nfactor := some 0x3F800000, normOffset := some 0, filterNorm := some 0 }

/-- Each of the seven has a state in which it steps to a next state. -/
theorem witness_CommandsWithoutTransactionsEndAtOnce :
    (∃ t, exec .unpackRf (flying .unpackRf .start oneByte [] [(0, 0xFF)]) = .next t) ∧
    (∃ t, exec .unpackIq (flying .unpackIq .start oneByte [] [(0, 0xFF)]) = .next t) ∧
    (∃ t, exec (.cfgWrite 3 6) (flying (.cfgWrite 3 6)) = .next t) ∧
    (∃ t, exec (.cfgRead 3) (flying (.cfgRead 3)) = .next t) ∧
    (∃ t, exec (.rawWrite 0 1) (flying (.rawWrite 0 1)) = .next t) ∧
    (∃ t, exec (.rawRead 0) (flying (.rawRead 0) .start .reset [] [(0, 1)]) = .next t) ∧
    ∃ t, exec (.outRead 0) (flying (.outRead 0) .start .reset [] [] [(0, 1)]) = .next t :=
  ⟨⟨_, rfl⟩, ⟨_, rfl⟩, ⟨_, rfl⟩, ⟨_, rfl⟩, ⟨_, rfl⟩, ⟨_, rfl⟩, ⟨_, rfl⟩⟩

/-- B6 and F8: a failed write and a failed raw read. -/
theorem witness_ErrEndsTheCommandWithHwError :
    (flying (.setDirect 0x22 0x5A) .start .reset [.err]).pc = .exec 0 ⟨0x01225A00, 0⟩ .start ∧
    (∃ t, exec (.setDirect 0x22 0x5A) (flying (.setDirect 0x22 0x5A) .start .reset [.err]) = .next t ∧
      t.trace = [] ++ [⟨.write [0xA2, 0x5A], .err⟩]) ∧
    let s := flying .fetchFrame (.raw 6 7) up [.err]
    s.pc = .exec 0 ⟨0x05000000, 0⟩ (.raw 6 7) ∧
      ∃ t, exec .fetchFrame s = .next t ∧ t.trace = s.trace ++ [⟨.writeRead [0x13] 6, .err⟩] :=
  ⟨by decide, ⟨_, rfl, by decide⟩, by decide, _, rfl, by decide⟩

/-- The gate closed (B9), open by the parameter, open by INITIALIZED; both answers. -/
theorem witness_SetDirectWritesTheByte :
    let gated := { p0 with gateDirect := true }
    (gated.gateDirect = true ∧ CfgRegs.reset.initialized = 0) ∧ p0.gateDirect = false ∧ up.initialized ≠ 0 ∧
      (flying (.setDirect 0x22 0x5A) .start .reset [.ok []]).answer (.write [0x22 ||| p0.writeBit, 0x5A]) = .ok [] ∧
      (flying (.setDirect 0x22 0x5A) .start .reset [.err]).answer (.write [0x22 ||| p0.writeBit, 0x5A]) = .err := by decide

/-- The gate closed at the start, open, and past it; both answers to each transaction. -/
theorem witness_GetDirectReadsTheByte :
    (let s := { flying (.getDirect 0x12) with params := { p0 with gateDirect := true } }
     s.pc = .exec 0 ⟨0x02120000, 0⟩ .start ∧ s.params.gateDirect = true ∧ s.cfg.initialized = 0) ∧
    (flying (.getDirect 0x12)).pc = .exec 0 ⟨0x02120000, 0⟩ .start ∧ p0.gateDirect = false ∧
      (flying (.getDirect 0x12) .start .reset [.ok []]).answer (.write [0x12]) = .ok [] ∧
      (flying (.getDirect 0x12) .start .reset [.err]).answer (.write [0x12]) = .err ∧
      (flying (.getDirect 0x12) .directRecv).pc = .exec 0 ⟨0x02120000, 0⟩ .directRecv ∧
      (flying (.getDirect 0x12) .directRecv .reset [.ok [0x5C]]).answer (.read 1) = .ok [0x5C] ∧
      (flying (.getDirect 0x12) .directRecv .reset [.err]).answer (.read 1) = .err := by decide

theorem witness_MailboxCommandsNeedInitialized :
    ∀ i ∈ [Instr.setInternal 0x30 2 1, .getInternal 0x30 2, .fetchFrame, .readFrameNorm],
      (flying i).pc = .exec 0 (encode i) .start ∧ (flying i).cfg.initialized = 0 := by decide

/-- Each clause, the last two at the ends of the iterations. -/
theorem witness_DrainReadsUntilNothingIsValid :
    let at' := fun m chip => flying (.setInternal 0x30 2 1) (.mailbox m) up chip
    (flying (.getInternal 0x30 2)).pc = .exec 0 ⟨0x04300200, 0⟩ .start ∧ up.initialized ≠ 0 ∧
    (flying (.getInternal 0x30 2) .start up [.ok []]).answer (.write [0x12]) = .ok [] ∧
    (at' (.drainStatusSend 200) [.ok []]).answer (.write [0x12]) = .ok [] ∧
    (at' (.drainStatusRecv 200) [.ok [0x02]]).answer (.read 1) = .ok [0x02] ∧
    (at' (.drainStatusRecv 1) [.ok [0x01]]).answer (.read 1) = .ok [0x01] ∧
    (at' (.drainDataSend 1) [.ok []]).answer (.write [0x11]) = .ok [] ∧
    (at' (.drainDataRecv 199) [.ok [0xAA]]).answer (.read 1) = .ok [0xAA] ∧ 199 < p0.drainMax ∧
    (at' (.drainDataRecv 200) [.ok [0xAA]]).answer (.read 1) = .ok [0xAA] ∧ p0.drainMax ≤ 200 ∧
    (flying (.getInternal 0x30 2) .start up [.err]).answer (.write [0x12]) = .err ∧
    (at' (.drainStatusSend 1) [.err]).answer (.write [0x12]) = .err ∧
    (at' (.drainDataSend 200) [.err]).answer (.write [0x11]) = .err ∧
    (at' (.drainStatusRecv 1) [.err]).answer (.read 1) = .err ∧
    (at' (.drainDataRecv 200) [.err]).answer (.read 1) = .err := by decide

/-- The first and the last queued byte of both commands, written and failed. -/
theorem witness_QueueWritesAddressKindValue :
    ([0x30, 2, 1] : List Byte)[0]? = some 0x30 ∧ ([0x30, 2, 1] : List Byte)[2]? = some 1 ∧
      ([0x30, 2] : List Byte)[1]? = some 2 ∧
      (flying (.setInternal 0x30 2 1) (.mailbox (.queue 2)) up [.ok []]).answer (.write [0x10 ||| 0x80, 1]) = .ok [] ∧
      (flying (.getInternal 0x30 2) (.mailbox (.queue 1)) up [.ok []]).answer (.write [0x10 ||| 0x80, 2]) = .ok [] ∧
      (flying (.getInternal 0x30 2) (.mailbox (.queue 1)) up [.err]).answer (.write [0x10 ||| 0x80, 2]) = .err := by decide

/-- Success whatever "from-CPU valid" is, a failure at poll 199 and at poll 200. -/
theorem witness_SetInternalPollsForToCpuEmpty :
    let at' := fun m chip => flying (.setInternal 0x30 2 1) (.mailbox m) up chip
    (at' (.pollSend 200) [.ok []]).answer (.write [0x12]) = .ok [] ∧
    (at' (.pollRecv 200) [.ok [0x01]]).answer (.read 1) = .ok [0x01] ∧ (0x01 : Byte).getLsbD p0.bitToCpuEmpty.val = true ∧
    (0x03 : Byte).getLsbD p0.bitToCpuEmpty.val = true ∧
    (at' (.pollRecv 199) [.ok [0x02]]).answer (.read 1) = .ok [0x02] ∧ (0x02 : Byte).getLsbD p0.bitToCpuEmpty.val = false ∧
    199 < 200 ∧ (at' (.pollSend 200) [.err]).answer (.write [0x12]) = .err ∧
    (at' (.pollRecv 200) [.err]).answer (.read 1) = .err := by decide

theorem witness_GetInternalPollsForBothBits :
    let at' := fun m chip => flying (.getInternal 0x30 2) (.mailbox m) up chip
    let ready := fun b : Byte => b.getLsbD p0.bitFromCpuValid.val && b.getLsbD p0.bitToCpuEmpty.val
    (at' (.pollSend 1) [.ok []]).answer (.write [0x12]) = .ok [] ∧
    (at' (.pollRecv 200) [.ok [0x03]]).answer (.read 1) = .ok [0x03] ∧ ready 0x03 = true ∧
    (at' (.pollRecv 199) [.ok [0x01]]).answer (.read 1) = .ok [0x01] ∧ ready 0x01 = false ∧ ready 0x02 = false ∧
    (at' (.replySend 200) [.ok []]).answer (.write [0x11]) = .ok [] ∧
    (at' (.replyRecv 200) [.ok [0x7F]]).answer (.read 1) = .ok [0x7F] ∧
    (at' (.pollSend 200) [.err]).answer (.write [0x12]) = .err ∧
    (at' (.replySend 1) [.err]).answer (.write [0x11]) = .err ∧
    (at' (.pollRecv 200) [.err]).answer (.read 1) = .err ∧
    (at' (.replyRecv 1) [.err]).answer (.read 1) = .err := by decide

/-- M3's two stale bytes, then a poll that fails and one that succeeds. -/
theorem witness_SetInternalMakesItsTransactions :
    let stale : List (Byte × Byte) := [(0x02, 0xAA), (0x03, 0xBB)]
    let s := flying (.setInternal 0x30 2 1) .start up
      (drainAnswers stale ++ byteAnswers 0x01 ++ writeAnswers 3 ++ statusAnswers [0x00] ++ byteAnswers 0x01 ++ [])
    s.schedule = [] ∧ s.pc = .exec 0 ⟨0x03300201, 0⟩ .start ∧ decode ⟨0x03300201, 0⟩ = .ok (.setInternal 0x30 2 1) ∧
      s.cfg.initialized ≠ 0 ∧ stale.length < s.params.drainMax ∧ stale.all (fun c => fromCpuValid s.params c.1) = true ∧
      fromCpuValid s.params 0x01 = false ∧ (∀ b ∈ [(0x00 : Byte)], toCpuEmpty s.params b = false) ∧
      toCpuEmpty s.params 0x01 = true := by decide +kernel

/-- M6. -/
theorem witness_GetInternalMakesItsTransactions :
    let s := flying (.getInternal 0x30 2) .start up
      (drainAnswers [] ++ byteAnswers 0x01 ++ writeAnswers 2 ++ statusAnswers [0x01, 0x02] ++ byteAnswers 0x03 ++
        byteAnswers 0x11 ++ [])
    s.schedule = [] ∧ s.pc = .exec 0 ⟨0x04300200, 0⟩ .start ∧ decode ⟨0x04300200, 0⟩ = .ok (.getInternal 0x30 2) ∧
      s.cfg.initialized ≠ 0 ∧ 0 < s.params.drainMax ∧ fromCpuValid s.params 0x01 = false ∧
      (∀ b ∈ [(0x01 : Byte), 0x02], readReady s.params b = false) ∧ readReady s.params 0x03 = true := by decide +kernel

/-- M5 and M7: both commands. -/
theorem witness_SetInternalTimesOutAfter200Polls :
    (let failed : List Byte := List.replicate 200 0x00
     let s := flying (.setInternal 0x30 2 1) .start up
       (drainAnswers [] ++ byteAnswers 0x01 ++ writeAnswers 3 ++ statusAnswers failed ++ [])
     s.schedule = [] ∧ s.pc = .exec 0 ⟨0x03300201, 0⟩ .start ∧ decode ⟨0x03300201, 0⟩ = .ok (.setInternal 0x30 2 1) ∧
       s.cfg.initialized ≠ 0 ∧ 0 < s.params.drainMax ∧ fromCpuValid s.params 0x01 = false ∧ failed.length = 200 ∧
       ∀ b ∈ failed, toCpuEmpty s.params b = false) ∧
    let failed : List Byte := List.replicate 200 0x01
    let s := flying (.getInternal 0x30 2) .start up
      (drainAnswers [] ++ byteAnswers 0x01 ++ writeAnswers 2 ++ statusAnswers failed ++ [])
    s.schedule = [] ∧ s.pc = .exec 0 ⟨0x04300200, 0⟩ .start ∧ decode ⟨0x04300200, 0⟩ = .ok (.getInternal 0x30 2) ∧
      s.cfg.initialized ≠ 0 ∧ 0 < s.params.drainMax ∧ fromCpuValid s.params 0x01 = false ∧ failed.length = 200 ∧
      ∀ b ∈ failed, fromCpuValid s.params b = false ∨ toCpuEmpty s.params b = false :=
  ⟨⟨rfl, rfl, by decide, by decide, by decide, by decide, List.length_replicate ..,
      fun b h => (List.eq_of_mem_replicate h).symm ▸ (by decide : toCpuEmpty p0 0x00 = false)⟩,
    rfl, rfl, by decide, by decide, by decide, by decide, List.length_replicate ..,
    fun b h => (List.eq_of_mem_replicate h).symm ▸
      (by decide : fromCpuValid p0 0x01 = false ∨ toCpuEmpty p0 0x01 = false)⟩

/-- M8, at a bound of one status read. -/
theorem witness_DrainTimesOutAfterItsBound :
    let stale : List (Byte × Byte) := [(0x02, 0xAA)]
    let s := { flying (.getInternal 0x30 2) .start up (drainAnswers stale ++ []) with params := { p0 with drainMax := 1 } }
    s.schedule = [] ∧ s.pc = .exec 0 ⟨0x04300200, 0⟩ .start ∧ decode ⟨0x04300200, 0⟩ = .ok (.getInternal 0x30 2) ∧
      s.cfg.initialized ≠ 0 ∧ 0 < stale.length ∧ stale.length = s.params.drainMax ∧
      stale.all (fun c => fromCpuValid s.params c.1) = true ∧ s.chip = drainAnswers stale ++ [] := by decide +kernel

/-- F5, F4 and the largest size F4 accepts. -/
theorem witness_FetchChecksItsSizeFirst :
    let s := fun frs chip => flying .readFrameNorm .start { up with frameReadSize := frs } chip
    (s none []).pc = .exec 0 ⟨0x08000000, 0⟩ .start ∧ (s none []).cfg.initialized ≠ 0 ∧ (s none []).cfg.frameReadSize = none ∧
      p0.rawCap < (257 : Word).toNat ∧ (256 : Word).toNat ≤ p0.rawCap ∧ (s (some 256) [.ok []]).answer (.write [0x12]) = .ok [] ∧
      (s (some 256) [.err]).answer (.write [0x12]) = .err := by
  decide

/-- A move, an error and the completion of an access, of the kinds that the fetch makes. -/
theorem witness_FetchAccessesRunAsMailboxCommands :
    let read := flying .fetchFrame (.counter 6 3 0 (.pollRecv 200)) up [.ok [0x00]]
    let write := flying .readFrameNorm (.action 6 7 (.pollRecv 1)) up [.ok [0x01]]
    (read.pc = .exec 0 ⟨0x05000000, 0⟩ (.counter 6 3 0 (.pollRecv 200)) ∧
      exec (.getInternal p0.fcAddr[(3 : Fin 4)] 2) (read.at 0 ⟨0x05000000, 0⟩ (.mailbox (.pollRecv 200))) =
        .next ((read.after (.read 1) (.ok [0x00])).ended 0 .pifTimeout 0)) ∧
    (write.pc = .exec 0 ⟨0x08000000, 0⟩ (.action 6 7 (.pollRecv 1)) ∧
      exec (.setInternal p0.fetchActionAddr 3 p0.actionArg) (write.at 0 ⟨0x08000000, 0⟩ (.mailbox (.pollRecv 1))) =
        .next ((write.after (.read 1) (write.answer (.read 1))).ended 0 .ok 0)) ∧
    exec (.setInternal p0.fetchActionAddr 3 p0.actionArg)
        ({ write with chip := [.ok [0x00]] }.at 0 ⟨0x08000000, 0⟩ (.mailbox (.pollRecv 199))) =
      .next ((({ write with chip := [.ok [0x00]] }).after (.read 1) (.ok [0x00])).at 0 ⟨0x08000000, 0⟩
        (.mailbox (.pollSend 200))) := ⟨⟨rfl, rfl⟩, ⟨rfl, rfl⟩, rfl⟩

theorem witness_FrameCounterIsLittleEndian :
    ∀ j ∈ [(0 : Fin 4), 2, 3],
      let s := flying .fetchFrame (.counter 6 j 0 (.replyRecv 1)) up [.ok [0x2A]]
      s.pc = .exec 0 ⟨0x05000000, 0⟩ (.counter 6 j 0 (.replyRecv 1)) ∧ s.answer (.read 1) = .ok [0x2A] := by decide

/-- F1's raw read, F6's raw read of nothing, and F8's failed one. -/
theorem witness_FetchCommitsOnlyAtItsRawRead :
    (flying .fetchFrame (.raw 3 7) up [.ok [1, 2, 3]]).answer (.writeRead [0x13] 3) = .ok [1, 2, 3] ∧
    (flying .fetchFrame (.raw 0 7) up [.ok []]).answer (.writeRead [0x13] 0) = .ok [] ∧
    (flying .fetchFrame (.raw 3 7) up [.err]).answer (.writeRead [0x13] 3) = .err ∧
    ∃ t, exec .fetchFrame (flying .fetchFrame (.raw 3 7) up [.err]) = .next t :=
  ⟨by decide, by decide, by decide, _, rfl⟩

/-- F1. -/
theorem witness_CooperativeFetchMakes40Transactions :
    let counterAnswers := fun b => byteAnswers 0x01 ++ writeAnswers 2 ++ byteAnswers 0x03 ++ byteAnswers b
    let actionAnswers := byteAnswers 0x01 ++ writeAnswers 3 ++ byteAnswers 0x01
    let raw : List Byte := [0x02, 0x00, 0x00, 0x04, 0x00, 0x00]
    let s := flying .fetchFrame .start { up with frameReadSize := some 6 }
      (counterAnswers 0x2A ++ counterAnswers 0x01 ++ counterAnswers 0x00 ++ counterAnswers 0x00 ++ actionAnswers
        ++ [.ok raw] ++ [])
    s.chip = counterAnswers 0x2A ++ counterAnswers 0x01 ++ counterAnswers 0x00 ++ counterAnswers 0x00 ++ actionAnswers
        ++ [.ok raw] ++ [] ∧
      s.schedule = [] ∧ s.pc = .exec 0 ⟨0x05000000, 0⟩ .start ∧ decode ⟨0x05000000, 0⟩ = .ok .fetchFrame ∧
      s.cfg.initialized ≠ 0 ∧ s.params.legal = true ∧ s.cfg.frameReadSize = some 6 ∧ (6 : Word).toNat ≤ s.params.rawCap ∧
      raw.length = (6 : Word).toNat ∧ fromCpuValid s.params 0x01 = false ∧
      toCpuEmpty s.params 0x01 = true ∧ readReady s.params 0x03 = true := by decide +kernel

/-- U4's counter, and one with an UNSET byte. -/
theorem witness_CounterIsLittleEndian :
    counter (bytesFrom0 [0x34, 0x12]) 0 2 = some 0x1234 ∧ counter (bytesFrom0 [0x34]) 0 2 = none := by decide

/-- Q3's and Q4's counters: the least, the greatest and -1. -/
theorem witness_SignExtensionIsTwosComplement :
    (1 ≤ 3 ∧ 0x800000 < 2 ^ (8 * 3) ∧ 0xFFFFFF < 2 ^ (8 * 3)) ∧
      (signExtend 3 0x800000, signExtend 3 0x7FFFFF, signExtend 3 0xFFFFFF) = (-8388608, 8388607, -1) := by decide

/-- U2's width 4, and U8's empty frame. -/
theorem witness_UnpackRfNormalizesEveryCounter :
    RfReady (flying .unpackRf .start
      { CfgRegs.reset with bpc := 4, frameReadSize := some 4, nfactor := some 0x3F000000, normOffset := some 0x3F800000 } []
      (bytesFrom0 [0x01, 0x00, 0x00, 0x01])) 4 1 0x3F000000 0x3F800000 ∧
    RfReady (flying .unpackRf .start
      { CfgRegs.reset with frameReadSize := some 0, nfactor := some 0x3F800000, normOffset := some 0 }) 3 0 0x3F800000 0 :=
  ⟨⟨by decide, ⟨4, by decide⟩, by decide, by decide, by decide⟩, ⟨by decide, ⟨0, by decide⟩, by decide, by decide, by decide⟩⟩

/-- Q7's width 6, both orders of the samples. -/
theorem witness_UnpackIqNormalizesEverySample :
    ∀ separate ∈ [(0 : BitVec 1), 1],
      IqReady (flying .unpackIq .start
        { CfgRegs.reset with
          iqSeparate := separate, bpc := 6, frameReadSize := some 12, nfactor := some 0x3F800000, filterNorm := some 0x3F800000 }
        [] (bytesFrom0 (List.replicate 12 0))) 6 2 0x3F800000 0x3F800000 :=
  List.forall_mem_cons.2
    ⟨⟨by decide, ⟨12, by decide⟩, by decide, by decide, by decide⟩,
      List.forall_mem_singleton.2 ⟨by decide, ⟨12, by decide⟩, by decide, by decide, by decide⟩⟩

/-- U10, U9, an UNSET size, U11, U12, U14, U15. -/
theorem witness_UnpackRfChecksInOrder :
    (flying .unpackRf .start { oneByte with bpc := 0 }).cfg.bpc = 0 ∧ 4 < (5 : Byte).toNat ∧
      ((4 : Byte) ≠ 0 ∧ (4 : Byte).toNat ≤ 4 ∧ CfgRegs.reset.frameReadSize = none) ∧ p0.rawCap < (257 : Word).toNat ∧
      p0.outCap < (129 : Word).toNat / (1 : Byte).toNat ∧
      ((256 : Word).toNat ≤ p0.rawCap ∧ (256 : Word).toNat / (2 : Byte).toNat ≤ p0.outCap ∧ CfgRegs.reset.nfactor = none) ∧
      ∃ k, k < (6 : Word).toNat / (3 : Byte).toNat * (3 : Byte).toNat ∧ Memory.get? (bytesFrom0 [0, 0, 0]) k = none :=
  ⟨by decide, by decide, by decide, by decide, by decide, by decide, 3, by decide, by decide⟩

/-- Q10, an UNSET size, a raw size above P_RAW_CAP, Q12, Q13. -/
theorem witness_UnpackIqChecksInOrder :
    (flying .unpackIq .start { oneByte with bpc := 0 }).cfg.bpc = 0 ∧ 6 < (7 : Byte).toNat ∧
      ((6 : Byte) ≠ 0 ∧ (6 : Byte).toNat ≤ 6 ∧ CfgRegs.reset.frameReadSize = none) ∧ p0.rawCap < (257 : Word).toNat ∧
      p0.outCap < 2 * ((130 : Word).toNat / (2 * (1 : Byte).toNat)) ∧
      ((12 : Word).toNat ≤ p0.rawCap ∧ 2 * ((12 : Word).toNat / (2 * (6 : Byte).toNat)) ≤ p0.outCap ∧
        CfgRegs.reset.filterNorm = none) ∧
      ∃ k, k < 2 * ((12 : Word).toNat / (2 * (6 : Byte).toNat)) * (6 : Byte).toNat ∧
        Memory.get? (bytesFrom0 (List.replicate 11 0)) k = none :=
  ⟨by decide, by decide, by decide, by decide, by decide, by decide, 11, by decide, by decide⟩

/-- Z6's zero frame at the cap, Z8's frame that is none. -/
theorem witness_ZeroFramesAreCountedUpToTheCap :
    p0.legal = true ∧
    (∀ b ∈ [(0x00 : Byte), 0x01],
      let s := flying .unpackRf .start { oneByte with zeroFrameCtr := 3 } [] [(0, b)]
      (match exec .unpackRf s with
        | .next t => Memory.get? t.resp 0 == some ⟨.ok, 1⟩ && t.cfg.zeroFrameCtr == (if b = 0 then 3 else 0)
        | _ => false) = true) := by decide +kernel

/-- N1, N3 and N5 at the unpack; F1's raw read before it, and N4's failed one. -/
theorem witness_ReadFrameNormFetchesThenUnpacks :
    (flying .readFrameNorm (.raw 1 7) up [.ok [5]]).answer (.writeRead [0x13] 1) = .ok [5] ∧
    (flying .readFrameNorm (.raw 1 7) up [.err]).answer (.writeRead [0x13] 1) = .err ∧
    (match exec .unpackRf (flying .readFrameNorm (.unpack 7) oneByte [] [(0, 5)]) with
      | .next t => Memory.get? t.resp 0 == some ⟨.ok, 1⟩
      | _ => false) = true ∧
    exec .unpackRf (flying .readFrameNorm (.unpack 7) { oneByte with bpc := 5 }) =
      .next ((flying .readFrameNorm (.unpack 7) { oneByte with bpc := 5 }).ended 0 .unpackCounterTooLarge 0) ∧
    exec .unpackIq (flying .readFrameNorm (.unpack 7) { oneByte with downconvEn := 1, frameReadSize := none }) =
      .fault .readUnset := ⟨by decide, by decide, by decide, rfl, rfl⟩

/-- Both paths. -/
theorem witness_ReadFrameNormCompletes :
    ((flying .readFrameNorm (.unpack 7) oneByte).pc = .exec 0 ⟨0x08000000, 0⟩ (.unpack 7) ∧ oneByte.downconvEn = 0 ∧
      RfReady (flying .readFrameNorm (.unpack 7) oneByte [] [(0, 5)]) 1 1 0x3F800000 0) ∧
    let s := flying .readFrameNorm (.unpack 7) { oneByte with downconvEn := 1 }
    s.cfg.downconvEn ≠ 0 ∧ IqReady s 1 0 0x3F800000 0 :=
  ⟨⟨by decide, by decide, ⟨by decide, ⟨1, by decide⟩, by decide, by decide, by decide⟩⟩,
    by decide, ⟨by decide, ⟨1, by decide⟩, by decide, by decide, by decide⟩⟩

/-- The greatest counters of both signs, and U5's tie. -/
theorem witness_IntToFloatRoundsToNearestEven :
    ((2 ^ 47 - 1 : Int).natAbs < 2 ^ 48 ∧ (-(2 ^ 47) : Int).natAbs < 2 ^ 48 ∧ F32.isFinite 0x4B800000 = true) ∧
      (F32.ofInt (2 ^ 47 - 1), F32.ofInt (-(2 ^ 47)), F32.ofInt (2 ^ 24 + 1)) = (0x57000000, 0xD7000000, 0x4B800000) := by decide

/-- A product below the overflow threshold, at the largest number, and above it. -/
theorem witness_MultiplyRoundsToNearestEven :
    (F32.isFinite 0x7F7FFFFF = true ∧ F32.isFinite 0x3F800000 = true ∧
      (F32.value 0x7F7FFFFF * F32.value 0x3F800000).natAbs < (2 ^ 25 - 1) * 2 ^ 401) ∧
    (2 ^ 25 - 1) * 2 ^ 401 ≤ (F32.value 0x7F7FFFFF * F32.value 0x3F800001).natAbs := by decide +kernel

theorem witness_SubtractRoundsToNearestEven :
    (F32.isFinite 0x7F7FFFFF = true ∧ F32.isFinite 0x72FFFFFF = true ∧
      (F32.value 0x7F7FFFFF - F32.value 0xF2FFFFFF).natAbs < (2 ^ 25 - 1) * 2 ^ 252) ∧
    (2 ^ 25 - 1) * 2 ^ 252 ≤ (F32.value 0x7F7FFFFF - F32.value 0xF3000000).natAbs ∧
    (F32.isFinite 0x80000000 = true ∧ F32.isFinite 0x00000000 = true ∧ F32.value 0x80000000 = F32.value 0x00000000) := by
  decide +kernel

theorem witness_NaNAndInfinityFollowIeee :
    F32.isNaN 0x7FC00000 = true ∧ F32.isInf 0xFF800000 = true ∧ F32.isInf 0x7F800000 = true ∧
      (F32.isFinite 0x80000000 = true ∧ F32.value 0x80000000 = 0) ∧ (F32.isFinite 0x00000001 = true ∧ F32.value 0x00000001 ≠ 0) ∧
      F32.sign 0xFF800000 ≠ F32.sign 0x7F800000 := by decide

theorem witness_CompareAndNegateFollowIeee :
    F32.isFinite 0x80000000 = true ∧ F32.isFinite 0x7F7FFFFF = true ∧ F32.isNaN 0xFFFFFFFF = true ∧
      (F32.isInf 0xFF800000 = true ∧ F32.isNaN 0xFF800000 = false) ∧
      (F32.isInf 0x7F800000 = true ∧ F32.isNaN 0x7F800000 = false) ∧ 31 < 32 := by decide

/-- The reserved and read-only indices, the last register, the four narrow ones. -/
theorem witness_CfgWriteWritesOneRegister :
    (flying (.cfgWrite 0x0B 1)).pc = .exec 0 ⟨0x100B0000, 1⟩ .start ∧ 0x0C ≤ (0x0C : Byte).toNat ∧
      (∀ reg ∈ [(0x00 : Byte), 0x02, 0x03, 0x04, 0x08, 0x0B], reg.toNat ≤ 0x0B ∧ reg ≠ 0x09 ∧ reg ≠ 0x0A) := by decide

theorem witness_CfgReadReturnsTheRegister :
    (flying (.cfgRead 0x0B)).pc = .exec 0 ⟨0x110B0000, 0⟩ .start ∧ 0x0C ≤ (0x0C : Byte).toNat ∧ (0x0B : Byte).toNat < 0x0C ∧
      CfgReg.ofIndex 0x0B = some .lockTimeoutMs ∧ CfgRegs.reset.read .lockTimeoutMs = none ∧ CfgRegs.reset.read .bpc = some 3 := by
  decide

theorem witness_RawWriteWritesOneCell :
    (flying (.rawWrite 255 0x11)).pc = .exec 0 ⟨0x1200FF11, 0⟩ .start ∧ p0.rawCap ≤ (256 : Half).toNat ∧
      (255 : Half).toNat < p0.rawCap := by decide

theorem witness_RawReadReturnsTheCell :
    (flying (.rawRead 255)).pc = .exec 0 ⟨0x1300FF00, 0⟩ .start ∧ p0.rawCap ≤ (256 : Half).toNat ∧
      (255 : Half).toNat < p0.rawCap ∧ Memory.get? [(255, (0x11 : Byte))] (255 : Half).toNat = some 0x11 ∧
      Memory.get? (flying (.rawRead 255)).rawbuf (255 : Half).toNat = none := by decide

theorem witness_OutReadReturnsTheCell :
    (flying (.outRead 127)).pc = .exec 0 ⟨0x14007F00, 0⟩ .start ∧ p0.outCap ≤ (128 : Half).toNat ∧
      (127 : Half).toNat < p0.outCap ∧ Memory.get? [(127, (0x43000000 : Word))] (127 : Half).toNat = some 0x43000000 ∧
      Memory.get? (flying (.outRead 127)).outbuf (127 : Half).toNat = none := by decide

/-- U10 and H13: both faults come up. -/
theorem witness_OnlyTheNamedFaultsAndNoRefusal :
    exec .unpackRf (flying .unpackRf .start { oneByte with bpc := 0 }) = .fault .counterWidthZero ∧
      exec (.rawRead 0) (flying (.rawRead 0)) = .fault .readUnset := ⟨rfl, rfl⟩

/-- M5's last step ends with an error; N1's raw read commits and stays in flight. -/
theorem witness_ErrorsLeaveRegistersAndBuffers :
    (∃ t, exec (.setInternal 0x30 2 1) (busyState []) = .next t ∧ t.pc = .idle ∧
      Memory.get? t.resp 0 = some ⟨.pifTimeout, 0⟩ ∧ Status.pifTimeout ≠ .ok) ∧
    ∃ t, exec .readFrameNorm (flying .readFrameNorm (.raw 1 7) up [.ok [5]]) = .next t ∧ t.pc ≠ .idle :=
  ⟨⟨_, rfl, by decide, by decide, by decide⟩, ⟨_, rfl, by decide⟩⟩

theorem witness_CommandsWriteOnlyTheirOwnState :
    ∃ t, exec (.rawWrite 0 1) (flying (.rawWrite 0 1)) = .next t ∧ t.rawbuf = [(0, 1)] := ⟨_, rfl, by decide⟩

/-- The host's write, and a reset. -/
theorem witness_InitializedIsTheHostsAlone :
    (∃ t, step (flying (.cfgWrite 0 1)) = .next t ∧ t.cfg.initialized ≠ (flying (.cfgWrite 0 1)).cfg.initialized) ∧
    ∃ t, step (busyState [.reset]) = .next t ∧ t.cfg.initialized ≠ (busyState [.reset]).cfg.initialized :=
  ⟨⟨_, rfl, by decide⟩, ⟨_, rfl, by decide⟩⟩

theorem witness_ResetAbandonsTheCommand : (busyState [.reset, .x4mbu]).schedule = .reset :: [.x4mbu] := rfl

theorem witness_EveryStepKeepsTheInvariant :
    (busyState [.grant 1]).Inv ∧ ∃ t, step (busyState [.grant 1]) = .next t := ⟨witness_inv _, _, rfl⟩

theorem witness_EveryCommandEndsWithinItsBound :
    (busyState []).Inv ∧ (busyState []).schedule = [] ∧
      (busyState []).pc = .exec 0 ⟨0x03300201, 0⟩ (.mailbox (.pollRecv 200)) ∧
      decode ⟨0x03300201, 0⟩ = .ok (.setInternal 0x30 2 1) := ⟨witness_inv _, by decide, by decide, by decide⟩

end Sys2Proof.Tests
end

section
/-! SUPPORT. What one step of a mailbox command does (spec/42_mailbox.md): the gate at its start (R138), the access past
the gate, and the queue of command bytes (R132), each said once; then the statements they settle. -/

namespace Sys2Proof.Machine

/-! ## The gate -/

@[simp] theorem State.gateClosed_eq_true_iff {s : State} : s.gateClosed = true ↔ s.cfg.initialized = 0 := beq_iff_eq

section
variable {s : State} {r : Nat} {q : Request} (hpc : s.pc = .exec r q .start) (hinit : s.cfg.initialized = 0)
include hpc hinit

theorem raise_of_gateClosed (t : State) :
    (if s.gateClosed then s.raise .uninitialized else t) = s.ended r .uninitialized 0 :=
  (if_pos (State.gateClosed_eq_true_iff.2 hinit)).trans (State.raise_eq_ended hpc _)

theorem exec_setInternal_of_gateClosed (a k v : Byte) :
    exec (.setInternal a k v) s = .next (s.ended r .uninitialized 0) :=
  (underLock_of_exec hpc _).trans (congrArg Host.Outcome.next (raise_of_gateClosed hpc hinit _))

theorem exec_getInternal_of_gateClosed (a k : Byte) :
    exec (.getInternal a k) s = .next (s.ended r .uninitialized 0) :=
  (underLock_of_exec hpc _).trans (congrArg Host.Outcome.next (raise_of_gateClosed hpc hinit _))

/-- Both commands that fetch a frame begin with the fetch, and so with its gate (R150). -/
theorem fetchStep_start_of_gateClosed (done : Word → State → State) :
    fetchStep done .start s = .next (s.ended r .uninitialized 0) :=
  (if_pos (State.gateClosed_eq_true_iff.2 hinit)).trans (congrArg Host.Outcome.next (State.raise_eq_ended hpc _))

theorem exec_fetchFrame_of_gateClosed : exec .fetchFrame s = .next (s.ended r .uninitialized 0) :=
  (underLock_of_exec hpc _).trans (fetchStep_start_of_gateClosed hpc hinit _)

theorem exec_readFrameNorm_of_gateClosed : exec .readFrameNorm s = .next (s.ended r .uninitialized 0) :=
  (underLock_of_exec hpc _).trans (fetchStep_start_of_gateClosed hpc hinit _)

end

/-! ## A command inside its mailbox access -/

theorem exec_setInternal_mailbox {s : State} {r : Nat} {q : Request} {m : MailboxPos}
    (hpc : s.pc = .exec r q (.mailbox m)) (a k v : Byte) :
    exec (.setInternal a k v) s = .next (internalWrite a k v .mailbox (fun t => t.ret 0) m s) :=
  underLock_of_exec hpc _

theorem exec_getInternal_mailbox {s : State} {r : Nat} {q : Request} {m : MailboxPos}
    (hpc : s.pc = .exec r q (.mailbox m)) (a k : Byte) :
    exec (.getInternal a k) s = .next (internalRead a k .mailbox (fun b t => t.ret (b.setWidth 32)) m s) :=
  underLock_of_exec hpc _

/-! ## The queue -/

/-- The position after queued byte `j` of `n`: the next byte, or the first poll after the last. -/
theorem queueNext_eq {n j : Nat} (hj : j < n) :
    (if j + 1 < n then MailboxPos.queue (j + 1) else .pollSend 1) =
      if j + 1 = n then .pollSend 1 else .queue (j + 1) := by
  by_cases hlast : j + 1 = n
  · rw [if_neg (by omega), if_pos hlast]
  · rw [if_pos (by omega), if_neg hlast]

section
variable {s : State} {r : Nat} {q : Request} {p : Pos} {bytes : List Byte} {j : Nat} {b : Byte}
  (hpc : s.pc = .exec r q p) (hb : bytes[j]? = some b)
  (ready : Params → Byte → Bool) (onReady : Nat → State → State) (onReply : Byte → State → State)
  (place : MailboxPos → Pos)

include hb in
/-- In range of the queued bytes, a step of the queue is the direct write of its byte (R132). -/
theorem mailboxStep_queue :
    mailboxStep bytes ready onReady onReply place (.queue j) s =
      directWrite s s.params.mbxToCpuAddr b fun t =>
        t.goto (place (if j + 1 = bytes.length then .pollSend 1 else .queue (j + 1))) := by
  obtain ⟨hj, -⟩ := List.getElem?_eq_some_iff.1 hb
  simp only [mailboxStep, hb, queueNext_eq hj]

include hpc hb

theorem mailboxStep_queue_ok {bs : List Byte}
    (ha : s.answer (.write [s.params.mbxToCpuAddr ||| s.params.writeBit, b]) = .ok bs) :
    mailboxStep bytes ready onReady onReply place (.queue j) s =
      (s.after (.write [s.params.mbxToCpuAddr ||| s.params.writeBit, b]) (.ok [])).at r q
        (place (if j + 1 = bytes.length then .pollSend 1 else .queue (j + 1))) := by
  rw [mailboxStep_queue hb, directWrite_ok ha, State.goto_eq_at ((State.after_pc ..).trans hpc)]

theorem mailboxStep_queue_err (ha : s.answer (.write [s.params.mbxToCpuAddr ||| s.params.writeBit, b]) = .err) :
    mailboxStep bytes ready onReady onReply place (.queue j) s =
      (s.after (.write [s.params.mbxToCpuAddr ||| s.params.writeBit, b]) .err).ended r .hwError 0 := by
  rw [mailboxStep_queue hb, directWrite_err ha, State.raise_eq_ended ((State.after_pc ..).trans hpc)]

end

/-! ## The statements settled -/

/-- Settles O19: each of the four commands, at its start, tests the gate before anything else. -/
theorem mailboxCommandsNeedInitialized : Obligations.MailboxCommandsNeedInitialized := by
  unfold Obligations.MailboxCommandsNeedInitialized
  rintro s r q i (⟨a, k, v, rfl⟩ | ⟨a, k, rfl⟩ | rfl | rfl) hpc hinit
  · exact exec_setInternal_of_gateClosed hpc hinit a k v
  · exact exec_getInternal_of_gateClosed hpc hinit a k
  · exact exec_fetchFrame_of_gateClosed hpc hinit
  · exact exec_readFrameNorm_of_gateClosed hpc hinit

/-- Settles O21: both commands are at a queue position of an access that queues their bytes, and the queue does the same
for any bytes. -/
theorem queueWritesAddressKindValue : Obligations.QueueWritesAddressKindValue := by
  unfold Obligations.QueueWritesAddressKindValue
  intro s r q a k v b j bs i bytes hi hpc hb op
  obtain ⟨ready, onReady, onReply, hexec⟩ : ∃ ready onReady onReply,
      exec i s = .next (mailboxStep bytes ready onReady onReply .mailbox (.queue j) s) := by
    rcases hi with ⟨rfl, rfl⟩ | ⟨rfl, rfl⟩
    · exact ⟨_, _, _, exec_setInternal_mailbox hpc a k v⟩
    · exact ⟨_, _, _, exec_getInternal_mailbox hpc a k⟩
  rw [hexec]
  exact ⟨fun hok => congrArg Host.Outcome.next (mailboxStep_queue_ok hpc hb ready onReady onReply .mailbox hok),
    fun herr => congrArg Host.Outcome.next (mailboxStep_queue_err hpc hb ready onReady onReply .mailbox herr)⟩

end Sys2Proof.Machine
end

section
/-! SUPPORT. What one step of FETCH_FRAME writes (spec/43_frame_fetch.md): the raw read with its commit (R153, R154), and
nothing at any other step; then the statement they settle. -/

namespace Sys2Proof.Machine

/-! ## The cells after a write from index 0 -/

theorem Memory.get?_writeRange_zero_of_lt {α : Type} (m : Memory α) {vs : List α} {k : Nat} (h : k < vs.length) :
    get? (writeRange m 0 vs) k = vs[k]? := by
  rw [get?_writeRange, dif_pos ⟨Nat.zero_le k, by omega⟩]
  exact (List.getElem?_eq_getElem h).symm

theorem Memory.get?_writeRange_zero_of_le {α : Type} (m : Memory α) {vs : List α} {k : Nat} (h : vs.length ≤ k) :
    get? (writeRange m 0 vs) k = get? m k := by
  rw [get?_writeRange, dif_neg (by omega)]

/-! ## The raw read -/

section
variable {s : State} {r : Nat} {q : Request} {frs : Nat} {fc : Word} (hpc : s.pc = .exec r q (.raw frs fc))
include hpc

theorem exec_fetchFrame_raw : exec .fetchFrame s = .next (rawStep frs fc (fun t => t.ret fc) s) :=
  underLock_of_exec hpc _

/-- Answered Ok, the raw read commits the frame and ends the command in the same step. -/
theorem exec_fetchFrame_raw_ok {bs : List Byte}
    (ha : s.answer (.writeRead [s.params.radarDataAddr] frs) = .ok bs) :
    exec .fetchFrame s =
      .next (((s.after (.writeRead [s.params.radarDataAddr] frs) (.ok bs)).commitFrame fc bs).ended r .ok fc) := by
  have hpc' := (State.commitFrame_pc (s.after (.writeRead [s.params.radarDataAddr] frs) (.ok bs)) fc bs).trans hpc
  rw [exec_fetchFrame_raw hpc, rawStep, transact_ok ha, State.ret_eq_ended hpc']

theorem exec_fetchFrame_raw_err (ha : s.answer (.writeRead [s.params.radarDataAddr] frs) = .err) :
    exec .fetchFrame s = .next ((s.after (.writeRead [s.params.radarDataAddr] frs) .err).ended r .hwError 0) := by
  rw [exec_fetchFrame_raw hpc, rawStep, transact_err_ended hpc ha]

end

/-! ## Every other step -/

/-- FETCH_FRAME writes nothing but by the commit: each of its other effects only records, moves or ends. -/
theorem Effect.fetchFrame_unchanged {s t : State} {p : Pos} (h : Effect s .fetchFrame p (.next t))
    (hraw : ∀ frs fc bs, p = .raw frs fc → s.answer (.writeRead [s.params.radarDataAddr] frs) ≠ .ok bs) :
    t.cfg = s.cfg ∧ t.rawbuf = s.rawbuf ∧ t.outbuf = s.outbuf := by
  cases h with
  | raised | failed | timedOut | moved | answered => simp
  | fetched frs fc bytes _ hp ha => exact absurd ha (hraw frs fc bytes hp)
  | fetchedFirst _ _ _ hi | unpacked _ _ _ _ hi | cfgWritten _ _ _ hi | rawWritten _ _ hi | read _ _ hi => cases hi

/-! ## The statement settled -/

/-- Settles O31: the raw read by its answer, and every other step by the effects FETCH_FRAME can have. -/
theorem fetchCommitsOnlyAtItsRawRead : Obligations.FetchCommitsOnlyAtItsRawRead := by
  unfold Obligations.FetchCommitsOnlyAtItsRawRead
  refine ⟨?committed, ?failed, ?others⟩
  case committed =>
    intro s r q frs fc bs hpc op ha
    have hlen : bs.length = frs := answer_length ha
    exact ⟨Memory.writeRange s.rawbuf 0 bs, exec_fetchFrame_raw_ok hpc ha,
      fun k hk => Memory.get?_writeRange_zero_of_lt s.rawbuf (hlen.symm ▸ hk),
      fun k hk => Memory.get?_writeRange_zero_of_le s.rawbuf (hlen.symm ▸ hk), hlen⟩
  case failed =>
    intro s r q frs fc hpc op ha
    exact exec_fetchFrame_raw_err hpc ha
  case others =>
    intro s t r q p hpc hexec hraw
    exact Effect.fetchFrame_unchanged (hexec ▸ exec_effect hpc .fetchFrame) hraw

end Sys2Proof.Machine
end

section
/-! SUPPORT. Sign extension (spec/44_unpack.md R163), and zero-frame tracking (R165): the values `zeroTrack` looks at are
the outputs of the frame, in some order, and the outputs are the cells of OUTBUF below OUT_COUNT; then the statements they
settle. -/

namespace Sys2Proof.Machine

/-! ## Sign extension -/

theorem signExtend_of_lt {w c : Nat} (h : c < 2 ^ (8 * w - 1)) : signExtend w c = c := if_neg (Nat.not_le.2 h)

theorem signExtend_of_le {w c : Nat} (h : 2 ^ (8 * w - 1) ≤ c) : signExtend w c = (c : Int) - 2 ^ (8 * w) := if_pos h

/-- Settles O34: below half of the range the counter is its own value, and from there on it is the range lower. -/
theorem signExtensionIsTwosComplement : Obligations.SignExtensionIsTwosComplement := by
  unfold Obligations.SignExtensionIsTwosComplement
  intro w c hw hc
  have hpos : 0 < 2 ^ (8 * w - 1) := Nat.two_pow_pos _
  have hdouble : (2 ^ (8 * w - 1) * 2 : Int) = 2 ^ (8 * w) := mod_cast Nat.two_pow_pred_mul_two (by omega : 0 < 8 * w)
  zify at hpos hc
  rcases Nat.lt_or_ge c (2 ^ (8 * w - 1)) with h | h
  · rw [signExtend_of_lt h]
    zify at h
    exact ⟨by omega, by omega, .inl rfl⟩
  · rw [signExtend_of_le h]
    zify at h
    exact ⟨by omega, by omega, .inr rfl⟩

/-! ## The values tracked are the outputs -/

theorem evens_append_odds_perm {α : Type} (l : List α) : (evens l ++ odds l).Perm l := by
  induction l using evens.induct with
  | case1 => exact .nil
  | case2 a => exact .refl [a]
  | case3 a b rest ih => exact .cons a (List.perm_middle.trans (.cons b ih))

/-- Reordering moves samples and neither drops nor adds one (R164). -/
theorem reorder_perm (separate : BitVec 1) (smp : List Word) : (reorder separate smp).Perm smp := by
  unfold reorder
  split
  · exact .refl smp
  · exact evens_append_odds_perm smp

/-- How an unpack body of `s` ends: at a fault, at an error, or by the commit of a frame that fits the buffer and whose
outputs are the values tracked, in some order. -/
inductive UnpackEnd (s : State) : BodyEnd → Prop
  | fault (f : Fault) : UnpackEnd s (.fault f)
  | raised (st : Status) (hst : st ≠ .ok) : UnpackEnd s (.raised st)
  | done (n : Nat) (vals out : List Word) (hperm : out.Perm vals) (hlen : out.length ≤ s.params.outCap) :
      UnpackEnd s (.done n (s.commitUnpack vals out))

theorem rfBody_unpackEnd (s : State) : UnpackEnd s (rfBody s) := by
  rcases rfBody_cases s with ⟨f, h⟩ | ⟨st, h, hst⟩ | ⟨n, vals, h, hlen, hn⟩ <;> rw [h]
  · exact .fault f
  · exact .raised st hst
  · exact .done n vals vals (.refl vals) (hlen ▸ hn)

/-- `iqBody_cases` does not say how the outputs come from the values tracked, so the body's checks are gone through here. -/
theorem iqBody_unpackEnd (s : State) : UnpackEnd s (iqBody s) := by
  unfold iqBody
  dsimp only
  split
  · exact .fault _
  split
  · exact .raised _ nofun
  split
  · exact .fault _
  split
  · exact .raised _ nofun
  split
  · exact .raised _ nofun
  · next hn =>
    split
    · next hcs => exact .done _ _ _ (reorder_perm _ _) (by simpa [counters_length hcs] using hn)
    · exact .fault _

theorem selectedBody_unpackEnd (s : State) : UnpackEnd s (selectedBody s) := by
  unfold selectedBody
  split
  · exact rfBody_unpackEnd s
  · exact iqBody_unpackEnd s

/-! ## An unpack that answers OK -/

section
variable {s t : State} {r : Nat} {q : Request} {p : Pos} {v : Word} (hpc : s.pc = .exec r q p)
include hpc

/-- Only a body that completes answers OK: an error answers its own status. -/
theorem UnpackEnd.commits_of_ok {body : BodyEnd} {rdata : Nat → Word} (hend : UnpackEnd s body)
    (hstep : unpackStep s body rdata = .next t) (hresp : Memory.get? t.resp r = some ⟨.ok, v⟩) :
    ∃ vals out w, t = (s.commitUnpack vals out).ret w ∧ out.Perm vals ∧ out.length ≤ s.params.outCap := by
  cases hend with
  | fault f => cases hstep
  | raised st hst =>
    cases hstep
    rw [State.raise_of_exec hpc, Memory.get?_set_self] at hresp
    cases hresp
    exact absurd rfl hst
  | done n vals out hperm hlen =>
    cases hstep
    exact ⟨vals, out, _, rfl, hperm, hlen⟩

/-- Each of the three commands, where it unpacks, runs a body that ends so (R161, R162, R166). -/
theorem exec_eq_unpackStep {i : Instr}
    (hi : i = .unpackRf ∨ i = .unpackIq ∨ (i = .readFrameNorm ∧ ∃ fc, p = .unpack fc)) :
    ∃ body rdata, UnpackEnd s body ∧ exec i s = unpackStep s body rdata := by
  rcases hi with rfl | rfl | ⟨rfl, fc, rfl⟩
  · exact ⟨_, _, rfBody_unpackEnd s, underLock_of_exec hpc _⟩
  · exact ⟨_, _, iqBody_unpackEnd s, underLock_of_exec hpc _⟩
  · exact ⟨_, _, selectedBody_unpackEnd s, underLock_of_exec hpc _⟩

end

/-! ## What the commit leaves -/

@[simp] theorem State.commitUnpack_zeroFrameCtr (s : State) (vals out : List Word) :
    (s.commitUnpack vals out).cfg.zeroFrameCtr = zeroTrack s.params.zeroFrameCap s.cfg.zeroFrameCtr vals := rfl

@[simp] theorem State.commitUnpack_outCount (s : State) (vals out : List Word) :
    (s.commitUnpack vals out).cfg.outCount = BitVec.ofNat 32 out.length := rfl

theorem countsAsZero_iff {x : Word} :
    countsAsZero x = true ↔ F32.le (F32.neg 0x34000000) x = true ∧ F32.le x 0x34000000 = true := by
  rw [countsAsZero, Bool.and_eq_true, F32.eps]

theorem zeroTrack_of_forall {vals : List Word} (cap ctr : Word) (h : ∀ x ∈ vals, countsAsZero x = true) :
    zeroTrack cap ctr vals = if ctr < cap then ctr + 1 else ctr := if_pos (List.all_eq_true.2 h)

theorem zeroTrack_of_not_forall {vals : List Word} (cap ctr : Word) (h : ¬ ∀ x ∈ vals, countsAsZero x = true) :
    zeroTrack cap ctr vals = 0 := if_neg fun hall => h (List.all_eq_true.1 hall)

/-- What holds of every cell of a range just written holds of every value written there. -/
theorem Memory.forall_cell_writeRange_zero_iff {α : Type} (m : Memory α) (vs : List α) (P : α → Prop) :
    (∀ k, k < vs.length → ∃ x, get? (writeRange m 0 vs) k = some x ∧ P x) ↔ ∀ x ∈ vs, P x := by
  rw [List.forall_mem_iff_getElem]
  refine forall₂_congr fun k hk => ?_
  simp [get?_writeRange_zero_of_lt m hk, hk]

theorem outCap_le_of_legal {p : Params} (h : p.legal = true) : p.outCap ≤ 65536 := by
  simp only [Params.legal, Bool.and_eq_true, decide_eq_true_eq] at h
  omega

/-- Settles O39: the frame's cells all count as zero exactly where the values tracked do. -/
theorem zeroFramesAreCountedUpToTheCap : Obligations.ZeroFramesAreCountedUpToTheCap := by
  unfold Obligations.ZeroFramesAreCountedUpToTheCap
  intro s t r q p i v hlegal hi hpc hexec hresp isZero n
  obtain ⟨body, rdata, hend, hbody⟩ := exec_eq_unpackStep hpc hi
  obtain ⟨vals, out, w, rfl, hperm, hlen⟩ := hend.commits_of_ok hpc (hbody.symm.trans hexec) hresp
  have hn : n = out.length := by
    have hcap := outCap_le_of_legal hlegal
    simp only [n, State.ret_cfg, State.commitUnpack_outCount, BitVec.toNat_ofNat]
    omega
  have hzero : (∀ k, k < n → isZero k) ↔ ∀ x ∈ vals, countsAsZero x = true := by
    simp only [hn, isZero, ← countsAsZero_iff, State.ret_outbuf, State.commitUnpack_outbuf,
      Memory.forall_cell_writeRange_zero_iff, hperm.mem_iff]
  rw [State.ret_cfg, State.commitUnpack_zeroFrameCtr]
  refine ⟨fun hall => zeroTrack_of_forall _ _ (hzero.1 hall), ?_⟩
  rintro ⟨k, hk, hnot⟩
  exact zeroTrack_of_not_forall _ _ fun hall => hnot (hzero.2 hall k hk)

end Sys2Proof.Machine
end

section
/-! SUPPORT. The host access commands (spec/45_host_access.md): the words of these commands, R22's registers by index,
and how each command ends in each case, said once; then the statements they settle. -/

namespace Sys2Proof.Machine

/-! ## The words -/

/-- What the encoder writes, the decoder reads back (R81, R82). -/
theorem decode_encode (i : Instr) : decode (encode i) = .ok i := by
  cases i <;> simp [encode, decode, ifReservedZero]

/-- Sixteen low bits in one piece or as two bytes: the same zeros (formats DR and C). -/
theorem append_zero_eq_packBytes (op high : Byte) : (op ++ high ++ (0 : Half) : Word) = packBytes op high 0 0 :=
  (BitVec.append_assoc (x₁ := op ++ high) (x₂ := 0#8) (x₃ := 0#8)).symm

theorem decode_cfgWrite (reg : Byte) (data : Word) :
    decode ⟨(0x10 : Byte) ++ reg ++ (0 : Half), data⟩ = .ok (.cfgWrite reg data) := by
  rw [append_zero_eq_packBytes]; exact decode_encode (.cfgWrite reg data)

theorem decode_cfgRead (reg : Byte) : decode ⟨(0x11 : Byte) ++ reg ++ (0 : Half), 0⟩ = .ok (.cfgRead reg) := by
  rw [append_zero_eq_packBytes]; exact decode_encode (.cfgRead reg)

/-! ## The registers by index (R22) -/

/-- The registers in the order of R22's table. -/
def CfgReg.all : List CfgReg :=
  [.initialized, .downconvEn, .iqSeparate, .bpc, .frameReadSize, .nfactor, .normOffset, .filterNorm,
    .zeroFrameCtr, .frameCounter, .outCount, .lockTimeoutMs]

/-- R22's index of a register. -/
def CfgReg.index : CfgReg → Byte
  | .initialized => 0x00
  | .downconvEn => 0x01
  | .iqSeparate => 0x02
  | .bpc => 0x03
  | .frameReadSize => 0x04
  | .nfactor => 0x05
  | .normOffset => 0x06
  | .filterNorm => 0x07
  | .zeroFrameCtr => 0x08
  | .frameCounter => 0x09
  | .outCount => 0x0A
  | .lockTimeoutMs => 0x0B

@[simp] theorem CfgReg.ofIndex_index (name : CfgReg) : ofIndex name.index = some name := by cases name <;> rfl

/-- From 0x0C on every index is reserved. -/
theorem CfgReg.ofIndex_eq_none_of_le {reg : Byte} (h : 0x0C ≤ reg.toNat) : ofIndex reg = none := by
  unfold ofIndex
  split
  case h_13 => rfl
  all_goals omega

/-- Below 0x0C every index is some register's. -/
theorem CfgReg.exists_index_eq {reg : Byte} (h : reg.toNat ≤ 0x0B) : ∃ name : CfgReg, name.index = reg := by
  have hall : ∀ k : Fin 12, ∃ name ∈ all, name.index = BitVec.ofNat 8 k := by decide
  obtain ⟨name, -, hname⟩ := hall ⟨reg.toNat, by omega⟩
  exact ⟨name, by simpa using hname⟩

theorem CfgReg.readOnly_eq_true_iff (name : CfgReg) : name.readOnly = true ↔ name.index = 0x09 ∨ name.index = 0x0A := by
  cases name <;> decide

/-! ## A register read back -/

/-- Narrowing a word and zero-extending it again keeps its low bits and no others. -/
theorem setWidth_setWidth_eq_and (v : Word) (w : Nat) :
    (v.setWidth w).setWidth 32 = v &&& BitVec.ofNat 32 (2 ^ w - 1) := by
  apply BitVec.eq_of_getLsbD_eq
  intro k hk
  simp only [BitVec.getLsbD_setWidth, BitVec.getLsbD_and, BitVec.getLsbD_ofNat, Nat.testBit_two_pow_sub_one, hk,
    decide_true, Bool.true_and]
  exact Bool.and_comm ..

/-- A register reads back what was written, as far as its width goes (R170). -/
theorem CfgRegs.read_write_self (c : CfgRegs) (name : CfgReg) (v : Word) :
    (c.write name v).read name =
      some (if name.index.toNat ≤ 2 then v &&& 1 else if name.index = 3 then v &&& 0xFF else v) := by
  have hbit : (v.setWidth 1).setWidth 32 = v &&& 1 := setWidth_setWidth_eq_and v 1
  have hbyte : (v.setWidth 8).setWidth 32 = v &&& 0xFF := setWidth_setWidth_eq_and v 8
  cases name
  case initialized | downconvEn | iqSeparate => exact congrArg some hbit
  case bpc => exact congrArg some hbyte
  all_goals rfl

/-! ## How each command ends -/

section
variable {s : State} {r : Nat} {q : Request} {p : Pos} (hpc : s.pc = .exec r q p)
include hpc

theorem exec_cfgWrite_of_reserved {reg : Byte} (hreg : CfgReg.ofIndex reg = none) (data : Word) :
    exec (.cfgWrite reg data) s = .next (s.ended r .illegalCommand 0) := by
  simp only [exec, execCfgWrite, underLock_of_exec hpc, hreg, State.raise_eq_ended hpc]

theorem exec_cfgWrite_of_readOnly {name : CfgReg} (hro : name.readOnly = true) (data : Word) :
    exec (.cfgWrite name.index data) s = .next (s.ended r .illegalCommand 0) := by
  simp only [exec, execCfgWrite, underLock_of_exec hpc, CfgReg.ofIndex_index, hro, if_true, State.raise_eq_ended hpc]

theorem exec_cfgWrite_of_writable {name : CfgReg} (hro : ¬ name.readOnly = true) (data : Word) :
    exec (.cfgWrite name.index data) s = .next ((s.writeCfg name data).ended r .ok 0) := by
  have hpc' : (s.writeCfg name data).pc = .exec r q p := hpc
  simp only [exec, execCfgWrite, underLock_of_exec hpc, CfgReg.ofIndex_index, if_neg hro, State.ret_eq_ended hpc']

theorem exec_cfgRead_of_reserved {reg : Byte} (hreg : CfgReg.ofIndex reg = none) :
    exec (.cfgRead reg) s = .next (s.ended r .illegalCommand 0) := by
  simp only [exec, execCfgRead, underLock_of_exec hpc, hreg, State.raise_eq_ended hpc]

theorem exec_cfgRead_of_some {name : CfgReg} {v : Word} (hv : s.cfg.read name = some v) :
    exec (.cfgRead name.index) s = .next (s.ended r .ok v) := by
  simp only [exec, execCfgRead, underLock_of_exec hpc, CfgReg.ofIndex_index, hv, State.ret_eq_ended hpc]

theorem exec_cfgRead_of_none {name : CfgReg} (hv : s.cfg.read name = none) :
    exec (.cfgRead name.index) s = .fault .readUnset := by
  simp only [exec, execCfgRead, underLock_of_exec hpc, CfgReg.ofIndex_index, hv]

theorem exec_rawWrite_of_le {idx : Half} (h : s.params.rawCap ≤ idx.toNat) (val : Byte) :
    exec (.rawWrite idx val) s = .next (s.ended r .outOfRange 0) := by
  simp only [exec, execRawWrite, underLock_of_exec hpc, if_pos h, State.raise_eq_ended hpc]

theorem exec_rawWrite_of_lt {idx : Half} (h : idx.toNat < s.params.rawCap) (val : Byte) :
    exec (.rawWrite idx val) s =
      .next ({ s with rawbuf := Memory.set s.rawbuf idx.toNat val }.ended r .ok 0) := by
  have hpc' : { s with rawbuf := Memory.set s.rawbuf idx.toNat val }.pc = .exec r q p := hpc
  simp only [exec, execRawWrite, underLock_of_exec hpc, if_neg (Nat.not_le.2 h), Memory.writeRange,
    State.ret_eq_ended hpc']

theorem exec_rawRead_of_le {idx : Half} (h : s.params.rawCap ≤ idx.toNat) :
    exec (.rawRead idx) s = .next (s.ended r .outOfRange 0) := by
  simp only [exec, execRawRead, underLock_of_exec hpc, if_pos h, State.raise_eq_ended hpc]

theorem exec_rawRead_of_some {idx : Half} (h : idx.toNat < s.params.rawCap) {b : Byte}
    (hb : Memory.get? s.rawbuf idx.toNat = some b) :
    exec (.rawRead idx) s = .next (s.ended r .ok (b.setWidth 32)) := by
  simp only [exec, execRawRead, underLock_of_exec hpc, if_neg (Nat.not_le.2 h), hb, State.ret_eq_ended hpc]

theorem exec_rawRead_of_none {idx : Half} (h : idx.toNat < s.params.rawCap)
    (hb : Memory.get? s.rawbuf idx.toNat = none) : exec (.rawRead idx) s = .fault .readUnset := by
  simp only [exec, execRawRead, underLock_of_exec hpc, if_neg (Nat.not_le.2 h), hb]

theorem exec_outRead_of_le {idx : Half} (h : s.params.outCap ≤ idx.toNat) :
    exec (.outRead idx) s = .next (s.ended r .outOfRange 0) := by
  simp only [exec, execOutRead, underLock_of_exec hpc, if_pos h, State.raise_eq_ended hpc]

theorem exec_outRead_of_some {idx : Half} (h : idx.toNat < s.params.outCap) {v : Word}
    (hv : Memory.get? s.outbuf idx.toNat = some v) : exec (.outRead idx) s = .next (s.ended r .ok v) := by
  simp only [exec, execOutRead, underLock_of_exec hpc, if_neg (Nat.not_le.2 h), hv, State.ret_eq_ended hpc]

theorem exec_outRead_of_none {idx : Half} (h : idx.toNat < s.params.outCap)
    (hv : Memory.get? s.outbuf idx.toNat = none) : exec (.outRead idx) s = .fault .readUnset := by
  simp only [exec, execOutRead, underLock_of_exec hpc, if_neg (Nat.not_le.2 h), hv]

end

/-! ## The statements settled -/

/-- Settles O47: an index is reserved, a read-only register's or a writable one's; the written-out table is the list of
the writable registers. -/
theorem cfgWriteWritesOneRegister : Obligations.CfgWriteWritesOneRegister := by
  unfold Obligations.CfgWriteWritesOneRegister
  intro s r q p reg data hpc
  refine ⟨decode_cfgWrite reg data, ?illegal, ?written, ?table⟩
  case illegal =>
    rintro (hreserved | rfl | rfl)
    · exact exec_cfgWrite_of_reserved hpc (CfgReg.ofIndex_eq_none_of_le hreserved) data
    · exact exec_cfgWrite_of_readOnly (name := .frameCounter) hpc rfl data
    · exact exec_cfgWrite_of_readOnly (name := .outCount) hpc rfl data
  case written =>
    intro hle hfc hoc
    obtain ⟨name, rfl⟩ := CfgReg.exists_index_eq hle
    have hro : ¬ name.readOnly = true := fun h => (name.readOnly_eq_true_iff.1 h).elim hfc hoc
    exact ⟨name, s.cfg.write name data, CfgReg.ofIndex_index name, exec_cfgWrite_of_writable hpc hro data,
      CfgRegs.read_write_self s.cfg name data, fun other h => CfgRegs.read_write_of_ne s.cfg data h⟩
  case table =>
    change ∀ row ∈ (CfgReg.all.filter (!·.readOnly)).map fun name => (name.index, s.cfg.write name data), _
    rw [List.forall_mem_map]
    intro name hname
    exact exec_cfgWrite_of_writable hpc (by simpa using (List.mem_filter.1 hname).2) data

/-- Settles O48: the written-out table is the list of all registers with what each reads as. -/
theorem cfgReadReturnsTheRegister : Obligations.CfgReadReturnsTheRegister := by
  unfold Obligations.CfgReadReturnsTheRegister
  intro s r q p reg hpc
  refine ⟨decode_cfgRead reg, fun h => exec_cfgRead_of_reserved hpc (CfgReg.ofIndex_eq_none_of_le h), ?table⟩
  change ∀ row ∈ CfgReg.all.map fun name => (name.index, s.cfg.read name), _
  rw [List.forall_mem_map]
  rintro name - rfl
  exact ⟨fun v hv => exec_cfgRead_of_some hpc hv, fun hv => exec_cfgRead_of_none hpc hv⟩

/-- Settles O49: the write of a cell in range, read back there and at every other cell. -/
theorem rawWriteWritesOneCell : Obligations.RawWriteWritesOneCell := by
  unfold Obligations.RawWriteWritesOneCell
  intro s r q p idx val hpc
  exact ⟨decode_encode (.rawWrite idx val), fun h => exec_rawWrite_of_le hpc h val, fun h =>
    ⟨Memory.set s.rawbuf idx.toNat val, exec_rawWrite_of_lt hpc h val, Memory.get?_set_self s.rawbuf idx.toNat val,
      fun k hk => Memory.get?_set_of_ne s.rawbuf val hk⟩⟩

/-- Settles O50: an index out of range, a set cell and an UNSET one. -/
theorem rawReadReturnsTheCell : Obligations.RawReadReturnsTheCell := by
  unfold Obligations.RawReadReturnsTheCell
  intro s r q p idx hpc
  exact ⟨decode_encode (.rawRead idx), exec_rawRead_of_le hpc,
    fun h => ⟨fun b hb => exec_rawRead_of_some hpc h hb, exec_rawRead_of_none hpc h⟩⟩

/-- Settles O51: an index out of range, a set cell and an UNSET one. -/
theorem outReadReturnsTheCell : Obligations.OutReadReturnsTheCell := by
  unfold Obligations.OutReadReturnsTheCell
  intro s r q p idx hpc
  exact ⟨decode_encode (.outRead idx), exec_outRead_of_le hpc,
    fun h => ⟨fun v hv => exec_outRead_of_some hpc h hv, exec_outRead_of_none hpc h⟩⟩

end Sys2Proof.Machine
end

section
/-! SUPPORT. The decoder and the encoder (spec/30_encoding.md): how a decoding can end, said once, and the words a row of
the opcode table admits; then the statements they settle. -/

namespace Sys2Proof

/-! ## A word from its fields -/

theorem packBytes_fields (c : Word) : packBytes (opcodeOf c) (fieldHigh c) (fieldMid c) (fieldLow c) = c := by
  apply BitVec.eq_of_getLsbD_eq
  intro k hk
  simp only [getLsbD_packBytes, opcodeOf, fieldHigh, fieldMid, fieldLow, BitVec.getLsbD_extractLsb']
  split
  · simp [*]
  split
  · simp [show k - 8 < 8 by omega, show 8 + (k - 8) = k by omega]
  split
  · simp [show k - 16 < 8 by omega, show 16 + (k - 16) = k by omega]
  · simp [show k - 24 < 8 by omega, show 24 + (k - 24) = k by omega]

theorem packIdx_fields (c : Word) : packIdx (opcodeOf c) (fieldIdx c) (fieldLow c) = c := by
  apply BitVec.eq_of_getLsbD_eq
  intro k hk
  simp only [getLsbD_packIdx, opcodeOf, fieldIdx, fieldLow, BitVec.getLsbD_extractLsb']
  split
  · simp [*]
  split
  · simp [show k - 8 < 16 by omega, show 8 + (k - 8) = k by omega]
  · simp [show k - 24 < 8 by omega, show 24 + (k - 24) = k by omega]

/-- A field inside a zero field is zero. -/
theorem extract_zero_of_extract_zero {c : Word} {lo w lo' w' : Nat} (h : c.extractLsb' lo w = 0) (hlo : lo ≤ lo')
    (hw : lo' + w' ≤ lo + w) : c.extractLsb' lo' w' = 0 :=
  extract_eq_of_bits fun k hk => by
    have hbit := congrArg (·.getLsbD (lo' + k - lo)) h
    simpa [show lo' + k - lo < w by omega, show lo + (lo' + k - lo) = lo' + k by omega] using hbit

section
variable {c : Word} {op : Byte} (hop : opcodeOf c = op)
include hop

theorem packBytes_of_opcode : packBytes op (fieldHigh c) (fieldMid c) (fieldLow c) = c := hop ▸ packBytes_fields c

theorem packIdx_of_opcode : packIdx op (fieldIdx c) (fieldLow c) = c := hop ▸ packIdx_fields c

theorem packBytes_of_fieldLow_zero (h : fieldLow c = 0) : packBytes op (fieldHigh c) (fieldMid c) 0 = c := by
  have hc := packBytes_of_opcode hop
  rwa [h] at hc

theorem packBytes_of_low_bytes_zero (hm : fieldMid c = 0) (hl : fieldLow c = 0) :
    packBytes op (fieldHigh c) 0 0 = c := by
  have hc := packBytes_of_opcode hop
  rwa [hm, hl] at hc

theorem packBytes_of_bytes_zero (hh : fieldHigh c = 0) (hm : fieldMid c = 0) (hl : fieldLow c = 0) :
    packBytes op 0 0 0 = c := by
  have hc := packBytes_of_opcode hop
  rwa [hh, hm, hl] at hc

theorem packBytes_of_fieldLow16_zero (h : fieldLow16 c = 0) : packBytes op (fieldHigh c) 0 0 = c :=
  packBytes_of_low_bytes_zero hop (extract_zero_of_extract_zero h (by decide) (by decide))
    (extract_zero_of_extract_zero h (by decide) (by decide))

theorem packBytes_of_fieldLow24_zero (h : fieldLow24 c = 0) : packBytes op 0 0 0 = c :=
  packBytes_of_bytes_zero hop (extract_zero_of_extract_zero h (by decide) (by decide))
    (extract_zero_of_extract_zero h (by decide) (by decide)) (extract_zero_of_extract_zero h (by decide) (by decide))

theorem packIdx_of_fieldLow_zero (h : fieldLow c = 0) : packIdx op (fieldIdx c) 0 = c := by
  have hc := packIdx_of_opcode hop
  rwa [h] at hc

end

/-! ## How a decoding ends -/

/-- An opcode R82 lists. -/
def listedOpcode (op : Byte) : Prop := (1 ≤ op.toNat ∧ op.toNat ≤ 0x08) ∨ (0x10 ≤ op.toNat ∧ op.toNat ≤ 0x14)

/-- What a request decodes to: a command whose encoding is the request without a stray data word, or the error that R83 or
R84 names. -/
inductive Decoding (q : Request) : Except DecodeError Instr → Prop
  | command (i : Instr) (hop : listedOpcode (opcodeOf q.cmd)) (henc : encode i = portRequest q.cmd q.dw) :
      Decoding q (.ok i)
  | reserved (hop : listedOpcode (opcodeOf q.cmd)) : Decoding q (.error (.reservedNotZero (opcodeOf q.cmd)))
  | undefined (hop : ¬ listedOpcode (opcodeOf q.cmd)) : Decoding q (.error (.undefinedOpcode (opcodeOf q.cmd)))

/-- The check of a row's reserved field, for a command that the rest of the word encodes when the field is zero. -/
theorem decoding_ifReservedZero {q : Request} {zero : Bool} {i : Instr} (hop : listedOpcode (opcodeOf q.cmd))
    (henc : zero = true → encode i = portRequest q.cmd q.dw) : Decoding q (ifReservedZero q.cmd zero i) := by
  cases zero with
  | true => exact .command i hop (henc rfl)
  | false => exact .reserved hop

/-- The request of a word that takes no data word, and of one that takes it (R80, log 12). -/
theorem request_eq_portRequest {q : Request} {op : Byte} {c : Word} (hop : opcodeOf q.cmd = op) (hne : op ≠ opCfgWrite)
    (hc : c = q.cmd) : ⟨c, 0⟩ = portRequest q.cmd q.dw := by
  simp [portRequest, hop, hne, hc]

theorem request_eq_portRequest_cfgWrite {q : Request} {c : Word} (hop : opcodeOf q.cmd = opCfgWrite)
    (hc : c = q.cmd) : ⟨c, q.dw⟩ = portRequest q.cmd q.dw := by
  simp [portRequest, hop, hc]

/-- Row by row, the fields the decoder reads are those the encoder writes (R81, R82). -/
theorem decode_decoding (q : Request) : Decoding q (decode q) := by
  have hopcode {n : Nat} (h : (opcodeOf q.cmd).toNat = n) : opcodeOf q.cmd = BitVec.ofNat 8 n := by simp [← h]
  have hzero {w : Nat} {x : BitVec w} (h : (x == 0) = true) : x = 0 := beq_iff_eq.1 h
  have listed {n : Nat} (h : (opcodeOf q.cmd).toNat = n) (hn : (1 ≤ n ∧ n ≤ 0x08) ∨ (0x10 ≤ n ∧ n ≤ 0x14)) :
      listedOpcode (opcodeOf q.cmd) := by subst h; exact hn
  unfold decode
  dsimp only
  split <;> rename_i h
  case h_1 | h_4 =>
    exact decoding_ifReservedZero (listed h (by decide)) fun hz =>
      request_eq_portRequest (hopcode h) (by decide) (packBytes_of_fieldLow_zero (hopcode h) (hzero hz))
  case h_2 | h_10 =>
    exact decoding_ifReservedZero (listed h (by decide)) fun hz =>
      request_eq_portRequest (hopcode h) (by decide) (packBytes_of_fieldLow16_zero (hopcode h) (hzero hz))
  case h_3 =>
    exact .command _ (listed h (by decide)) <|
      request_eq_portRequest (hopcode h) (by decide) (packBytes_of_opcode (hopcode h))
  case h_5 | h_6 | h_7 | h_8 =>
    exact decoding_ifReservedZero (listed h (by decide)) fun hz =>
      request_eq_portRequest (hopcode h) (by decide) (packBytes_of_fieldLow24_zero (hopcode h) (hzero hz))
  case h_9 =>
    exact decoding_ifReservedZero (listed h (by decide)) fun hz =>
      request_eq_portRequest_cfgWrite (hopcode h) (packBytes_of_fieldLow16_zero (hopcode h) (hzero hz))
  case h_11 =>
    exact .command _ (listed h (by decide)) <|
      request_eq_portRequest (hopcode h) (by decide) (packIdx_of_opcode (hopcode h))
  case h_12 | h_13 =>
    exact decoding_ifReservedZero (listed h (by decide)) fun hz =>
      request_eq_portRequest (hopcode h) (by decide) (packIdx_of_fieldLow_zero (hopcode h) (hzero hz))
  case h_14 =>
    refine .undefined ?_
    simp only [imp_false] at *
    unfold listedOpcode
    omega

theorem encode_of_decode {q : Request} {i : Instr} (h : decode q = .ok i) : encode i = portRequest q.cmd q.dw := by
  cases h ▸ decode_decoding q with
  | command _ _ henc => exact henc

/-- The data word has no say in whether a word decodes. -/
theorem decode_encode_cmd (i : Instr) (dw : Word) : ∃ j, decode ⟨(encode i).cmd, dw⟩ = .ok j := by
  cases i <;> simp [encode, decode, ifReservedZero]

/-- The words that decode are the commands' words. -/
theorem decodes_iff {q : Request} : (∃ i, decode q = .ok i) ↔ ∃ i, (encode i).cmd = q.cmd := by
  constructor
  · rintro ⟨i, h⟩
    exact ⟨i, by rw [encode_of_decode h]; rfl⟩
  · rintro ⟨i, h⟩
    obtain ⟨cmd, dw⟩ := q
    obtain rfl : (encode i).cmd = cmd := h
    exact decode_encode_cmd i dw

/-! ## The words of a row of the table -/

/-- A word under a mask of whole bytes has a value byte by byte. -/
theorem and_packBytes_eq_iff {c : Word} {op mh mm ml : Byte} :
    c &&& packBytes 0xFF mh mm ml = packBytes op 0 0 0 ↔
      opcodeOf c = op ∧ fieldHigh c &&& mh = 0 ∧ fieldMid c &&& mm = 0 ∧ fieldLow c &&& ml = 0 := by
  have hand : c &&& packBytes 0xFF mh mm ml =
      packBytes (opcodeOf c) (fieldHigh c &&& mh) (fieldMid c &&& mm) (fieldLow c &&& ml) := by
    nth_rw 1 [← packBytes_fields c]
    rw [packBytes_and, show opcodeOf c &&& 0xFF = opcodeOf c from BitVec.and_allOnes]
  rw [hand]
  constructor
  · intro h
    exact ⟨by simpa using congrArg opcodeOf h, by simpa using congrArg fieldHigh h, by simpa using congrArg fieldMid h,
      by simpa using congrArg fieldLow h⟩
  · rintro ⟨rfl, h, hm, hl⟩
    rw [h, hm, hl]

theorem and_ones_eq_zero {b : Byte} (h : b &&& 0xFF = 0) : b = 0 := by
  rwa [show b &&& 0xFF = b from BitVec.and_allOnes] at h

/-- What a row says of a word: its opcode, and that each masked byte is zero. -/
theorem fields_of_matches {name : String} {c : Word} {op mh mm ml : Byte}
    (h : (OpcodeRow.mk name (packBytes op 0 0 0) (packBytes 0xFF mh mm ml)).matches c = true) :
    opcodeOf c = op ∧ fieldHigh c &&& mh = 0 ∧ fieldMid c &&& mm = 0 ∧ fieldLow c &&& ml = 0 :=
  and_packBytes_eq_iff.1 (beq_iff_eq.1 h)

section
variable {name : String} {c : Word} {op : Byte}

theorem packBytes_of_matches
    (h : (OpcodeRow.mk name (packBytes op 0 0 0) (packBytes 0xFF 0 0 0)).matches c = true) :
    packBytes op (fieldHigh c) (fieldMid c) (fieldLow c) = c := packBytes_of_opcode (fields_of_matches h).1

theorem packIdx_of_matches
    (h : (OpcodeRow.mk name (packBytes op 0 0 0) (packBytes 0xFF 0 0 0)).matches c = true) :
    packIdx op (fieldIdx c) (fieldLow c) = c := packIdx_of_opcode (fields_of_matches h).1

theorem packBytes_of_matches_low
    (h : (OpcodeRow.mk name (packBytes op 0 0 0) (packBytes 0xFF 0 0 0xFF)).matches c = true) :
    packBytes op (fieldHigh c) (fieldMid c) 0 = c := by
  obtain ⟨hop, -, -, hl⟩ := fields_of_matches h
  exact packBytes_of_fieldLow_zero hop (and_ones_eq_zero hl)

theorem packIdx_of_matches_low
    (h : (OpcodeRow.mk name (packBytes op 0 0 0) (packBytes 0xFF 0 0 0xFF)).matches c = true) :
    packIdx op (fieldIdx c) 0 = c := by
  obtain ⟨hop, -, -, hl⟩ := fields_of_matches h
  exact packIdx_of_fieldLow_zero hop (and_ones_eq_zero hl)

theorem packBytes_of_matches_low16
    (h : (OpcodeRow.mk name (packBytes op 0 0 0) (packBytes 0xFF 0 0xFF 0xFF)).matches c = true) :
    packBytes op (fieldHigh c) 0 0 = c := by
  obtain ⟨hop, -, hm, hl⟩ := fields_of_matches h
  exact packBytes_of_low_bytes_zero hop (and_ones_eq_zero hm) (and_ones_eq_zero hl)

theorem packBytes_of_matches_low24
    (h : (OpcodeRow.mk name (packBytes op 0 0 0) (packBytes 0xFF 0xFF 0xFF 0xFF)).matches c = true) :
    packBytes op 0 0 0 = c := by
  obtain ⟨hop, hh, hm, hl⟩ := fields_of_matches h
  exact packBytes_of_bytes_zero hop (and_ones_eq_zero hh) (and_ones_eq_zero hm) (and_ones_eq_zero hl)

end

/-- The rows' masks cover the opcode and the reserved bytes (R81), so a word of a row is a command's (R82). -/
theorem exists_encode_of_matches {c : Word} {row : OpcodeRow} (hrow : row ∈ opcodeTable) (h : row.matches c = true) :
    ∃ i, (encode i).cmd = c := by
  simp only [opcodeTable, List.mem_cons, List.not_mem_nil, or_false] at hrow
  rcases hrow with rfl | rfl | rfl | rfl | rfl | rfl | rfl | rfl | rfl | rfl | rfl | rfl | rfl
  · exact ⟨.setDirect _ _, packBytes_of_matches_low h⟩
  · exact ⟨.getDirect _, packBytes_of_matches_low16 h⟩
  · exact ⟨.setInternal _ _ _, packBytes_of_matches h⟩
  · exact ⟨.getInternal _ _, packBytes_of_matches_low h⟩
  · exact ⟨.fetchFrame, packBytes_of_matches_low24 h⟩
  · exact ⟨.unpackRf, packBytes_of_matches_low24 h⟩
  · exact ⟨.unpackIq, packBytes_of_matches_low24 h⟩
  · exact ⟨.readFrameNorm, packBytes_of_matches_low24 h⟩
  · exact ⟨.cfgWrite _ 0, packBytes_of_matches_low16 h⟩
  · exact ⟨.cfgRead _, packBytes_of_matches_low16 h⟩
  · exact ⟨.rawWrite _ _, packIdx_of_matches h⟩
  · exact ⟨.rawRead _, packIdx_of_matches_low h⟩
  · exact ⟨.outRead _, packIdx_of_matches_low h⟩

/-- Every command's word belongs to its row, from the lemmas per command. -/
theorem tableRow (i : Instr) : Laws.TableRow.Statement i := by
  cases i with
  | setDirect addr val => exact Laws.TableRow.setDirect addr val
  | getDirect addr => exact Laws.TableRow.getDirect addr
  | setInternal addr kind val => exact Laws.TableRow.setInternal addr kind val
  | getInternal addr kind => exact Laws.TableRow.getInternal addr kind
  | fetchFrame => exact Laws.TableRow.fetchFrame
  | unpackRf => exact Laws.TableRow.unpackRf
  | unpackIq => exact Laws.TableRow.unpackIq
  | readFrameNorm => exact Laws.TableRow.readFrameNorm
  | cfgWrite reg data => exact Laws.TableRow.cfgWrite reg data
  | cfgRead reg => exact Laws.TableRow.cfgRead reg
  | rawWrite idx val => exact Laws.TableRow.rawWrite idx val
  | rawRead idx => exact Laws.TableRow.rawRead idx
  | outRead idx => exact Laws.TableRow.outRead idx

/-- `legal` holds of the commands' words and of no other (R101). -/
theorem legal_iff {c : Word} : legal c = true ↔ ∃ i, (encode i).cmd = c := by
  unfold legal
  rw [List.any_eq_true]
  constructor
  · rintro ⟨row, hrow, h⟩
    exact exists_encode_of_matches hrow h
  · rintro ⟨i, rfl⟩
    obtain ⟨row, hrow, -, h⟩ := tableRow i
    exact ⟨row, hrow, h⟩

theorem legal_iff_decodes {q : Request} : legal q.cmd = true ↔ ∃ i, decode q = .ok i := legal_iff.trans decodes_iff.symm

/-! ## The data word -/

theorem encode_dataFits (i : Instr) : (encode i).dataFits = true := by
  cases i <;> simp [encode, Request.dataFits, opCfgWrite]

theorem portRequest_eq_self {q : Request} (h : q.dataFits = true) : portRequest q.cmd q.dw = q := by
  obtain ⟨cmd, dw⟩ := q
  simp only [Request.dataFits, Bool.or_eq_true, beq_iff_eq] at h
  simp only [portRequest, beq_iff_eq, Request.mk.injEq, true_and]
  split
  · rfl
  · next hop => exact (h.resolve_left hop).symm

/-! ## The statements settled -/

/-- Settles O1: what the encoder writes the decoder reads back, and a data word stands only in CFG_WRITE's request. -/
theorem decodeOfEncodeIsTheCommand : Obligations.DecodeOfEncodeIsTheCommand := by
  unfold Obligations.DecodeOfEncodeIsTheCommand
  exact fun i => ⟨Machine.decode_encode i, encode_dataFits i⟩

/-- Settles O2: the command's encoding is the request as the port takes it, and the port leaves a fitting one alone. -/
theorem encodeOfDecodeIsTheRequest : Obligations.EncodeOfDecodeIsTheRequest := by
  unfold Obligations.EncodeOfDecodeIsTheRequest
  exact fun q i hdecode hfits => (encode_of_decode hdecode).trans (portRequest_eq_self hfits)

/-- Settles O3: both sides say that the word is some command's. -/
theorem legalExactlyWhenItDecodes : Obligations.LegalExactlyWhenItDecodes := by
  unfold Obligations.LegalExactlyWhenItDecodes
  exact fun q => legal_iff_decodes

/-- Settles O4: a decoding ends in a command, or in the error of a listed or of an unlisted opcode. -/
theorem illegalWordsAreRejectedByName : Obligations.IllegalWordsAreRejectedByName := by
  unfold Obligations.IllegalWordsAreRejectedByName
  intro q op
  have hd := decode_decoding q
  generalize hdecode : decode q = result at hd ⊢
  constructor
  · intro hop
    have hnot : ¬ listedOpcode (opcodeOf q.cmd) := by unfold listedOpcode; omega
    cases hd with
    | command _ hlisted | reserved hlisted => exact absurd hlisted hnot
    | undefined => rfl
  · intro hlisted hillegal
    cases hd with
    | command i => exact absurd (legal_iff_decodes.2 ⟨i, hdecode⟩) (by simp [hillegal])
    | reserved => rfl
    | undefined hnot => exact absurd hlisted hnot

/-- Settles O5: the words are the commands' encodings. -/
theorem exampleWordsDecode : Obligations.ExampleWordsDecode := by
  unfold Obligations.ExampleWordsDecode
  have h := Machine.decode_encode
  exact ⟨h (.setDirect 0x22 0x5A), h (.getDirect 0x12), h (.setInternal 0x30 2 0x01), h (.getInternal 0x30 2),
    h .fetchFrame, h (.cfgWrite 0x05 0x3F000000), h (.rawWrite 0x0005 0xAB), h (.outRead 2)⟩

end Sys2Proof
end

section
/-! SUPPORT. The life of a command around its execution (spec/40_command_lifecycle.md) and the reset: when each agent's
step is enabled and what it does then; then the statements they settle. -/

namespace Sys2Proof

theorem decode?_eq_some_iff {q : Request} {i : Instr} : decode? q = some i ↔ decode q = .ok i := by
  unfold decode?
  cases decode q <;> simp [Except.toOption]

theorem decode?_isSome_iff_legal {q : Request} : (decode? q).isSome = true ↔ legal q.cmd = true := by
  rw [legal_iff_decodes, Option.isSome_iff_exists]
  exact exists_congr fun i => decode?_eq_some_iff

end Sys2Proof

namespace Sys2Proof.Machine

/-! ## X4MBU's own step -/

theorem x4mbuStep_of_decode {s : State} {r : Nat} {q : Request} {p : Pos} {i : Instr} (hpc : s.pc = .exec r q p)
    (hi : decode q = .ok i) : x4mbuStep s = exec i s := x4mbuStep_of_exec hpc (decode?_eq_some_iff.2 hi)

/-- While the lock is free and a request waits, arbitration is an acquisition (R102, R104). -/
theorem arbitrate_of_waiting {s : State} (hlock : s.lockOwner = none) (hpc : s.pc = .idle) (hwf : Memory.wf s.req)
    (hne : s.req ≠ []) :
    ∃ r q tick, Memory.get? s.req r = some q ∧
      arbitrate s = { s with lockOwner := some r, pc := .exec r q .start, tick := tick } := by
  rcases arbitrate_cases s with ⟨hnone, -⟩ | ⟨r, tick, hr, h⟩
  · exact absurd (List.map_eq_nil_iff.1 hnone) hne
  · obtain ⟨q, hq⟩ := mem_waiting hwf hr
    exact ⟨r, q, tick, hq, by rw [h, acquire_of_free hlock hpc hq]⟩

theorem arbitrate_of_none {s : State} (h : s.req = []) : arbitrate s = s := by
  unfold arbitrate State.waiting
  rw [h]
  rfl

/-! ## Submission -/

section
variable {s : State} {r : Nat} {cmd : Word} (hr : r < s.params.nreq) (hreq : Memory.get? s.req r = none) (dw : Word)

include hr hreq in
theorem submit_of_legal (h : legal cmd = true) :
    submit r cmd dw s = { s with
      req := Memory.set s.req r (portRequest cmd dw)
      resp := Memory.erase s.resp r } := by
  obtain ⟨i, hi⟩ := Option.isSome_iff_exists.1 ((decode?_isSome_iff_legal (q := portRequest cmd dw)).2 h)
  unfold submit
  rw [if_pos ⟨hr, hreq⟩, hi]

include hr hreq in
theorem submit_of_illegal (h : legal cmd = false) :
    submit r cmd dw s = { s with resp := Memory.set s.resp r ⟨.illegalCommand, 0⟩ } := by
  have hnone : decode? (portRequest cmd dw) = none := by
    rw [← Option.not_isSome_iff_eq_none, decode?_isSome_iff_legal]
    simpa [portRequest] using h
  unfold submit
  rw [if_pos ⟨hr, hreq⟩, hnone]

theorem submit_of_not_enabled (h : s.params.nreq ≤ r ∨ Memory.get? s.req r ≠ none) : submit r cmd dw s = s := by
  unfold submit
  rw [if_neg]
  rintro ⟨hr, hreq⟩
  exact h.elim (Nat.not_le.2 hr) (· hreq)

end

theorem portRequest_eq (cmd dw : Word) : portRequest cmd dw = ⟨cmd, if opcodeOf cmd = 0x10 then dw else 0⟩ := by
  simp [portRequest, opCfgWrite]

/-! ## The lock and the responses -/

theorem acquire_of_not_enabled {s : State} {r : Nat}
    (h : s.lockOwner ≠ none ∨ s.pc ≠ .idle ∨ Memory.get? s.req r = none) : acquire r s = s := by
  rcases acquire_cases r s with h' | ⟨q, hlock, hpc, hreq, -⟩
  · exact h'
  · rcases h with h | h | h
    · exact absurd hlock h
    · exact absurd hpc h
    · exact absurd (hreq.symm.trans h) nofun

theorem giveUp_of_waiting {s : State} {r r' : Nat} {q : Request} (hreq : Memory.get? s.req r = some q)
    (hlock : s.lockOwner = some r') (hne : r' ≠ r) :
    giveUp r s = { s with req := Memory.erase s.req r, resp := Memory.set s.resp r ⟨.busy, 0⟩ } := by
  unfold giveUp
  rw [hreq, hlock]
  exact if_neg hne

theorem giveUp_of_not_enabled {s : State} {r : Nat}
    (h : s.lockOwner = none ∨ s.lockOwner = some r ∨ Memory.get? s.req r = none) : giveUp r s = s := by
  rcases giveUp_cases r s with h' | ⟨q, r', hreq, hlock, hne, -⟩
  · exact h'
  · rw [hreq, hlock] at h
    rcases h with h | h | h
    · cases h
    · exact absurd (Option.some.inj h) hne
    · cases h

theorem readResponse_of_enabled {s : State} {r : Nat} (h : s.lockOwner = none ∨ s.lockOwner = some r) :
    readResponse r s = { s with resp := Memory.erase s.resp r } := if_pos h

theorem readResponse_of_other_owner {s : State} {r r' : Nat} (hlock : s.lockOwner = some r') (hne : r' ≠ r) :
    readResponse r s = s := by
  unfold readResponse
  rw [hlock, if_neg (by simp [hne])]

/-! ## The statements settled -/

/-- Settles O6: X4MBU moves past the schedule's end and where the schedule names it. -/
theorem stepExecutesTheCommandInFlight : Obligations.StepExecutesTheCommandInFlight := by
  unfold Obligations.StepExecutesTheCommandInFlight
  intro s r q p i hpc hi
  exact ⟨fun h => (step_of_schedule_nil h).trans (x4mbuStep_of_decode hpc hi),
    fun rest h => (step_of_schedule_cons h).trans (x4mbuStep_of_decode (s := { s with schedule := rest }) hpc hi)⟩

/-- Settles O7: a submission is enabled and legal, enabled and illegal, or not enabled. -/
theorem submissionDecodesAtOnce : Obligations.SubmissionDecodesAtOnce := by
  unfold Obligations.SubmissionDecodesAtOnce
  intro s r cmd dw rest hsched
  rw [step_of_schedule_cons hsched, ← portRequest_eq]
  refine ⟨fun hr hreq hlegal => ?_, fun hr hreq hillegal => ?_, fun h => ?_⟩
  · exact congrArg Host.Outcome.next (submit_of_legal (s := { s with schedule := rest }) hr hreq dw hlegal)
  · exact congrArg Host.Outcome.next (submit_of_illegal (s := { s with schedule := rest }) hr hreq dw hillegal)
  · exact congrArg Host.Outcome.next (submit_of_not_enabled (s := { s with schedule := rest }) dw h)

/-- Settles O8: the grant is enabled, or not. -/
theorem acquireTakesTheFreeLock : Obligations.AcquireTakesTheFreeLock := by
  unfold Obligations.AcquireTakesTheFreeLock
  intro s r rest hsched
  rw [step_of_schedule_cons hsched]
  exact ⟨fun q hlock hpc hreq =>
      congrArg Host.Outcome.next (acquire_of_free (s := { s with schedule := rest }) hlock hpc hreq),
    fun h => congrArg Host.Outcome.next (acquire_of_not_enabled (s := { s with schedule := rest }) h)⟩

/-- Settles O9: giving up is enabled, or not. -/
theorem busyEndsOnlyAWaitingRequest : Obligations.BusyEndsOnlyAWaitingRequest := by
  unfold Obligations.BusyEndsOnlyAWaitingRequest
  intro s r rest hsched
  rw [step_of_schedule_cons hsched]
  exact ⟨fun q r' hreq hlock hne =>
      congrArg Host.Outcome.next (giveUp_of_waiting (s := { s with schedule := rest }) hreq hlock hne),
    fun h => congrArg Host.Outcome.next (giveUp_of_not_enabled (s := { s with schedule := rest }) h)⟩

/-- Settles O10: X4MBU's step while Idle is arbitration. -/
theorem idleServesAWaitingRequestOrWaits : Obligations.IdleServesAWaitingRequestOrWaits := by
  unfold Obligations.IdleServesAWaitingRequestOrWaits
  intro s hsched hlock hpc
  rw [step_of_schedule_nil hsched, x4mbuStep_of_idle hpc]
  refine ⟨fun hwf hne => ?_, fun hnone => congrArg Host.Outcome.next (arbitrate_of_none hnone)⟩
  obtain ⟨r, q, tick, hreq, h⟩ := arbitrate_of_waiting hlock hpc hwf hne
  exact ⟨r, q, tick, hreq, congrArg Host.Outcome.next h⟩

/-- Settles O11: a read is enabled and erases its own slot, or not enabled. -/
theorem readingAResponseClearsItsSlot : Obligations.ReadingAResponseClearsItsSlot := by
  unfold Obligations.ReadingAResponseClearsItsSlot
  intro s r rest hsched
  rw [step_of_schedule_cons hsched]
  refine ⟨fun hwf hlock => ?_, fun r' hne hlock => ?_⟩
  · exact ⟨_, congrArg Host.Outcome.next (readResponse_of_enabled (s := { s with schedule := rest }) hlock),
      Memory.get?_erase_self s.resp r hwf, fun r' hr' => Memory.get?_erase_of_ne s.resp hr', rfl⟩
  · exact congrArg Host.Outcome.next (readResponse_of_other_owner (s := { s with schedule := rest }) hlock hne)

/-- Settles O56: every element is written out in the reset state, and with no request arbitration waits. -/
theorem resetStateHasTheResetValues : Obligations.ResetStateHasTheResetValues := by
  unfold Obligations.ResetStateHasTheResetValues
  refine ⟨rfl, rfl, rfl, rfl, rfl, rfl, rfl, rfl, rfl, rfl, rfl, rfl, fun k => ⟨rfl, rfl⟩,
    fun r => ⟨rfl, rfl⟩, rfl, rfl, rfl, ?_⟩
  rw [step_of_schedule_nil rfl, x4mbuStep_of_idle rfl, arbitrate_of_none rfl]

/-- Settles O57: the step is the reset of the state whose schedule entry is used up. -/
theorem resetAbandonsTheCommand : Obligations.ResetAbandonsTheCommand := by
  unfold Obligations.ResetAbandonsTheCommand
  intro s rest hsched
  exact step_of_schedule_cons hsched

end Sys2Proof.Machine
end

section
/-! SUPPORT. What every execution leaves alone (spec/40_command_lifecycle.md, spec/60_exceptions.md), read off the effects
of `exec_effect`, and what every other agent's step leaves alone; then the statements they settle. -/

namespace Sys2Proof.Machine

/-! ## What an execution does to the command in flight -/

/-- `u` is `s` but for registers, buffers, T and what was used of the environment. -/
structure State.SameLife (s u : State) : Prop where
  pc : u.pc = s.pc
  req : u.req = s.req
  resp : u.resp = s.resp
  lockOwner : u.lockOwner = s.lockOwner
  params : u.params = s.params
  schedule : u.schedule = s.schedule

/-- An execution goes on inside its command, or ends it, after a change of registers, buffers and T. -/
theorem Effect.goto_or_endCommand {s t : State} {i : Instr} {p : Pos} (h : Effect s i p (.next t)) :
    ∃ u, s.SameLife u ∧ ((∃ p', t = u.goto p') ∨ ∃ st v, t = u.endCommand st v ∧ (st ≠ .ok → v = 0)) := by
  have ends {u : State} {st : Status} {v : Word} (hu : s.SameLife u) (hv : st ≠ .ok → v = 0) :
      ∃ u', s.SameLife u' ∧ ((∃ p', u.endCommand st v = u'.goto p') ∨
        ∃ st' v', u.endCommand st v = u'.endCommand st' v' ∧ (st' ≠ .ok → v' = 0)) := ⟨u, hu, .inr ⟨st, v, rfl, hv⟩⟩
  have same : s.SameLife s := ⟨rfl, rfl, rfl, rfl, rfl, rfl⟩
  have record (op : SpiOp) : s.SameLife (s.record op) := ⟨rfl, rfl, rfl, rfl, rfl, rfl⟩
  cases h with
  | raised => exact ends same fun _ => rfl
  | failed | timedOut => exact ends (record _) fun _ => rfl
  | moved op bytes p' => exact ⟨s.record op, record op, .inl ⟨p', rfl⟩⟩
  | answered => exact ends (record _) nofun
  | fetched => exact ends ⟨rfl, rfl, rfl, rfl, rfl, rfl⟩ nofun
  | fetchedFirst frs fc bytes =>
    exact ⟨(s.record _).commitFrame fc bytes, ⟨rfl, rfl, rfl, rfl, rfl, rfl⟩, .inl ⟨.unpack fc, rfl⟩⟩
  | unpacked | cfgWritten | rawWritten => exact ends ⟨rfl, rfl, rfl, rfl, rfl, rfl⟩ nofun
  | read => exact ends same nofun

/-! ## The one transaction of an execution -/

/-- An execution makes no transaction, or one, whose failure is its end (R64, R107). -/
theorem Effect.trace_cases {s t : State} {i : Instr} {p : Pos} (h : Effect s i p (.next t)) :
    (t.trace = s.trace ∧ t.chip = s.chip) ∨
      ∃ op, t.trace = s.trace ++ [⟨op, s.answer op⟩] ∧ t.chip = s.chip.tail ∧
        (s.answer op = .err → t = (s.record op).raise .hwError) := by
  cases h with
  | raised | unpacked | cfgWritten | rawWritten | read => exact .inl (by simp)
  | failed op => exact .inr ⟨op, by simp, by simp, fun _ => rfl⟩
  | timedOut op _ _ ha | answered op _ _ _ ha | moved op _ _ _ ha | fetched _ _ _ _ _ ha | fetchedFirst _ _ _ _ _ ha =>
    exact .inr ⟨_, by simp, by simp, fun herr => absurd (ha.symm.trans herr) nofun⟩

theorem Effect.idle_of_not_transacts {s t : State} {i : Instr} {p : Pos} (h : Effect s i p (.next t))
    (hi : transacts i = false) : t.pc = .idle ∧ t.trace = s.trace ∧ t.chip = s.chip := by
  cases h with
  | raised | unpacked | cfgWritten | rawWritten | read => simp
  | failed _ ht | timedOut _ _ ht | moved _ _ _ ht | answered _ _ _ ht => exact absurd (hi.symm.trans ht) nofun
  | fetched _ _ _ hf | fetchedFirst _ _ _ hf => subst hf; cases hi

/-! ## What the other agents' steps and the arbitration leave alone -/

/-- `t` is `s` but for the phase, the lock, the slots and the counter of free values. -/
structure State.SameData (s t : State) : Prop where
  cfg : t.cfg = s.cfg
  rawbuf : t.rawbuf = s.rawbuf
  outbuf : t.outbuf = s.outbuf
  trace : t.trace = s.trace
  params : t.params = s.params
  schedule : t.schedule = s.schedule
  chip : t.chip = s.chip

theorem State.SameData.refl (s : State) : s.SameData s := ⟨rfl, rfl, rfl, rfl, rfl, rfl, rfl⟩

theorem submit_sameData (r : Nat) (cmd dw : Word) (s : State) : s.SameData (submit r cmd dw s) := by
  rcases submit_cases r cmd dw s with h | ⟨-, -, ⟨i, -, h⟩ | ⟨-, h⟩⟩ <;> rw [h]
  · exact .refl s
  all_goals exact ⟨rfl, rfl, rfl, rfl, rfl, rfl, rfl⟩

theorem readResponse_sameData (r : Nat) (s : State) : s.SameData (readResponse r s) := by
  rcases readResponse_cases r s with ⟨r', -, -, h⟩ | ⟨-, h⟩ <;> rw [h]
  · exact .refl s
  · exact ⟨rfl, rfl, rfl, rfl, rfl, rfl, rfl⟩

theorem giveUp_sameData (r : Nat) (s : State) : s.SameData (giveUp r s) := by
  rcases giveUp_cases r s with h | ⟨q, r', -, -, -, h⟩ <;> rw [h]
  · exact .refl s
  · exact ⟨rfl, rfl, rfl, rfl, rfl, rfl, rfl⟩

theorem acquire_sameData (r : Nat) (s : State) : s.SameData (acquire r s) := by
  rcases acquire_cases r s with h | ⟨q, -, -, -, h⟩ <;> rw [h]
  · exact .refl s
  · exact ⟨rfl, rfl, rfl, rfl, rfl, rfl, rfl⟩

theorem arbitrate_sameData (s : State) : s.SameData (arbitrate s) := by
  rcases arbitrate_cases s with ⟨-, h⟩ | ⟨r, tick, -, h⟩ <;> rw [h]
  · exact .refl s
  · obtain ⟨hcfg, hraw, hout, htrace, hparams, hsched, hchip⟩ := acquire_sameData r s
    exact ⟨hcfg, hraw, hout, htrace, hparams, hsched, hchip⟩

/-- Only X4MBU and a reset change registers, buffers or T. -/
theorem eventStep_sameData {e : Event} {s t : State} (hx : e ≠ .x4mbu) (hr : e ≠ .reset) (h : eventStep e s = .next t) :
    s.SameData t := by
  cases e with
  | x4mbu => exact absurd rfl hx
  | reset => exact absurd rfl hr
  | submit r cmd dw => cases h; exact submit_sameData r cmd dw s
  | readResponse r => cases h; exact readResponse_sameData r s
  | giveUp r => cases h; exact giveUp_sameData r s
  | grant r => cases h; exact acquire_sameData r s

/-! ## X4MBU's step -/

/-- X4MBU's step arbitrates, executes the command in flight, or ends an illegal word (log 23). -/
theorem x4mbuStep_cases (s : State) :
    (s.pc = .idle ∧ x4mbuStep s = .next (arbitrate s)) ∨
      ∃ r q p, s.pc = .exec r q p ∧
        ((∃ i, decode q = .ok i ∧ x4mbuStep s = exec i s) ∨
          x4mbuStep s = .next (s.raise .illegalCommand)) := by
  cases hpc : s.pc with
  | idle => exact .inl ⟨rfl, x4mbuStep_of_idle hpc⟩
  | exec r q p =>
    refine .inr ⟨r, q, p, rfl, ?_⟩
    cases hd : decode? q with
    | some i => exact .inl ⟨i, decode?_eq_some_iff.1 hd, x4mbuStep_of_exec hpc hd⟩
    | none => exact .inr (by unfold x4mbuStep; rw [hpc]; dsimp only; rw [hd])

/-- With a command in flight X4MBU's step goes on inside it, or ends it. -/
theorem x4mbuStep_goto_or_endCommand {s t : State} {r : Nat} {q : Request} {p : Pos} (hpc : s.pc = .exec r q p)
    (h : x4mbuStep s = .next t) :
    ∃ u, s.SameLife u ∧ ((∃ p', t = u.goto p') ∨ ∃ st v, t = u.endCommand st v ∧ (st ≠ .ok → v = 0)) := by
  rcases x4mbuStep_cases s with ⟨hidle, -⟩ | ⟨r', q', p', hpc', ⟨i, -, hx⟩ | hx⟩
  · cases hpc.symm.trans hidle
  · exact Effect.goto_or_endCommand (i := i) (p := p) (by rw [← h, hx]; exact exec_effect hpc i)
  · cases hx.symm.trans h
    exact ⟨s, ⟨rfl, rfl, rfl, rfl, rfl, rfl⟩, .inr ⟨_, _, rfl, fun _ => rfl⟩⟩

/-! ## Registers and buffers -/

theorem State.get?_ret_resp {s : State} {r : Nat} {q : Request} {p : Pos} (hpc : s.pc = .exec r q p) (v : Word) :
    Memory.get? (s.ret v).resp r = some ⟨.ok, v⟩ := by
  rw [State.ret_of_exec hpc]
  exact Memory.get?_set_self ..

theorem unpacks_iff {i : Instr} : unpacks i = true ↔ i = .unpackRf ∨ i = .unpackIq ∨ i = .readFrameNorm := by
  cases i <;> simp [unpacks]

theorem readsUnset_iff {i : Instr} :
    readsUnset i = true ↔ i = .unpackRf ∨ i = .unpackIq ∨ i = .readFrameNorm ∨ i = .fetchFrame ∨
      (∃ reg, i = .cfgRead reg) ∨ (∃ k, i = .rawRead k) ∨ ∃ k, i = .outRead k := by
  cases i <;> simp [readsUnset]

/-- A step that answers an error has changed neither registers nor buffers (R224). -/
theorem Effect.unchanged_of_error {s t : State} {i : Instr} {r : Nat} {q : Request} {p : Pos} {st : Status} {v : Word}
    (h : Effect s i p (.next t)) (hpc : s.pc = .exec r q p) (hidle : t.pc = .idle)
    (hresp : Memory.get? t.resp r = some ⟨st, v⟩) (hst : st ≠ .ok) :
    t.cfg = s.cfg ∧ t.rawbuf = s.rawbuf ∧ t.outbuf = s.outbuf := by
  have notOk {u : State} {w : Word} (hresp : Memory.get? (u.ret w).resp r = some ⟨st, v⟩) (hu : u.pc = .exec r q p) :
      False := by
    cases (State.get?_ret_resp hu w).symm.trans hresp
    exact hst rfl
  cases h with
  | raised | failed | timedOut | moved | answered | read => simp
  | fetchedFirst => exact absurd hidle (by simp [hpc])
  | fetched | unpacked | cfgWritten | rawWritten => exact (notOk hresp hpc).elim

/-- A step that leaves the command in flight has changed neither registers nor buffers, but for the fetch commit of
READ_FRAME_NORM (R166). -/
theorem Effect.unchanged_of_in_flight {s t : State} {i : Instr} {p : Pos} (h : Effect s i p (.next t))
    (hidle : t.pc ≠ .idle) :
    (i = .readFrameNorm ∧ ∃ frs fc, p = .raw frs fc) ∨
      (t.cfg = s.cfg ∧ t.rawbuf = s.rawbuf ∧ t.outbuf = s.outbuf) := by
  cases h with
  | moved => exact .inr (by simp)
  | fetchedFirst frs fc _ hi hp => exact .inl ⟨hi, frs, fc, hp⟩
  | raised | failed | timedOut | answered | fetched | unpacked | cfgWritten | rawWritten | read =>
    exact absurd (by simp) hidle

/-- The register an index names is the one with that index. -/
theorem CfgReg.index_of_ofIndex {reg : Byte} {name : CfgReg} (h : ofIndex reg = some name) : name.index = reg := by
  rcases Nat.lt_or_ge reg.toNat 0x0C with hlt | hge
  · obtain ⟨name', rfl⟩ := exists_index_eq (Nat.le_of_lt_succ hlt)
    rw [ofIndex_index] at h
    cases h
    rfl
  · rw [ofIndex_eq_none_of_le hge] at h
    cases h

/-- Of all executions only CFG_WRITE of index 0x00 writes INITIALIZED (R23). -/
theorem Effect.initialized_cases {s t : State} {i : Instr} {p : Pos} (h : Effect s i p (.next t)) :
    t.cfg.initialized = s.cfg.initialized ∨
      ∃ d, i = .cfgWrite 0x00 d ∧ t.cfg.initialized = d.setWidth 1 := by
  cases h with
  | raised | failed | timedOut | moved | answered | rawWritten | read => exact .inl (by simp)
  | fetched | fetchedFirst | unpacked => exact .inl (by simp [CfgRegs.write])
  | cfgWritten reg data name hi hname =>
    cases name with
    | initialized =>
      obtain rfl : (0x00 : Byte) = reg := CfgReg.index_of_ofIndex hname
      exact .inr ⟨data, hi, by simp [CfgRegs.write]⟩
    | _ => exact .inl (by simp [CfgRegs.write])

/-! ## The statements settled -/

/-- Settles O12: the codes are R86's, and an execution goes on inside its command or ends it. -/
theorem executionEndsAllAtOnce : Obligations.ExecutionEndsAllAtOnce := by
  unfold Obligations.ExecutionEndsAllAtOnce
  refine ⟨⟨rfl, rfl, rfl, rfl, rfl, rfl, rfl, rfl, rfl, fun st => by cases st <;> decide⟩, ?_⟩
  intro i s t r q p hpc hexec
  obtain ⟨u, hu, hend⟩ := Effect.goto_or_endCommand (hexec ▸ exec_effect hpc i)
  have hpcu : u.pc = .exec r q p := hu.pc.trans hpc
  rcases hend with ⟨p', rfl⟩ | ⟨st, v, rfl, hv⟩
  · rw [State.goto_of_exec hpcu]
    exact ⟨hu.params, hu.schedule, .inl ⟨hu.lockOwner, hu.req, hu.resp, p', rfl⟩⟩
  · rw [State.endCommand_of_exec hpcu]
    exact ⟨hu.params, hu.schedule, .inr ⟨rfl, rfl, congrArg (Memory.erase · r) hu.req,
      st, v, congrArg (Memory.set · r _) hu.resp, hv⟩⟩

/-- While a command of requester `r` holds the lock, another agent's step is a submission, a giving up, `r`'s read of its
own response, or nothing; the phase and the lock stay (R105). -/
theorem eventStep_of_locked {e : Event} {s t : State} {r : Nat} (hlock : s.lockOwner = some r) (hx : e ≠ .x4mbu)
    (hr : e ≠ .reset) (h : eventStep e s = .next t) :
    t.pc = s.pc ∧ t.lockOwner = s.lockOwner ∧
      ((∃ r' cmd dw, e = .submit r' cmd dw) ∨ (∃ r', e = .giveUp r') ∨ e = .readResponse r ∨ t = s) := by
  cases e with
  | x4mbu => exact absurd rfl hx
  | reset => exact absurd rfl hr
  | submit r' cmd dw =>
    cases h
    refine (?_ : _ ∧ _).elim fun hpc hl => ⟨hpc, hl, .inl ⟨r', cmd, dw, rfl⟩⟩
    rcases submit_cases r' cmd dw s with h | ⟨-, -, ⟨i, -, h⟩ | ⟨-, h⟩⟩ <;> rw [h] <;> exact ⟨rfl, rfl⟩
  | giveUp r' =>
    cases h
    refine (?_ : _ ∧ _).elim fun hpc hl => ⟨hpc, hl, .inr (.inl ⟨r', rfl⟩)⟩
    rcases giveUp_cases r' s with h | ⟨q, r'', -, -, -, h⟩ <;> rw [h] <;> exact ⟨rfl, rfl⟩
  | readResponse r' =>
    cases h
    rcases readResponse_cases r' s with ⟨r'', -, -, h⟩ | ⟨hown, h⟩
    · rw [h]; exact ⟨rfl, rfl, .inr (.inr (.inr rfl))⟩
    · rw [hlock] at hown
      cases hown with
      | inl hnone => cases hnone
      | inr hsame => cases hsame; rw [h]; exact ⟨rfl, rfl, .inr (.inr (.inl rfl))⟩
  | grant r' =>
    cases h
    rw [acquire_of_not_enabled (.inl (by simp [hlock]))]
    exact ⟨rfl, rfl, .inr (.inr (.inr rfl))⟩

/-- Settles O13: the step is X4MBU's, inside the command or its end, or another agent's under the lock. -/
theorem lockIsHeldToTheEnd : Obligations.LockIsHeldToTheEnd := by
  unfold Obligations.LockIsHeldToTheEnd
  intro s t r q p hinv hpc hstep hreset
  have hlock : s.lockOwner = some r := by rw [hinv.lock, hpc]; rfl
  rcases step_cases s with ⟨rest, hsched, hx⟩ | ⟨e, rest, hsched, hne, he⟩
  · obtain ⟨u, hu, hend⟩ := x4mbuStep_goto_or_endCommand (s := { s with schedule := rest }) hpc (hx.symm.trans hstep)
    have hpcu : u.pc = .exec r q p := hu.pc.trans hpc
    refine ⟨?_, fun e he hne => ?_⟩
    · rcases hend with ⟨p', rfl⟩ | ⟨st, v, rfl, -⟩
      · rw [State.goto_of_exec hpcu]
        exact .inl ⟨hu.lockOwner.trans hlock, p', rfl⟩
      · rw [State.endCommand_of_exec hpcu]
        refine .inr ⟨rfl, rfl, Memory.get?_erase_self _ _ ?_, _, Memory.get?_set_self ..⟩
        rw [hu.req]
        exact hinv.slots.1.1
    · rcases hsched with ⟨hnil, -⟩ | hcons
      · simp [hnil] at he
      · simp [hcons] at he
        exact absurd he.symm hne
  · have hr : e ≠ .reset := by rintro rfl; exact hreset (by rw [hsched]; rfl)
    obtain ⟨hpc', hlock', hwhat⟩ := eventStep_of_locked (s := { s with schedule := rest }) hlock hne hr (he.symm.trans hstep)
    have hdata := eventStep_sameData hne hr (he.symm.trans hstep)
    refine ⟨.inl ⟨hlock'.trans hlock, p, hpc'.trans hpc⟩, fun e' he' _ => ⟨⟨hpc', hlock', hdata.cfg, hdata.rawbuf,
      hdata.outbuf, hdata.trace, hdata.chip⟩, ?_⟩⟩
    obtain rfl : e = e' := by simpa [hsched] using he'
    simpa [hsched] using hwhat

/-- Settles O14: every execution by its effects, and every other step changes no data. -/
theorem atMostOneTransactionAStep : Obligations.AtMostOneTransactionAStep := by
  unfold Obligations.AtMostOneTransactionAStep
  have hexec (i : Instr) (s t : State) (h : exec i s = .next t) :
      (t.trace = s.trace ∧ t.chip = s.chip) ∨
        ∃ op, t.trace = s.trace ++ [⟨op, s.answer op⟩] ∧ t.chip = s.chip.tail := by
    cases hpc : s.pc with
    | idle => cases (exec_of_idle hpc i).symm.trans h; exact .inl ⟨rfl, rfl⟩
    | exec r q p =>
      refine (Effect.trace_cases (h ▸ exec_effect hpc i)).imp_right ?_
      rintro ⟨op, htrace, hchip, -⟩
      exact ⟨op, htrace, hchip⟩
  refine ⟨hexec, fun s t hstep hreset => ?_⟩
  rcases step_cases s with ⟨rest, -, hx⟩ | ⟨e, rest, hsched, hne, he⟩
  · rcases x4mbuStep_cases { s with schedule := rest } with ⟨-, h⟩ | ⟨r, q, p, -, ⟨i, -, h⟩ | h⟩ <;>
      have h := (hx.trans h).symm.trans hstep
    · cases h
      have hdata := arbitrate_sameData { s with schedule := rest }
      exact .inl ⟨hdata.trace, hdata.chip⟩
    · exact hexec i { s with schedule := rest } t h
    · cases h
      exact .inl (by simp)
  · have hdata := eventStep_sameData hne (by rintro rfl; exact hreset (by rw [hsched]; rfl)) (he.symm.trans hstep)
    exact .inl ⟨hdata.trace, hdata.chip⟩

/-- Settles O15: none of the seven makes transactions. -/
theorem commandsWithoutTransactionsEndAtOnce : Obligations.CommandsWithoutTransactionsEndAtOnce := by
  unfold Obligations.CommandsWithoutTransactionsEndAtOnce
  intro i s t r q p hi hpc hexec
  refine Effect.idle_of_not_transacts (hexec ▸ exec_effect hpc i) ?_
  rcases hi with rfl | rfl | ⟨reg, d, rfl⟩ | ⟨reg, rfl⟩ | ⟨k, v, rfl⟩ | ⟨k, rfl⟩ | ⟨k, rfl⟩ <;> rfl

/-- Settles O16: the new entry is the one transaction of the step, and its failure is the command's end. -/
theorem errEndsTheCommandWithHwError : Obligations.ErrEndsTheCommandWithHwError := by
  unfold Obligations.ErrEndsTheCommandWithHwError
  intro i s t r q p op hpc hexec htrace
  rcases Effect.trace_cases (hexec ▸ exec_effect hpc i) with ⟨hsame, -⟩ | ⟨op', hnew, -, herr⟩
  · rw [hsame] at htrace
    simp at htrace
  · rw [htrace, List.append_cancel_left_eq, List.cons.injEq, TraceEntry.mk.injEq] at hnew
    obtain ⟨⟨rfl, ha⟩, -⟩ := hnew
    rw [herr ha.symm, record_of_answer ha.symm, State.raise_eq_ended ((State.after_pc ..).trans hpc)]

/-- Settles O52: an execution's effects are next states and the two faults. -/
theorem onlyTheNamedFaultsAndNoRefusal : Obligations.OnlyTheNamedFaultsAndNoRefusal := by
  unfold Obligations.OnlyTheNamedFaultsAndNoRefusal
  intro i s
  cases hpc : s.pc with
  | idle => rw [exec_of_idle hpc i]; exact ⟨nofun, nofun, nofun⟩
  | exec r q p =>
    have h := exec_effect hpc i
    generalize exec i s = o at h
    refine ⟨fun e he => ?_, fun hf => ?_, fun hf => ?_⟩
    · subst he; cases h
    · subst hf
      cases h with
      | widthZero hi hw => exact ⟨hw, unpacks_iff.1 hi⟩
    · subst hf
      cases h with
      | readUnset hi => exact readsUnset_iff.1 hi

/-- Settles O53: by the effects of an error, and of a step inside a command. -/
theorem errorsLeaveRegistersAndBuffers : Obligations.ErrorsLeaveRegistersAndBuffers := by
  unfold Obligations.ErrorsLeaveRegistersAndBuffers
  intro i s t r q p hpc hexec
  have h : Effect s i p (.next t) := hexec ▸ exec_effect hpc i
  exact ⟨fun st v hidle hresp hst => h.unchanged_of_error hpc hidle hresp hst, h.unchanged_of_in_flight⟩

/-- Settles O54: only the commits, CFG_WRITE and RAW_WRITE write registers or buffers. -/
theorem commandsWriteOnlyTheirOwnState : Obligations.CommandsWriteOnlyTheirOwnState := by
  unfold Obligations.CommandsWriteOnlyTheirOwnState
  intro i s t hexec
  cases hpc : s.pc with
  | idle =>
    cases (exec_of_idle hpc i).symm.trans hexec
    exact ⟨fun _ _ _ _ _ => rfl, fun _ _ _ _ => rfl, fun _ _ _ _ => rfl⟩
  | exec r q p =>
    have h : Effect s i p (.next t) := hexec ▸ exec_effect hpc i
    cases h with
    | raised | failed | timedOut | moved | answered | read => simp
    | fetched _ _ _ hi | fetchedFirst _ _ _ hi => simp [hi]
    | cfgWritten reg data _ hi => simp [hi]
    | rawWritten idx val hi => simp [hi]
    | unpacked _ _ _ _ hi => rcases unpacks_iff.1 hi with rfl | rfl | rfl <;> simp

/-- Settles O55: of X4MBU's executions only CFG_WRITE of index 0x00, of the other agents' steps only the reset. -/
theorem initializedIsTheHostsAlone : Obligations.InitializedIsTheHostsAlone := by
  unfold Obligations.InitializedIsTheHostsAlone
  intro s t hstep hchanged
  rcases step_cases s with ⟨rest, -, hx⟩ | ⟨e, rest, hsched, hne, he⟩
  · rcases x4mbuStep_cases { s with schedule := rest } with ⟨-, h⟩ | ⟨r, q, p, hpc, ⟨i, hi, h⟩ | h⟩ <;>
      have h := (hx.trans h).symm.trans hstep
    · cases h
      exact absurd (congrArg CfgRegs.initialized (arbitrate_sameData { s with schedule := rest }).cfg) hchanged
    · rcases Effect.initialized_cases (h ▸ exec_effect hpc i) with hsame | ⟨d, rfl, hd⟩
      · exact absurd hsame hchanged
      · exact .inr ⟨r, q, p, d, hpc, hi, hd⟩
    · cases h
      exact absurd (by simp) hchanged
  · by_cases hr : e = .reset
    · exact .inl (by rw [hsched, hr]; rfl)
    · exact absurd (congrArg CfgRegs.initialized (eventStep_sameData hne hr (he.symm.trans hstep)).cfg) hchanged

end Sys2Proof.Machine
end

section
/-! SUPPORT. The invariant of the machine: every update a step can make keeps it, so every step does; and, from it, that a
command in flight comes nearer its end with every step (spec/40_command_lifecycle.md R109); then the statements they
settle. -/

namespace Sys2Proof.Machine

/-! ## Updates that keep the invariant -/

theorem Phase.fits_exec_iff {params : Params} {req : Memory Request} {r : Nat} {q : Request} {p : Pos} :
    (Phase.exec r q p).fits params req = true ↔
      Memory.get? req r = some q ∧ ∃ i, decode q = .ok i ∧ p.fits params i = true := by
  simp only [Phase.fits, Bool.and_eq_true, beq_iff_eq, ← decode?_eq_some_iff]
  cases decode? q <;> simp

section
variable {s : State} (h : s.Inv)
include h

theorem State.Inv.withSchedule (rest : List Event) : { s with schedule := rest }.Inv :=
  ⟨h.params, h.raw, h.out, h.slots, h.lock, h.requests, h.flight, h.outCount, h.responses, h.trace⟩

theorem State.Inv.withTick (tick : Nat) : { s with tick := tick }.Inv :=
  ⟨h.params, h.raw, h.out, h.slots, h.lock, h.requests, h.flight, h.outCount, h.responses, h.trace⟩

theorem State.Inv.data : s.DataInv := ⟨h.raw, h.out, h.outCount, h.trace⟩

theorem State.Inv.resetMachine : (resetMachine s).Inv where
  params := h.params
  raw := ⟨.nil, nofun⟩
  out := ⟨.nil, nofun⟩
  slots := ⟨⟨.nil, nofun⟩, .nil, nofun⟩
  lock := rfl
  requests := nofun
  flight := rfl
  outCount := Nat.zero_le _
  responses := nofun
  trace := nofun

/-- A requester with a request is one of the machine's. -/
theorem State.Inv.lt_nreq {r : Nat} {q : Request} (hreq : Memory.get? s.req r = some q) : r < s.params.nreq :=
  h.slots.1.2 _ (Memory.mem_of_get? hreq)

theorem State.Inv.responses_set {r : Nat} {st : Status} {v : Word} (hv : st ≠ .ok → v = 0) :
    ∀ c ∈ Memory.set s.resp r ⟨st, v⟩, c.2.status ≠ .ok → c.2.rdata = 0 := by
  intro c hc
  rcases Memory.mem_set hc with rfl | hc
  · exact hv
  · exact h.responses c hc

theorem State.Inv.resp_set {r : Nat} (hr : r < s.params.nreq) (a : Response) :
    Memory.wf (Memory.set s.resp r a) ∧ Memory.below s.params.nreq (Memory.set s.resp r a) :=
  ⟨Memory.wf_set _ _ _ h.slots.2.1, Memory.below_set _ h.slots.2.2 hr⟩

theorem State.Inv.resp_erase (r : Nat) :
    Memory.wf (Memory.erase s.resp r) ∧ Memory.below s.params.nreq (Memory.erase s.resp r) :=
  ⟨Memory.wf_erase _ _ h.slots.2.1, Memory.below_erase _ h.slots.2.2⟩

theorem State.Inv.req_erase (r : Nat) :
    Memory.wf (Memory.erase s.req r) ∧ Memory.below s.params.nreq (Memory.erase s.req r) :=
  ⟨Memory.wf_erase _ _ h.slots.1.1, Memory.below_erase _ h.slots.1.2⟩

/-- The command in flight still fits when another requester's slot changes. -/
theorem State.Inv.flight_of_req {req : Memory Request}
    (hreq : ∀ r, s.pc.requester? = some r → Memory.get? req r = Memory.get? s.req r) :
    s.pc.fits s.params req = true := by
  cases hpc : s.pc with
  | idle => rfl
  | exec r q p =>
    have hfits := h.flight
    rw [hpc, Phase.fits_exec_iff] at hfits
    rw [Phase.fits_exec_iff, hreq r (by rw [hpc]; rfl)]
    exact hfits

/-- A response written into a requester's slot. -/
theorem State.Inv.withResponse {r : Nat} {st : Status} {v : Word} (hr : r < s.params.nreq) (hv : st ≠ .ok → v = 0) :
    { s with resp := Memory.set s.resp r ⟨st, v⟩ }.Inv :=
  { h with slots := ⟨h.slots.1, h.resp_set hr _⟩, responses := h.responses_set hv }

/-- A response slot emptied. -/
theorem State.Inv.withoutResponse (r : Nat) : { s with resp := Memory.erase s.resp r }.Inv :=
  { h with
    slots := ⟨h.slots.1, h.resp_erase r⟩
    responses := fun c hc => h.responses c (Memory.mem_erase hc) }

/-- A legal request put into a slot that is empty. -/
theorem State.Inv.withRequest {r : Nat} {q : Request} (hr : r < s.params.nreq) (hnone : Memory.get? s.req r = none)
    (hq : (decode? q).isSome = true ∧ q.dataFits = true) : { s with req := Memory.set s.req r q }.Inv :=
  { h with
    slots := ⟨⟨Memory.wf_set _ _ _ h.slots.1.1, Memory.below_set _ h.slots.1.2 hr⟩, h.slots.2⟩
    requests := fun c hc => by
      rcases Memory.mem_set hc with rfl | hc
      · exact hq
      · exact h.requests c hc
    flight := h.flight_of_req fun r' hr' => Memory.get?_set_of_ne _ _ <| by
      rintro rfl
      cases hpc : s.pc with
      | idle => rw [hpc] at hr'; cases hr'
      | exec r q p =>
        have hfits := h.flight
        rw [hpc] at hr'
        cases hr'
        rw [hpc, Phase.fits_exec_iff, hnone] at hfits
        cases hfits.1 }

/-- A slot emptied that is not the one of the command in flight. -/
theorem State.Inv.withoutRequest {r : Nat} (hr : s.lockOwner ≠ some r) : { s with req := Memory.erase s.req r }.Inv :=
  { h with
    slots := ⟨h.req_erase r, h.slots.2⟩
    requests := fun c hc => h.requests c (Memory.mem_erase hc)
    flight := h.flight_of_req fun r' hr' => Memory.get?_erase_of_ne _ <| by
      rintro rfl
      exact hr (h.lock.trans hr') }

end

/-! ## The steps around an execution -/

section
variable {s : State} (h : s.Inv)
include h

theorem State.Inv.submit (r : Nat) (cmd dw : Word) : (submit r cmd dw s).Inv := by
  rcases submit_cases r cmd dw s with heq | ⟨hr, hnone, ⟨i, hi, heq⟩ | ⟨-, heq⟩⟩ <;> rw [heq]
  · exact h
  · exact (h.withRequest hr hnone ⟨by rw [hi]; rfl, portRequest_dataFits cmd dw⟩).withoutResponse r
  · exact h.withResponse hr fun _ => rfl

theorem State.Inv.readResponse (r : Nat) : (readResponse r s).Inv := by
  rcases readResponse_cases r s with ⟨r', -, -, heq⟩ | ⟨-, heq⟩ <;> rw [heq]
  · exact h
  · exact h.withoutResponse r

theorem State.Inv.giveUp (r : Nat) : (giveUp r s).Inv := by
  rcases giveUp_cases r s with heq | ⟨q, r', hreq, hlock, hne, heq⟩ <;> rw [heq]
  · exact h
  · exact (h.withoutRequest (by simp [hlock, hne])).withResponse (h.lt_nreq hreq) fun _ => rfl

theorem State.Inv.acquire (r : Nat) : (acquire r s).Inv := by
  rcases acquire_cases r s with heq | ⟨q, -, -, hreq, heq⟩ <;> rw [heq]
  · exact h
  · obtain ⟨i, hi⟩ := Option.isSome_iff_exists.1 (h.requests _ (Memory.mem_of_get? hreq)).1
    exact { h with
      lock := rfl
      flight := Phase.fits_exec_iff.2 ⟨hreq, i, decode?_eq_some_iff.1 hi, rfl⟩ }

theorem State.Inv.arbitrate : (arbitrate s).Inv := by
  rcases arbitrate_cases s with ⟨-, heq⟩ | ⟨r, tick, -, heq⟩ <;> rw [heq]
  · exact h
  · exact (h.acquire r).withTick tick

/-! ## An execution -/

/-- The change of data inside a step of the command in flight. -/
theorem State.Inv.within {u : State} (hu : s.Within u) : u.Inv where
  params := hu.params ▸ h.params
  raw := (hu.data h.data).raw
  out := (hu.data h.data).out
  slots := by rw [hu.params, hu.req, hu.resp]; exact h.slots
  lock := by rw [hu.lockOwner, hu.pc]; exact h.lock
  requests := by rw [hu.req]; exact h.requests
  flight := by rw [hu.pc, hu.params, hu.req]; exact h.flight
  outCount := (hu.data h.data).outCount
  responses := by rw [hu.resp]; exact h.responses
  trace := (hu.data h.data).trace

/-- The command in flight: whose it is, and that its position is one of its own pseudocode. -/
theorem State.Inv.in_flight {r : Nat} {q : Request} {p : Pos} (hpc : s.pc = .exec r q p) :
    Memory.get? s.req r = some q ∧ ∃ i, decode q = .ok i ∧ p.fits s.params i = true := by
  rw [← Phase.fits_exec_iff, ← hpc]
  exact h.flight

theorem State.Inv.goto {r : Nat} {q : Request} {p p' : Pos} {i : Instr} (hpc : s.pc = .exec r q p)
    (hi : decode q = .ok i) (hfit : p'.fits s.params i = true) : (s.goto p').Inv := by
  rw [State.goto_of_exec hpc]
  exact { h with
    lock := by rw [h.lock, hpc]; rfl
    flight := Phase.fits_exec_iff.2 ⟨(h.in_flight hpc).1, i, hi, hfit⟩ }

theorem State.Inv.endCommand {r : Nat} {q : Request} {p : Pos} {st : Status} {v : Word} (hpc : s.pc = .exec r q p)
    (hv : st ≠ .ok → v = 0) : (s.endCommand st v).Inv := by
  rw [State.endCommand_of_exec hpc]
  exact { h with
    slots := ⟨h.req_erase r, h.resp_set (h.lt_nreq (h.in_flight hpc).1) _⟩
    lock := rfl
    requests := fun c hc => h.requests c (Memory.mem_erase hc)
    flight := rfl
    responses := h.responses_set hv }

/-- X4MBU's step on a command in flight is that command's step, of one of the three kinds. -/
theorem State.Inv.x4mbuStep_kind {r : Nat} {q : Request} {p : Pos} {i : Instr} (hpc : s.pc = .exec r q p)
    (hi : decode q = .ok i) : StepKind s i p (x4mbuStep s) := by
  obtain ⟨-, j, hj, hfit⟩ := h.in_flight hpc
  cases hj.symm.trans hi
  rw [x4mbuStep_of_decode hpc hi]
  exact exec_kind hpc h.params hfit

theorem State.Inv.x4mbuStep {t : State} (hstep : x4mbuStep s = .next t) : t.Inv := by
  cases hpc : s.pc with
  | idle =>
    cases (x4mbuStep_of_idle hpc).symm.trans hstep
    exact h.arbitrate
  | exec r q p =>
    obtain ⟨-, i, hi, -⟩ := h.in_flight hpc
    have hkind := h.x4mbuStep_kind hpc hi
    rw [hstep] at hkind
    cases hkind with
    | fault f hf => cases hf
    | ends u st v ht hu hv =>
      cases ht
      exact (h.within hu).endCommand (hu.pc.trans hpc) hv
    | goes u p' ht hu hfit =>
      cases ht
      exact (h.within hu).goto (hu.pc.trans hpc) hi (hu.params.symm ▸ hfit)

theorem State.Inv.eventStep {e : Event} {t : State} (hstep : eventStep e s = .next t) : t.Inv := by
  cases e with
  | x4mbu => exact h.x4mbuStep hstep
  | submit r cmd dw => cases hstep; exact h.submit r cmd dw
  | readResponse r => cases hstep; exact h.readResponse r
  | giveUp r => cases hstep; exact h.giveUp r
  | grant r => cases hstep; exact h.acquire r
  | reset => cases hstep; exact h.resetMachine

theorem State.Inv.step {t : State} (hstep : step s = .next t) : t.Inv := by
  cases hsched : s.schedule with
  | nil => exact h.x4mbuStep ((step_of_schedule_nil hsched).symm.trans hstep)
  | cons e rest => exact (h.withSchedule rest).eventStep ((step_of_schedule_cons hsched).symm.trans hstep)

end

/-! ## The way to a command's end -/

theorem MailboxPos.one_le_bound (m : MailboxPos) (p : Params) (queued reply : Nat) : 1 ≤ m.bound p queued reply := by
  cases m <;> simp only [MailboxPos.bound, Config.pollMax] <;> omega

theorem startBound_pos (p : Params) (i : Instr) : 1 ≤ startBound p i := by
  cases i <;> simp only [startBound, accessBound, fetchTailBound, Config.pollMax] <;> omega

theorem Pos.one_le_bound (pos : Pos) (p : Params) (i : Instr) : 1 ≤ pos.bound p i := by
  cases pos with
  | start => exact startBound_pos p i
  | directRecv | raw | unpack => simp [Pos.bound]
  | mailbox m =>
    simp only [Pos.bound]
    split <;> exact m.one_le_bound ..
  | counter frs j acc m =>
    have := m.one_le_bound p 2 2
    simp only [Pos.bound]
    omega
  | action frs fc m => simp [Pos.bound]

/-- A command in flight, no other agent moving, stops at a fault or ends within the bound of its position: each step that
does neither leaves a smaller bound. -/
theorem exists_end_within_bound {r : Nat} {q : Request} {i : Instr} (hi : decode q = .ok i) {s : State} {p : Pos}
    (h : s.Inv) (hsched : s.schedule = []) (hpc : s.pc = .exec r q p) :
    ∃ n, n < p.bound s.params i ∧ ∃ u, run? n s = some u ∧
      ((∃ f, step u = .fault f) ∨
        ∃ t, step u = .next t ∧ t.pc = .idle ∧ t.lockOwner = none ∧ ∃ a, Memory.get? t.resp r = some a) := by
  induction hb : p.bound s.params i using Nat.strong_induction_on generalizing s p with
  | _ b ih =>
    have hpos : 0 < b := hb ▸ p.one_le_bound s.params i
    have hstep : step s = x4mbuStep s := step_of_schedule_nil hsched
    cases h.x4mbuStep_kind hpc hi with
    | fault f hf => exact ⟨0, hpos, s, rfl, .inl ⟨f, hstep.trans hf⟩⟩
    | ends u st v ht hu =>
      refine ⟨0, hpos, s, rfl, .inr ⟨_, hstep.trans ht, ?_⟩⟩
      rw [State.endCommand_of_exec (hu.pc.trans hpc)]
      exact ⟨rfl, rfl, _, Memory.get?_set_self ..⟩
    | goes u p' ht hu _ hlt =>
      have hnext : step s = .next (u.goto p') := hstep.trans ht
      have hparams : (u.goto p').params = s.params := hu.params
      obtain ⟨n, hn, w, hrun, hend⟩ := ih (p'.bound s.params i) (hb ▸ hlt) (h.step hnext) (hu.schedule.trans hsched)
        (show (u.goto p').pc = .exec r q p' by simp [hu.pc, hpc]) (by rw [hparams])
      exact ⟨n + 1, by omega, w, by simp only [run?, hnext]; exact hrun, hend⟩

/-! ## The statements settled -/

/-- Settles O58: with legal parameters, everything else is empty. -/
theorem invHoldsAfterReset : Obligations.InvHoldsAfterReset where
  params := params_legal
  raw := ⟨.nil, nofun⟩
  out := ⟨.nil, nofun⟩
  slots := ⟨⟨.nil, nofun⟩, .nil, nofun⟩
  lock := rfl
  requests := nofun
  flight := rfl
  outCount := Nat.zero_le _
  responses := nofun
  trace := nofun

/-- Settles O59: by the lemma of the agent that moves. -/
theorem everyStepKeepsTheInvariant : Obligations.EveryStepKeepsTheInvariant := by
  unfold Obligations.EveryStepKeepsTheInvariant
  exact fun s t hinv hstep => hinv.step hstep

/-- Settles O60, by induction on the bound of the position. -/
theorem everyCommandEndsWithinItsBound : Obligations.EveryCommandEndsWithinItsBound := by
  unfold Obligations.EveryCommandEndsWithinItsBound
  exact fun s r q p i hinv hsched hpc hi => exists_end_within_bound hi hinv hsched hpc

end Sys2Proof.Machine
end

section
/-! SUPPORT. A mailbox access as data (spec/42_mailbox.md R130 to R137): the transaction of each position and where its
answer leads, which both mailbox commands and the five accesses of the fetch share. -/

namespace Sys2Proof.Machine

/-! ## The command in flight after one direct transaction -/

section
variable {s : State} {r : Nat} {q : Request} {p : Pos} (hpc : s.pc = .exec r q p)
include hpc

theorem State.goto_after (op : SpiOp) (res : SpiResult) (p' : Pos) :
    (s.after op res).goto p' = (s.after op res).at r q p' := State.goto_eq_at ((State.after_pc ..).trans hpc) p'

theorem State.raise_after (op : SpiOp) (res : SpiResult) (st : Status) :
    (s.after op res).raise st = (s.after op res).ended r st 0 := State.raise_eq_ended ((State.after_pc ..).trans hpc) st

theorem State.ret_after (op : SpiOp) (res : SpiResult) (v : Word) :
    (s.after op res).ret v = (s.after op res).ended r .ok v := State.ret_eq_ended ((State.after_pc ..).trans hpc) v

end

/-! ## An access -/

/-- A mailbox access by what it queues, and whether it reads a reply byte (R136, R137). -/
structure Access where
  queued : List Byte
  reads : Bool

/-- Where the answer to one transaction of an access leads. -/
inductive AccessMove where
  | goes (m : MailboxPos)
  | timeout
  | done (b : Byte)

namespace Access

/-- The test of the access's poll (R133, R135). -/
def ready (x : Access) (p : Params) (status : Byte) : Bool :=
  if x.reads then readReady p status else toCpuEmpty p status

/-- The transaction of a position. -/
def op (x : Access) (p : Params) : MailboxPos → SpiOp
  | .drainStatusSend _ | .pollSend _ => .write [p.mbxStatusAddr]
  | .drainDataSend _ | .replySend _ => .write [p.mbxFromCpuAddr]
  | .drainStatusRecv _ | .drainDataRecv _ | .pollRecv _ | .replyRecv _ => .read 1
  | .queue j =>
    match x.queued[j]? with
    | some b => .write [p.mbxToCpuAddr ||| p.writeBit, b]
    | none => .write [p.mbxStatusAddr]

/-- Where a position leads when its transaction is answered by the bytes `got`. -/
def move (x : Access) (p : Params) (m : MailboxPos) (got : List Byte) : AccessMove :=
  match m with
  | .drainStatusSend d => .goes (.drainStatusRecv d)
  | .drainStatusRecv d => .goes (if fromCpuValid p (firstByte got) then .drainDataSend d else .queue 0)
  | .drainDataSend d => .goes (.drainDataRecv d)
  | .drainDataRecv d => if d < p.drainMax then .goes (.drainStatusSend (d + 1)) else .timeout
  | .queue j =>
    match x.queued[j]? with
    | some _ => .goes (if j + 1 < x.queued.length then .queue (j + 1) else .pollSend 1)
    | none => .goes (.pollRecv 1)
  | .pollSend n => .goes (.pollRecv n)
  | .pollRecv n =>
    if x.ready p (firstByte got) then if x.reads then .goes (.replySend n) else .done 0
    else if n < Config.pollMax then .goes (.pollSend (n + 1))
    else .timeout
  | .replySend n => .goes (.replyRecv n)
  | .replyRecv _ => .done (firstByte got)

/-- What a command does where an access leads: `place` is its position for one in the access, `done` what it does after. -/
def follow (place : MailboxPos → Pos) (done : Byte → State → State) (t : State) : AccessMove → State
  | .goes m => t.goto (place m)
  | .timeout => t.raise .pifTimeout
  | .done b => done b t

/-- One transaction of an access. -/
def advance (x : Access) (place : MailboxPos → Pos) (done : Byte → State → State) (m : MailboxPos) (s : State) : State :=
  transact s (x.op s.params m) fun got t => follow place done t (x.move t.params m got)

end Access

/-- The FSM runs an access where its test, its poll's end and its reply are the access's. -/
theorem mailboxStep_eq_advance (x : Access) (onReady : Nat → State → State) (place : MailboxPos → Pos)
    (done : Byte → State → State) (m : MailboxPos) (s : State)
    (hready : ∀ n t, onReady n t = if x.reads then t.goto (place (.replySend n)) else done 0 t) :
    mailboxStep x.queued x.ready onReady done place m s = x.advance place done m s := by
  unfold mailboxStep Access.advance
  cases m with
  | drainStatusRecv d | drainDataRecv d =>
    refine congrArg (transact s (.read 1)) (funext fun got => funext fun t => ?_)
    dsimp only [Access.move]
    split <;> rfl
  | pollRecv n =>
    refine congrArg (transact s (.read 1)) (funext fun got => funext fun t => ?_)
    dsimp only [Access.move]
    rw [hready]
    split
    · split <;> rfl
    · split <;> rfl
  | queue j =>
    simp only [Access.op, Access.move]
    cases x.queued[j]? <;> rfl
  | drainStatusSend d | drainDataSend d | pollSend n | replySend n | replyRecv n => rfl

/-- `InternalWrite(a, k, v)` (R136) is the access that queues the three bytes. -/
theorem internalWrite_eq_advance (a k v : Byte) (place : MailboxPos → Pos) (done : State → State) (m : MailboxPos)
    (s : State) :
    internalWrite a k v place done m s = Access.advance ⟨[a, k, v], false⟩ place (fun _ => done) m s :=
  mailboxStep_eq_advance ⟨[a, k, v], false⟩ (fun _ => done) place (fun _ => done) m s fun _ _ => rfl

/-- `InternalRead(a, k)` (R137) is the access that queues the two bytes and reads the reply. -/
theorem internalRead_eq_advance (a k : Byte) (place : MailboxPos → Pos) (done : Byte → State → State) (m : MailboxPos)
    (s : State) :
    internalRead a k place done m s = Access.advance ⟨[a, k], true⟩ place done m s :=
  mailboxStep_eq_advance ⟨[a, k], true⟩ _ place done m s fun _ _ => rfl

/-! ## One transaction of an access by its answer -/

namespace Access

variable {x : Access} {place : MailboxPos → Pos} {done : Byte → State → State} {m : MailboxPos} {s : State}

theorem advance_ok {got : List Byte} (ha : s.answer (x.op s.params m) = .ok got) :
    x.advance place done m s =
      follow place done (s.after (x.op s.params m) (.ok got)) (x.move s.params m got) := transact_ok ha _

section
variable {r : Nat} {q : Request} {p : Pos} (hpc : s.pc = .exec r q p)
include hpc

theorem advance_err (ha : s.answer (x.op s.params m) = .err) :
    x.advance place done m s = (s.after (x.op s.params m) .err).ended r .hwError 0 := transact_err_ended hpc ha _

theorem advance_goes {got : List Byte} {m' : MailboxPos} (ha : s.answer (x.op s.params m) = .ok got)
    (hm : x.move s.params m got = .goes m') :
    x.advance place done m s = (s.after (x.op s.params m) (.ok got)).at r q (place m') := by
  rw [advance_ok ha, hm]
  exact State.goto_after hpc _ _ _

theorem advance_timeout {got : List Byte} (ha : s.answer (x.op s.params m) = .ok got)
    (hm : x.move s.params m got = .timeout) :
    x.advance place done m s = (s.after (x.op s.params m) (.ok got)).ended r .pifTimeout 0 := by
  rw [advance_ok ha, hm]
  exact State.raise_after hpc _ _ _

end

theorem advance_done {got : List Byte} {b : Byte} (ha : s.answer (x.op s.params m) = .ok got)
    (hm : x.move s.params m got = .done b) :
    x.advance place done m s = done b (s.after (x.op s.params m) (.ok got)) := by
  rw [advance_ok ha, hm]
  rfl

end Access

/-! ## The commands that are one access -/

/-- SET_INTERNAL and GET_INTERNAL as accesses, with what they answer at the end (R131, R134). -/
inductive IsAccess : Instr → Access → (Byte → Word) → Prop
  | setInternal (a k v : Byte) : IsAccess (.setInternal a k v) ⟨[a, k, v], false⟩ fun _ => 0
  | getInternal (a k : Byte) : IsAccess (.getInternal a k) ⟨[a, k], true⟩ fun b => b.setWidth 32

section
variable {i : Instr} {x : Access} {rdata : Byte → Word} (hx : IsAccess i x rdata) {s : State} {r : Nat} {q : Request}
include hx

theorem IsAccess.exec_mailbox {m : MailboxPos} (hpc : s.pc = .exec r q (.mailbox m)) :
    exec i s = .next (x.advance .mailbox (fun b t => t.ret (rdata b)) m s) := by
  cases hx with
  | setInternal a k v => rw [exec_setInternal_mailbox hpc, internalWrite_eq_advance]
  | getInternal a k => rw [exec_getInternal_mailbox hpc, internalRead_eq_advance]

/-- Past the gate the command's first step is its access's first transaction (R138, log 11). -/
theorem IsAccess.exec_start (hpc : s.pc = .exec r q .start) (hinit : s.cfg.initialized ≠ 0) :
    exec i s = .next (x.advance .mailbox (fun b t => t.ret (rdata b)) .first s) := by
  have hgate : ¬ s.gateClosed = true := fun h => hinit (State.gateClosed_eq_true_iff.1 h)
  cases hx with
  | setInternal a k v =>
    rw [← internalWrite_eq_advance]
    exact (underLock_of_exec hpc _).trans (congrArg Host.Outcome.next (if_neg hgate))
  | getInternal a k =>
    rw [← internalRead_eq_advance]
    exact (underLock_of_exec hpc _).trans (congrArg Host.Outcome.next (if_neg hgate))

end

theorem isAccess_of_internal {i : Instr} (hi : (∃ a k v, i = .setInternal a k v) ∨ ∃ a k, i = .getInternal a k) :
    ∃ x rdata, IsAccess i x rdata := by
  rcases hi with ⟨a, k, v, rfl⟩ | ⟨a, k, rfl⟩
  · exact ⟨_, _, .setInternal a k v⟩
  · exact ⟨_, _, .getInternal a k⟩

end Sys2Proof.Machine
end

section
/-! SUPPORT. The direct-bus commands (spec/41_direct_bus.md) and the single steps of the mailbox commands
(spec/42_mailbox.md): each position with each answer; then the statements they settle. -/

namespace Sys2Proof.Machine

/-! ## A mailbox command at a position of its access -/

section
variable {i : Instr} {x : Access} {rdata : Byte → Word} (hx : IsAccess i x rdata) {s : State} {r : Nat} {q : Request}
  {m : MailboxPos} (hpc : s.pc = .exec r q (.mailbox m))
include hx hpc

theorem IsAccess.exec_goes {got : List Byte} {m' : MailboxPos} (ha : s.answer (x.op s.params m) = .ok got)
    (hm : x.move s.params m got = .goes m') :
    exec i s = .next ((s.after (x.op s.params m) (.ok got)).at r q (.mailbox m')) := by
  rw [hx.exec_mailbox hpc, Access.advance_goes hpc ha hm]

theorem IsAccess.exec_timeout {got : List Byte} (ha : s.answer (x.op s.params m) = .ok got)
    (hm : x.move s.params m got = .timeout) :
    exec i s = .next ((s.after (x.op s.params m) (.ok got)).ended r .pifTimeout 0) := by
  rw [hx.exec_mailbox hpc, Access.advance_timeout hpc ha hm]

theorem IsAccess.exec_done {got : List Byte} {b : Byte} (ha : s.answer (x.op s.params m) = .ok got)
    (hm : x.move s.params m got = .done b) :
    exec i s = .next ((s.after (x.op s.params m) (.ok got)).ended r .ok (rdata b)) := by
  rw [hx.exec_mailbox hpc, Access.advance_done ha hm, State.ret_after hpc]

theorem IsAccess.exec_err (ha : s.answer (x.op s.params m) = .err) :
    exec i s = .next ((s.after (x.op s.params m) .err).ended r .hwError 0) := by
  rw [hx.exec_mailbox hpc, Access.advance_err hpc ha]

end

/-! ## Where the answers lead -/

section
variable (x : Access) (p : Params) (d n : Nat) (b : Byte)

theorem Access.move_drainStatusRecv :
    x.move p (.drainStatusRecv d) [b] =
      .goes (if b.getLsbD p.bitFromCpuValid.val = false then .queue 0 else .drainDataSend d) := by
  have h : fromCpuValid p b = b.getLsbD p.bitFromCpuValid.val := rfl
  simp only [Access.move, firstByte, List.headD_cons, h]
  cases b.getLsbD p.bitFromCpuValid.val <;> rfl

theorem Access.move_drainDataRecv_of_lt {d : Nat} (got : List Byte) (h : d < p.drainMax) :
    x.move p (.drainDataRecv d) got = .goes (.drainStatusSend (d + 1)) := if_pos h

theorem Access.move_drainDataRecv_of_le {d : Nat} (got : List Byte) (h : p.drainMax ≤ d) :
    x.move p (.drainDataRecv d) got = .timeout := if_neg (Nat.not_lt.2 h)

variable {x p n b}

theorem Access.move_pollRecv_of_ready (h : x.ready p b = true) :
    x.move p (.pollRecv n) [b] = if x.reads then .goes (.replySend n) else .done 0 := if_pos h

theorem Access.move_pollRecv_of_lt (h : x.ready p b = false) (hn : n < 200) :
    x.move p (.pollRecv n) [b] = .goes (.pollSend (n + 1)) :=
  (if_neg (by simpa [firstByte] using h)).trans (if_pos hn)

theorem Access.move_pollRecv_of_le (h : x.ready p b = false) (hn : 200 ≤ n) : x.move p (.pollRecv n) [b] = .timeout :=
  (if_neg (by simpa [firstByte] using h)).trans (if_neg (Nat.not_lt.2 hn))

end

/-! ## The direct-bus commands -/

theorem State.directGateClosed_eq_true {s : State} (hgate : s.params.gateDirect = true) (hinit : s.cfg.initialized = 0) :
    s.directGateClosed = true := by
  simp [State.directGateClosed, hgate, hinit]

theorem State.not_directGateClosed {s : State} (h : s.params.gateDirect = false ∨ s.cfg.initialized ≠ 0) :
    ¬ s.directGateClosed = true := by
  simp only [State.directGateClosed, Bool.and_eq_true, beq_iff_eq]
  rintro ⟨hgate, hinit⟩
  exact h.elim (fun h => absurd (h.symm.trans hgate) nofun) (· hinit)

/-- Settles O17: the gate, and then the one write by its answer. -/
theorem setDirectWritesTheByte : Obligations.SetDirectWritesTheByte := by
  unfold Obligations.SetDirectWritesTheByte
  intro s r q p addr val hpc op
  refine ⟨decode_encode (.setDirect addr val), fun hgate hinit => ?closed, fun hopen => ?opened⟩
  all_goals simp only [exec, execSetDirect, underLock_of_exec hpc]
  case closed =>
    rw [if_pos (State.directGateClosed_eq_true hgate hinit), State.raise_eq_ended hpc]
  case opened =>
    rw [if_neg (State.not_directGateClosed hopen)]
    exact ⟨fun bs ha => congrArg Host.Outcome.next ((directWrite_ok ha _).trans (State.ret_after hpc _ _ _)),
      fun ha => congrArg Host.Outcome.next (transact_err_ended hpc ha _)⟩

theorem decode_getDirect (addr : Byte) : decode ⟨(0x02 : Byte) ++ addr ++ (0 : Half), 0⟩ = .ok (.getDirect addr) := by
  rw [append_zero_eq_packBytes]; exact decode_encode (.getDirect addr)

/-- Settles O18: at the start the gate and then the write, at the second position the read, each by its answer. -/
theorem getDirectReadsTheByte : Obligations.GetDirectReadsTheByte := by
  unfold Obligations.GetDirectReadsTheByte
  intro s r q addr
  refine ⟨decode_getDirect addr, fun hpc hgate hinit => ?closed, fun hpc hopen => ?sent, fun hpc => ?received⟩
  all_goals simp only [exec, execGetDirect, underLock_of_exec hpc]
  case closed =>
    rw [if_pos (State.directGateClosed_eq_true hgate hinit), State.raise_eq_ended hpc]
  case sent =>
    rw [if_neg (State.not_directGateClosed hopen)]
    exact ⟨fun bs ha => congrArg Host.Outcome.next ((directSend_ok ha _).trans (State.goto_after hpc _ _ _)),
      fun ha => congrArg Host.Outcome.next (transact_err_ended hpc ha _)⟩
  case received =>
    exact ⟨fun b ha => congrArg Host.Outcome.next ((directRecv_ok ha _).trans (State.ret_after hpc _ _ _)),
      fun ha => congrArg Host.Outcome.next (transact_err_ended hpc ha _)⟩

/-! ## The mailbox commands -/

/-- Settles O20: position by position of the drain, which is the same for both commands. -/
theorem drainReadsUntilNothingIsValid : Obligations.DrainReadsUntilNothingIsValid := by
  unfold Obligations.DrainReadsUntilNothingIsValid
  intro s r q d i hi
  obtain ⟨x, rdata, hx⟩ := isAccess_of_internal hi
  refine ⟨fun bs hpc hinit ha => ?_, fun bs hpc ha => ?_, fun b hpc ha => ?_, fun bs hpc ha => ?_,
    fun b hpc ha => ⟨fun hd => ?_, fun hd => ?_⟩, fun hpc ha => ?_, fun hpc ha => ?_, fun hpc ha => ?_⟩
  · rw [hx.exec_start hpc hinit]
    exact congrArg Host.Outcome.next (Access.advance_goes hpc (answer_write_ok ha) rfl)
  · exact hx.exec_goes hpc (answer_write_ok ha) rfl
  · exact hx.exec_goes hpc ha (x.move_drainStatusRecv s.params d b)
  · exact hx.exec_goes hpc (answer_write_ok ha) rfl
  · exact hx.exec_goes hpc ha (x.move_drainDataRecv_of_lt s.params _ hd)
  · exact hx.exec_timeout hpc ha (x.move_drainDataRecv_of_le s.params _ hd)
  · rcases hpc with ⟨hpc, hinit⟩ | hpc
    · rw [hx.exec_start hpc hinit]
      exact congrArg Host.Outcome.next (Access.advance_err hpc ha)
    · exact hx.exec_err hpc ha
  · exact hx.exec_err hpc ha
  · rcases hpc with hpc | hpc <;> exact hx.exec_err hpc ha

/-- Settles O22: the poll of the access that reads no reply. -/
theorem setInternalPollsForToCpuEmpty : Obligations.SetInternalPollsForToCpuEmpty := by
  unfold Obligations.SetInternalPollsForToCpuEmpty
  intro s r q a k v n
  have hx := IsAccess.setInternal a k v
  refine ⟨fun bs hpc ha => ?_, fun b hpc ha => ⟨fun hb => ?_, fun hb hn => ?_, fun hb hn => ?_⟩, fun hpc ha => ?_,
    fun hpc ha => ?_⟩
  · exact hx.exec_goes hpc (answer_write_ok ha) rfl
  · exact hx.exec_done hpc ha (Access.move_pollRecv_of_ready hb)
  · exact hx.exec_goes hpc ha (Access.move_pollRecv_of_lt hb hn)
  · exact hx.exec_timeout hpc ha (Access.move_pollRecv_of_le hb hn)
  · exact hx.exec_err hpc ha
  · exact hx.exec_err hpc ha

/-- Settles O23: the poll and the reply of the access that reads one. -/
theorem getInternalPollsForBothBits : Obligations.GetInternalPollsForBothBits := by
  unfold Obligations.GetInternalPollsForBothBits
  intro s r q a k n
  have hx := IsAccess.getInternal a k
  refine ⟨fun bs hpc ha => ?_, fun b hpc ha => ⟨fun hb => ?_, fun hb hn => ?_, fun hb hn => ?_⟩, fun bs hpc ha => ?_,
    fun b hpc ha => ?_, fun hpc ha => ?_, fun hpc ha => ?_, fun hpc ha => ?_⟩
  · exact hx.exec_goes hpc (answer_write_ok ha) rfl
  · exact hx.exec_goes hpc ha (Access.move_pollRecv_of_ready hb)
  · exact hx.exec_goes hpc ha (Access.move_pollRecv_of_lt hb hn)
  · exact hx.exec_timeout hpc ha (Access.move_pollRecv_of_le hb hn)
  · exact hx.exec_goes hpc (answer_write_ok ha) rfl
  · exact hx.exec_done hpc ha rfl
  · exact hx.exec_err hpc ha
  · exact hx.exec_err hpc ha
  · rcases hpc with hpc | hpc <;> exact hx.exec_err hpc ha

end Sys2Proof.Machine
end

section
/-! SUPPORT. The single steps of the frame fetch (spec/43_frame_fetch.md): its checks, and its five mailbox accesses against
the mailbox commands, transaction by transaction; then the statements they settle. -/

namespace Sys2Proof.Machine

/-! ## The commands that fetch -/

/-- FETCH_FRAME and READ_FRAME_NORM run the fetch at every position before the unpack. -/
theorem exec_eq_fetchStep {i : Instr} (hi : i = .fetchFrame ∨ i = .readFrameNorm) :
    ∃ done : Word → State → State, ∀ (s : State) (r : Nat) (q : Request) (p : Pos), s.pc = .exec r q p →
      (∀ fc, p ≠ .unpack fc) → exec i s = fetchStep done p s := by
  rcases hi with rfl | rfl
  · exact ⟨fun fc t => t.ret fc, fun s r q p hpc _ => underLock_of_exec hpc _⟩
  · refine ⟨fun fc t => t.goto (.unpack fc), fun s r q p hpc hp => ?_⟩
    cases p with
    | unpack fc => exact absurd rfl (hp fc)
    | _ => exact underLock_of_exec hpc _

/-- The read of frame-counter byte `j` as an access (R151). -/
def counterAccess (p : Params) (j : Fin 4) : Access := ⟨[p.fcAddr[j], 2], true⟩

/-- The fetch action as an access (R152). -/
def actionAccess (p : Params) : Access := ⟨[p.fetchActionAddr, 3, p.actionArg], false⟩

/-- What follows reply byte `j`: the next counter read, or after byte 3 the fetch action (R151, R152). -/
def counterNext (frs : Nat) (j : Fin 4) (acc : Word) (b : Byte) : Pos :=
  if h : j.val + 1 < 4 then .counter frs ⟨j.val + 1, h⟩ (placeByte acc j b) .first
  else .action frs (placeByte acc j b) .first

theorem counterStep_eq_advance (frs : Nat) (j : Fin 4) (acc : Word) (m : MailboxPos) (s : State) :
    counterStep frs j acc m s =
      (counterAccess s.params j).advance (.counter frs j acc) (fun b t => t.goto (counterNext frs j acc b)) m s := by
  have hdone : (fun (b : Byte) (t : State) => t.goto (counterNext frs j acc b)) = fun b t =>
      if h : j.val + 1 < 4 then t.goto (.counter frs ⟨j.val + 1, h⟩ (placeByte acc j b) .first)
      else t.goto (.action frs (placeByte acc j b) .first) := by
    funext b t
    unfold counterNext
    split <;> rfl
  rw [hdone]
  exact internalRead_eq_advance ..

theorem actionStep_eq_advance (frs : Nat) (fc : Word) (m : MailboxPos) (s : State) :
    actionStep frs fc m s = (actionAccess s.params).advance (.action frs fc) (fun _ t => t.goto (.raw frs fc)) m s :=
  internalWrite_eq_advance ..

section
variable {i : Instr} (hi : i = .fetchFrame ∨ i = .readFrameNorm) {s : State} {r : Nat} {q : Request} {frs : Nat}
include hi

theorem exec_counter {j : Fin 4} {acc : Word} {m : MailboxPos} (hpc : s.pc = .exec r q (.counter frs j acc m)) :
    exec i s = .next
      ((counterAccess s.params j).advance (.counter frs j acc) (fun b t => t.goto (counterNext frs j acc b)) m s) := by
  obtain ⟨done, hdone⟩ := exec_eq_fetchStep hi
  rw [hdone s r q _ hpc nofun, ← counterStep_eq_advance]
  rfl

theorem exec_action {fc : Word} {m : MailboxPos} (hpc : s.pc = .exec r q (.action frs fc m)) :
    exec i s = .next ((actionAccess s.params).advance (.action frs fc) (fun _ t => t.goto (.raw frs fc)) m s) := by
  obtain ⟨done, hdone⟩ := exec_eq_fetchStep hi
  rw [hdone s r q _ hpc nofun, ← actionStep_eq_advance]
  rfl

/-! ## The checks at the start -/

section
variable (hpc : s.pc = .exec r q .start) (hinit : s.cfg.initialized ≠ 0)
include hpc hinit

/-- Past the gate the fetch looks at FRAME_READ_SIZE (R150). -/
theorem exec_fetch_start :
    exec i s =
      match s.cfg.frameReadSize with
      | none => .fault .readUnset
      | some frs =>
        .next (if frs.toNat > s.params.rawCap then s.raise .bufferTooSmall else counterStep frs.toNat 0 0 .first s) := by
  obtain ⟨done, hdone⟩ := exec_eq_fetchStep hi
  rw [hdone s r q _ hpc nofun]
  exact if_neg fun h => hinit (State.gateClosed_eq_true_iff.1 h)

theorem exec_fetch_of_unset (h : s.cfg.frameReadSize = none) : exec i s = .fault .readUnset := by
  rw [exec_fetch_start hi hpc hinit, h]

theorem exec_fetch_of_lt {size : Word} (h : s.cfg.frameReadSize = some size) (hlt : s.params.rawCap < size.toNat) :
    exec i s = .next (s.ended r .bufferTooSmall 0) := by
  rw [exec_fetch_start hi hpc hinit, h]
  exact congrArg Host.Outcome.next ((if_pos hlt).trans (State.raise_eq_ended hpc _))

theorem exec_fetch_of_le {size : Word} (h : s.cfg.frameReadSize = some size) (hle : size.toNat ≤ s.params.rawCap) :
    exec i s =
      .next ((counterAccess s.params 0).advance (.counter size.toNat 0 0) (fun b t => t.goto (counterNext size.toNat 0 0 b))
        .first s) := by
  rw [exec_fetch_start hi hpc hinit, h, ← counterStep_eq_advance]
  exact congrArg Host.Outcome.next (if_neg (Nat.not_lt.2 hle))

end

end

/-! ## An access inside another command -/

section
variable {x : Access} {rdata : Byte → Word} {place : MailboxPos → Pos} {done : Byte → State → State} {m : MailboxPos}
  {s : State} {r : Nat} {q : Request} {p : Pos} (hpc : s.pc = .exec r q p)
include hpc

/-- The ways one transaction of an access can go, in the mailbox command and where the access stands in `place`. -/
theorem Access.advance_beside_mailbox :
    (∃ (res : SpiResult) (st : Status), st ≠ .ok ∧
      x.advance .mailbox (fun b t => t.ret (rdata b)) m (s.at r q (.mailbox m)) =
        (s.after (x.op s.params m) res).ended r st 0 ∧
      x.advance place done m s = (s.after (x.op s.params m) res).ended r st 0) ∨
    (∃ (res : SpiResult) (m' : MailboxPos),
      x.advance .mailbox (fun b t => t.ret (rdata b)) m (s.at r q (.mailbox m)) =
        (s.after (x.op s.params m) res).at r q (.mailbox m') ∧
      x.advance place done m s = (s.after (x.op s.params m) res).at r q (place m')) ∨
    ∃ b : Byte,
      x.advance .mailbox (fun b t => t.ret (rdata b)) m (s.at r q (.mailbox m)) =
        (s.after (x.op s.params m) (s.answer (x.op s.params m))).ended r .ok (rdata b) ∧
      x.advance place done m s = done b (s.after (x.op s.params m) (s.answer (x.op s.params m))) := by
  have hat : (s.at r q (.mailbox m)).pc = .exec r q (.mailbox m) := rfl
  cases ha : s.answer (x.op s.params m) with
  | err => exact .inl ⟨.err, .hwError, nofun, Access.advance_err hat ha, Access.advance_err hpc ha⟩
  | ok got =>
    cases hm : x.move s.params m got with
    | goes m' => exact .inr (.inl ⟨.ok got, m', Access.advance_goes hat ha hm, Access.advance_goes hpc ha hm⟩)
    | timeout =>
      exact .inl ⟨.ok got, .pifTimeout, nofun, Access.advance_timeout hat ha hm, Access.advance_timeout hpc ha hm⟩
    | done b =>
      exact .inr (.inr ⟨b, (Access.advance_done (s := s.at r q (.mailbox m)) ha hm).trans (State.ret_after hat _ _ _),
        Access.advance_done ha hm⟩)

theorem Access.advance_goes_beside {t : State} {m' : MailboxPos}
    (h : x.advance .mailbox (fun b t => t.ret (rdata b)) m (s.at r q (.mailbox m)) = t.at r q (.mailbox m')) :
    x.advance place done m s = t.at r q (place m') := by
  rcases Access.advance_beside_mailbox (x := x) (rdata := rdata) (place := place) (done := done) (m := m) hpc with
    ⟨res, st, -, hmb, -⟩ | ⟨res, m'', hmb, hstep⟩ | ⟨b, hmb, -⟩ <;> have heq := hmb.symm.trans h
  · cases congrArg State.pc heq
  · cases congrArg State.pc heq
    have hplaced := congrArg (fun u : State => u.at r q (place m')) heq
    exact hstep.trans hplaced
  · cases congrArg State.pc heq

theorem Access.advance_raised_beside {t : State} {st : Status} (hst : st ≠ .ok)
    (h : x.advance .mailbox (fun b t => t.ret (rdata b)) m (s.at r q (.mailbox m)) = t.ended r st 0) :
    x.advance place done m s = t.ended r st 0 := by
  rcases Access.advance_beside_mailbox (x := x) (rdata := rdata) (place := place) (done := done) (m := m) hpc with
    ⟨res, st', -, hmb, hstep⟩ | ⟨res, m'', hmb, -⟩ | ⟨b, hmb, -⟩ <;> have heq := hmb.symm.trans h
  · exact hstep.trans heq
  · cases congrArg State.pc heq
  · have hresp := congrArg (fun u => Memory.get? u.resp r) heq
    simp only [State.ended, Memory.get?_set_self, Option.some.injEq, Response.mk.injEq] at hresp
    exact absurd hresp.1.symm hst

theorem Access.advance_done_beside {op : SpiOp}
    (h : x.advance .mailbox (fun b t => t.ret (rdata b)) m (s.at r q (.mailbox m)) =
      (s.after op (s.answer op)).ended r .ok 0) :
    ∃ b, x.advance place done m s = done b (s.after op (s.answer op)) := by
  rcases Access.advance_beside_mailbox (x := x) (rdata := rdata) (place := place) (done := done) (m := m) hpc with
    ⟨res, st', hst, hmb, -⟩ | ⟨res, m'', hmb, -⟩ | ⟨b, hmb, hstep⟩ <;> have heq := hmb.symm.trans h
  · have hresp := congrArg (fun u => Memory.get? u.resp r) heq
    simp only [State.ended, Memory.get?_set_self, Option.some.injEq, Response.mk.injEq] at hresp
    exact absurd hresp.1 hst
  · cases congrArg State.pc heq
  · have htrace := congrArg State.trace heq
    simp only [State.ended, State.after, List.append_cancel_left_eq, List.cons.injEq, TraceEntry.mk.injEq] at htrace
    obtain ⟨⟨rfl, -⟩, -⟩ := htrace
    exact ⟨b, hstep⟩

end

/-! ## The frame counter -/

/-- Byte `j` in its place covers the bits from `8 * j` on and no others. -/
theorem getLsbD_placed (j : Fin 4) (b : Byte) (k : Nat) :
    (b.setWidth 32 <<< (8 * j.val)).getLsbD k =
      (decide (8 * j.val ≤ k ∧ k < 8 * j.val + 8) && b.getLsbD (k - 8 * j.val)) := by
  simp only [BitVec.getLsbD_shiftLeft, BitVec.getLsbD_setWidth]
  rcases Nat.lt_or_ge k (8 * j.val) with hlo | hlo
  · simp [hlo, Nat.not_le.2 hlo]
  · rcases Nat.lt_or_ge k (8 * j.val + 8) with hhi | hhi
    · simp [hlo, hhi, show k < 32 by omega, show k - 8 * j.val < 32 by omega]
    · simp [Nat.not_lt.2 hhi, BitVec.getLsbD_of_ge b (k - 8 * j.val) (by omega)]

/-- Four bytes put in their places are the little-endian counter (R67). -/
theorem placeByte_four (b0 b1 b2 b3 : Byte) :
    placeByte (placeByte (placeByte (placeByte 0 0 b0) 1 b1) 2 b2) 3 b3 = packBytes b3 b2 b1 b0 := by
  apply BitVec.eq_of_getLsbD_eq
  intro k hk
  simp only [placeByte, getLsbD_packBytes, BitVec.getLsbD_or, getLsbD_placed]
  have hplace (j : Fin 4) : decide (8 * j.val ≤ k ∧ k < 8 * j.val + 8) = decide (k / 8 = j.val) :=
    decide_eq_decide.2 (by omega)
  simp only [hplace]
  split
  · simp [show k / 8 = 0 by omega]
  split
  · simp [show k / 8 = 1 by omega]
  split
  · simp [show k / 8 = 2 by omega]
  · simp [show k / 8 = 3 by omega]

/-! ## The statements settled -/

/-- Settles O28: the checks in the pseudocode's order, and the first transaction of counter read 0 by its answer. -/
theorem fetchChecksItsSizeFirst : Obligations.FetchChecksItsSizeFirst := by
  unfold Obligations.FetchChecksItsSizeFirst
  intro s r q i hi hpc hinit
  refine ⟨exec_fetch_of_unset hi hpc hinit, fun frs => exec_fetch_of_lt hi hpc hinit, fun frs bs hfrs hle ha => ?_,
    fun frs hfrs hle ha => ?_⟩ <;> rw [exec_fetch_of_le hi hpc hinit hfrs hle]
  · exact congrArg Host.Outcome.next (Access.advance_goes hpc (answer_write_ok ha) rfl)
  · exact congrArg Host.Outcome.next (Access.advance_err hpc ha)

/-- Settles O29: both commands run the same access, each where it stands. -/
theorem fetchAccessesRunAsMailboxCommands : Obligations.FetchAccessesRunAsMailboxCommands := by
  unfold Obligations.FetchAccessesRunAsMailboxCommands
  intro s r q i frs fc acc j m hi
  constructor <;> intro hpc access
  · have haccess : access = .next ((counterAccess s.params j).advance .mailbox (fun b t => t.ret (b.setWidth 32)) m
        (s.at r q (.mailbox m))) := (IsAccess.getInternal s.params.fcAddr[j] 2).exec_mailbox rfl
    rw [haccess, exec_counter hi hpc]
    exact ⟨fun t m' h => congrArg Host.Outcome.next (Access.advance_goes_beside hpc (Host.Outcome.next.inj h)),
      fun t st hst h => congrArg Host.Outcome.next (Access.advance_raised_beside hpc hst (Host.Outcome.next.inj h))⟩
  · have haccess : access = .next ((actionAccess s.params).advance .mailbox (fun _ t => t.ret 0) m
        (s.at r q (.mailbox m))) :=
      (IsAccess.setInternal s.params.fetchActionAddr 3 s.params.actionArg).exec_mailbox rfl
    rw [haccess, exec_action hi hpc]
    refine ⟨fun t m' h => congrArg Host.Outcome.next (Access.advance_goes_beside hpc (Host.Outcome.next.inj h)),
      fun t st hst h => congrArg Host.Outcome.next (Access.advance_raised_beside hpc hst (Host.Outcome.next.inj h)),
      fun op h => congrArg Host.Outcome.next ?_⟩
    obtain ⟨b, hb⟩ := Access.advance_done_beside hpc (Host.Outcome.next.inj h)
    exact hb.trans (State.goto_after hpc _ _ _)

/-- Settles O30: the reply byte ends its access, and four bytes in their places are the counter. -/
theorem frameCounterIsLittleEndian : Obligations.FrameCounterIsLittleEndian := by
  unfold Obligations.FrameCounterIsLittleEndian
  refine ⟨fun s r q i frs n j acc b hi hpc ha => ?_, placeByte_four⟩
  have hstep : exec i s = .next ((s.after (.read 1) (.ok [b])).at r q (counterNext frs j acc b)) :=
    (exec_counter hi hpc).trans (congrArg Host.Outcome.next
      ((Access.advance_done ha rfl).trans (State.goto_after hpc _ _ _)))
  rw [hstep]
  refine ⟨fun h => ?_, fun h => ?_⟩
  · rw [show counterNext frs j acc b = _ from dif_pos h]; rfl
  · subst h; rfl

end Sys2Proof.Machine
end

section
/-! SUPPORT. Runs of mailbox accesses (spec/42_mailbox.md section 3): the paths through an access that listed answers take,
and the run of the command along a path; then the statements about whole runs of SET_INTERNAL and GET_INTERNAL. -/

namespace Sys2Proof.Machine

/-! ## A run of listed answers -/

/-- `s` after the transactions `ops` with these answers, the chip's list then being `rest`. -/
def State.ran (s : State) (ops : List SpiOp) (answers rest : List SpiResult) : State :=
  { s with trace := s.trace ++ entries ops answers, chip := rest, tick := s.tick + ops.length }

theorem State.ran_nil {s : State} {rest : List SpiResult} (h : s.chip = rest) : s.ran [] [] rest = s := by
  subst h
  simp [State.ran, entries]

theorem State.after_ran {s : State} {ops : List SpiOp} {answers : List SpiResult} (h : ops.length = answers.length)
    (op : SpiOp) (res : SpiResult) (rest : List SpiResult) :
    (s.ran ops answers (res :: rest)).after op res = s.ran (ops ++ [op]) (answers ++ [res]) rest := by
  simp [State.ran, State.after, entries, List.zipWith_append h, Nat.add_assoc]

/-- A listed answer of the right length is the chip's answer. -/
theorem answer_of_listed {s : State} {op : SpiOp} {got : List Byte} {rest : List SpiResult}
    (h : s.chip = .ok got :: rest) (hlen : got.length = op.count) : s.answer op = .ok got := by
  rw [answer_of_ok h, fitBytes_of_length hlen]

theorem run?_trans {m n : Nat} {s t u : State} (h : run? m s = some t) (h' : run? n t = some u) :
    run? (m + n) s = some u := by
  induction m generalizing s with
  | zero => cases h; rwa [Nat.zero_add]
  | succ m ih =>
    rw [Nat.succ_add]
    simp only [run?] at h ⊢
    cases hs : step s with
    | next s' =>
      rw [hs] at h
      exact ih h
    | fault f => rw [hs] at h; cases h
    | refused f => rw [hs] at h; cases h

theorem run?_one {s t : State} (h : step s = .next t) : run? 1 s = some t := by
  simp only [run?, h]

theorem run?_of_step_eq {s t : State} (h : step s = step t) (n : Nat) : run? (n + 1) s = run? (n + 1) t := by
  simp only [run?, h]

/-! ## Paths through an access -/

/-- The path from one position of an access to another that successful answers take, with its transactions. -/
inductive Access.Path (x : Access) (p : Params) : MailboxPos → List SpiOp → List SpiResult → MailboxPos → Prop
  | nil (m : MailboxPos) : Path x p m [] [] m
  | cons {m m' m'' : MailboxPos} {got : List Byte} {ops : List SpiOp} {answers : List SpiResult}
      (hmove : x.move p m got = .goes m') (hlen : got.length = (x.op p m).count) (htail : Path x p m' ops answers m'') :
      Path x p m (x.op p m :: ops) (.ok got :: answers) m''

namespace Access

variable {x : Access} {p : Params} {m m' m'' : MailboxPos} {ops ops' : List SpiOp} {answers answers' : List SpiResult}

theorem Path.length_eq (h : x.Path p m ops answers m') : ops.length = answers.length := by
  induction h with
  | nil => rfl
  | cons _ _ _ ih => simp [ih]

theorem Path.trans (h : x.Path p m ops answers m') (h' : x.Path p m' ops' answers' m'') :
    x.Path p m (ops ++ ops') (answers ++ answers') m'' := by
  induction h with
  | nil => exact h'
  | cons hmove hlen _ ih => exact .cons hmove hlen (ih h')

/-- Two transactions that read one byte (R122). -/
theorem Path.read {a b : Byte} {mid : MailboxPos} (hsend : x.op p m = .write [a]) (hmid : x.move p m [] = .goes mid)
    (hrecv : x.op p mid = .read 1) (hend : x.move p mid [b] = .goes m') : x.Path p m (readOps a) (byteAnswers b) m' := by
  have h := Path.cons hmid (by rw [hsend]; rfl) (.cons hend (by rw [hrecv]; rfl) (.nil m'))
  rwa [hsend, hrecv] at h

/-- A drain of stale bytes that stays within its bound (R130). -/
theorem Path.stale (x : Access) {stale : List (Byte × Byte)} (hvalid : ∀ c ∈ stale, fromCpuValid p c.1 = true) {d : Nat}
    (hd : d + stale.length ≤ p.drainMax) :
    x.Path p (.drainStatusSend d)
      (List.replicate stale.length (readOps p.mbxStatusAddr ++ readOps p.mbxFromCpuAddr)).flatten (drainAnswers stale)
      (.drainStatusSend (d + stale.length)) := by
  induction stale generalizing d with
  | nil => exact .nil _
  | cons c stale ih =>
    rw [List.length_cons] at hd ⊢
    have hc : fromCpuValid p c.1 = true := hvalid c (List.mem_cons_self ..)
    have hstatus : x.Path p (.drainStatusSend d) (readOps p.mbxStatusAddr) (byteAnswers c.1) (.drainDataSend d) :=
      .read rfl rfl rfl (by simp [move, firstByte, hc])
    have hdata : x.Path p (.drainDataSend d) (readOps p.mbxFromCpuAddr) (byteAnswers c.2) (.drainStatusSend (d + 1)) :=
      .read rfl rfl rfl (x.move_drainDataRecv_of_lt p _ (by omega))
    have htail := ih (fun c hc => hvalid c (List.mem_cons_of_mem _ hc)) (d := d + 1) (by omega)
    rw [show d + (stale.length + 1) = d + 1 + stale.length by omega]
    exact (hstatus.trans hdata).trans htail

/-- A whole drain (R130). -/
theorem Path.drain (x : Access) {stale : List (Byte × Byte)} {clear : Byte}
    (hvalid : ∀ c ∈ stale, fromCpuValid p c.1 = true) (hclear : fromCpuValid p clear = false)
    (hlen : stale.length < p.drainMax) :
    x.Path p .first (drainOps p stale.length) (drainAnswers stale ++ byteAnswers clear) (.queue 0) :=
  (Path.stale x hvalid (by omega)).trans (.read rfl rfl rfl (by simp [move, firstByte, hclear]))

/-- The whole queue of an access that queues two or three bytes (R132). -/
theorem Path.queue (hx : (∃ a k v, x = ⟨[a, k, v], false⟩) ∨ ∃ a k, x = ⟨[a, k], true⟩) :
    x.Path p (.queue 0) (queueOps p x.queued) (writeAnswers x.queued.length) (.pollSend 1) := by
  rcases hx with ⟨a, k, v, rfl⟩ | ⟨a, k, rfl⟩
  · exact .cons (m' := .queue 1) rfl rfl (.cons (m' := .queue 2) rfl rfl (.cons rfl rfl (.nil _)))
  · exact .cons (m' := .queue 1) rfl rfl (.cons rfl rfl (.nil _))

/-- Polls that fail (R133, R135). -/
theorem Path.polls {failed : List Byte} (hfailed : ∀ b ∈ failed, x.ready p b = false) {n : Nat}
    (hn : n + failed.length ≤ 200) :
    x.Path p (.pollSend n) (pollOps p failed.length) (statusAnswers failed) (.pollSend (n + failed.length)) := by
  induction failed generalizing n with
  | nil => exact .nil _
  | cons b failed ih =>
    rw [List.length_cons] at hn ⊢
    have hpoll : x.Path p (.pollSend n) (readOps p.mbxStatusAddr) (byteAnswers b) (.pollSend (n + 1)) :=
      .read rfl rfl rfl (move_pollRecv_of_lt (hfailed b (List.mem_cons_self ..)) (by omega))
    have htail := ih (fun b hb => hfailed b (List.mem_cons_of_mem _ hb)) (n := n + 1) (by omega)
    rw [show n + (failed.length + 1) = n + 1 + failed.length by omega]
    exact hpoll.trans htail

/-- An access up to its polls. -/
theorem Path.toPolls (hx : (∃ a k v, x = ⟨[a, k, v], false⟩) ∨ ∃ a k, x = ⟨[a, k], true⟩)
    {stale : List (Byte × Byte)} {clear : Byte} (hvalid : ∀ c ∈ stale, fromCpuValid p c.1 = true)
    (hclear : fromCpuValid p clear = false) (hlen : stale.length < p.drainMax) :
    x.Path p .first (drainOps p stale.length ++ queueOps p x.queued)
      (drainAnswers stale ++ byteAnswers clear ++ writeAnswers x.queued.length) (.pollSend 1) :=
  (Path.drain x hvalid hclear hlen).trans (Path.queue hx)

end Access

/-! ## The run along a path -/

/-- In machines with these parameters, X4MBU moving alone, requester `r`'s command `q` runs the access `x` at `place`. -/
def Access.Runs (x : Access) (place : MailboxPos → Pos) (done : Byte → State → State) (p : Params) (r : Nat)
    (q : Request) : Prop :=
  ∀ (u : State) (m : MailboxPos), u.params = p → u.schedule = [] → u.pc = .exec r q (place m) →
    step u = .next (x.advance place done m u)

section
variable {x : Access} {place : MailboxPos → Pos} {done : Byte → State → State} {s : State} {r : Nat} {q : Request}
  (hruns : x.Runs place done s.params r q) (hsched : s.schedule = []) {ops₀ : List SpiOp} {answers₀ : List SpiResult}
  (h₀ : ops₀.length = answers₀.length) {m m' : MailboxPos} (rest : List SpiResult)
include hruns hsched h₀

/-- One transaction answered from the list. -/
theorem Access.Runs.step_listed {got : List Byte} (hlen : got.length = (x.op s.params m).count) :
    step ((s.ran ops₀ answers₀ (.ok got :: rest)).at r q (place m)) =
      .next (Access.follow place done
        ((s.ran (ops₀ ++ [x.op s.params m]) (answers₀ ++ [.ok got]) rest).at r q (place m)) (x.move s.params m got)) := by
  have ha : ((s.ran ops₀ answers₀ (.ok got :: rest)).at r q (place m)).answer (x.op s.params m) = .ok got :=
    answer_of_listed rfl hlen
  have hadvance := Access.advance_ok (x := x) (place := place) (done := done) (m := m)
    (s := (s.ran ops₀ answers₀ (.ok got :: rest)).at r q (place m)) ha
  rw [← State.after_ran h₀]
  exact (hruns ((s.ran ops₀ answers₀ (.ok got :: rest)).at r q (place m)) m rfl hsched rfl).trans
    (congrArg Host.Outcome.next hadvance)

theorem Access.Path.run {ops : List SpiOp} {answers : List SpiResult} (h : x.Path s.params m ops answers m') :
    run? ops.length ((s.ran ops₀ answers₀ (answers ++ rest)).at r q (place m)) =
      some ((s.ran (ops₀ ++ ops) (answers₀ ++ answers) rest).at r q (place m')) := by
  induction h generalizing ops₀ answers₀ with
  | nil m => simp only [List.append_nil, List.nil_append]; rfl
  | @cons m m₁ m' got ops answers hmove hlen _ ih =>
    have hstep := hruns.step_listed hsched h₀ (answers ++ rest) hlen
    rw [hmove] at hstep
    have htail := ih (ops₀ := ops₀ ++ [x.op s.params m]) (answers₀ := answers₀ ++ [.ok got]) (by simp [h₀])
    simp only [List.append_assoc, List.singleton_append] at htail
    rw [List.length_cons, Nat.add_comm]
    exact run?_trans (run?_one hstep) htail

/-- A path and the transaction that ends the access. -/
theorem Access.Path.run_end {ops ops' : List SpiOp} {answers answers' : List SpiResult} {got : List Byte}
    (h : x.Path s.params m ops answers m') (hlen : got.length = (x.op s.params m').count)
    (hops : ops' = ops ++ [x.op s.params m']) (hanswers : answers' = answers ++ [.ok got]) :
    run? ops'.length ((s.ran ops₀ answers₀ (answers' ++ rest)).at r q (place m)) =
      some (Access.follow place done ((s.ran (ops₀ ++ ops') (answers₀ ++ answers') rest).at r q (place m'))
        (x.move s.params m' got)) := by
  subst hops hanswers
  rw [List.length_append, List.append_assoc, ← List.append_assoc ops₀, ← List.append_assoc answers₀]
  exact run?_trans (h.run hruns hsched h₀ (.ok got :: rest))
    (run?_one (hruns.step_listed hsched (by simp [h₀, h.length_eq]) rest hlen))

end

/-! ## The commands that are one access -/

/-- The first transaction of an access is the same from the command's start and from inside the access. -/
theorem Access.advance_first_at {x : Access} {place : MailboxPos → Pos} {done : Byte → State → State} {s : State} {r : Nat}
    {q : Request} {p : Pos} (hpc : s.pc = .exec r q p) (p' : Pos) :
    x.advance place done .first (s.at r q p') = x.advance place done .first s := by
  have hat : (s.at r q p').pc = .exec r q p' := rfl
  cases ha : s.answer (x.op s.params .first) with
  | err => rw [advance_err hpc ha, advance_err hat ha]; rfl
  | ok got => rw [advance_goes hpc ha rfl, advance_goes hat ha rfl]; rfl

section
variable {i : Instr} {x : Access} {rdata : Byte → Word} (hx : IsAccess i x rdata)
include hx

theorem IsAccess.shape : (∃ a k v, x = ⟨[a, k, v], false⟩) ∨ ∃ a k, x = ⟨[a, k], true⟩ := by
  cases hx with
  | setInternal a k v => exact .inl ⟨a, k, v, rfl⟩
  | getInternal a k => exact .inr ⟨a, k, rfl⟩

variable {s : State} {r : Nat} {q : Request} (hsched : s.schedule = []) (hdec : decode q = .ok i)
include hdec

theorem IsAccess.runs (p : Params) : x.Runs .mailbox (fun b t => t.ret (rdata b)) p r q := by
  intro u m _ hu hpc
  rw [step_of_schedule_nil hu, x4mbuStep_of_decode hpc hdec, hx.exec_mailbox hpc]

variable (hpc : s.pc = .exec r q .start) (hinit : s.cfg.initialized ≠ 0)
include hsched hpc hinit

theorem IsAccess.step_start : step s = step (s.at r q (.mailbox .first)) := by
  rw [step_of_schedule_nil hsched, x4mbuStep_of_decode hpc hdec, hx.exec_start hpc hinit,
    hx.runs hdec s.params (s.at r q (.mailbox .first)) .first rfl hsched rfl, Access.advance_first_at hpc]

section
variable {ops ops' : List SpiOp} {answers answers' rest : List SpiResult} {m : MailboxPos} {got : List Byte}
  (h : x.Path s.params .first ops answers m) (hlen : got.length = (x.op s.params m).count)
  (hops : ops' = ops ++ [x.op s.params m]) (hanswers : answers' = answers ++ [.ok got])
  (hchip : s.chip = answers' ++ rest)
include h hlen hops hanswers hchip

/-- A whole command: the path from its first transaction, and the transaction that ends it. -/
theorem IsAccess.run_end :
    run? ops'.length s =
      some (Access.follow .mailbox (fun b t => t.ret (rdata b)) ((s.ran ops' answers' rest).at r q (.mailbox m))
        (x.move s.params m got)) := by
  have hrun := h.run_end (hx.runs hdec (r := r) s.params) hsched (ops₀ := []) (answers₀ := []) rfl rest hlen hops hanswers
  rw [State.ran_nil hchip] at hrun
  subst hops
  rw [List.length_append] at hrun ⊢
  exact (run?_of_step_eq (hx.step_start hsched hdec hpc hinit) ops.length).trans hrun

theorem IsAccess.run_done {b : Byte} (hmove : x.move s.params m got = .done b) :
    run? ops'.length s = some ((s.ran ops' answers' rest).ended r .ok (rdata b)) := by
  rw [hx.run_end hsched hdec hpc hinit h hlen hops hanswers hchip, hmove]
  exact congrArg some (State.ret_eq_ended (s := (s.ran ops' answers' rest).at r q (.mailbox m)) rfl _)

theorem IsAccess.run_timeout (hmove : x.move s.params m got = .timeout) :
    run? ops'.length s = some ((s.ran ops' answers' rest).ended r .pifTimeout 0) := by
  rw [hx.run_end hsched hdec hpc hinit h hlen hops hanswers hchip, hmove]
  exact congrArg some (State.raise_eq_ended (s := (s.ran ops' answers' rest).at r q (.mailbox m)) rfl _)

end

end

/-! ## The statements settled -/

@[simp] theorem drainOps_length (p : Params) (k : Nat) : (drainOps p k).length = 4 * k + 2 := by
  simp [drainOps, readOps, Nat.mul_comm]

@[simp] theorem queueOps_length (p : Params) (bytes : List Byte) : (queueOps p bytes).length = bytes.length := by
  simp [queueOps]

@[simp] theorem pollOps_length (p : Params) (n : Nat) : (pollOps p n).length = 2 * n := by
  simp [pollOps, readOps, Nat.mul_comm]

theorem pollOps_succ (p : Params) (n : Nat) : pollOps p (n + 1) = pollOps p n ++ readOps p.mbxStatusAddr := by
  simp [pollOps, List.replicate_succ']

/-- Settles O24: the path to the last poll's read, and that read. -/
theorem setInternalMakesItsTransactions : Obligations.SetInternalMakesItsTransactions := by
  unfold Obligations.SetInternalMakesItsTransactions
  intro s r q a k v clear last stale failed rest hsched hpc hdec hinit hstale hvalid hclear hfailed hnot hlast
    answers n ops hchip
  have hx := IsAccess.setInternal a k v
  refine ⟨by simp [ops]; omega, ?_⟩
  have hpath := ((Access.Path.toPolls hx.shape hvalid hclear hstale).trans
    (Access.Path.polls (n := 1) hnot (by omega))).trans (.cons (got := []) rfl rfl (.nil _))
  exact hx.run_done (got := [last]) hsched hdec hpc hinit hpath rfl (by simp [ops, n, pollOps_succ, readOps, Access.op])
    (by simp [answers, byteAnswers]) hchip (Access.move_pollRecv_of_ready hlast)

/-- Settles O25: the path through the polls to the reply's read, and that read. -/
theorem getInternalMakesItsTransactions : Obligations.GetInternalMakesItsTransactions := by
  unfold Obligations.GetInternalMakesItsTransactions
  intro s r q a k clear last reply stale failed rest hsched hpc hdec hinit hstale hvalid hclear hfailed hnot hlast
    answers n ops hchip
  have hx := IsAccess.getInternal a k
  refine ⟨by simp [ops, readOps]; omega, ?_⟩
  have hpolls := (Access.Path.toPolls hx.shape hvalid hclear hstale).trans
    (Access.Path.polls (n := 1) hnot (by omega))
  have hready := hpolls.trans (.read (b := last) (m' := .replySend (1 + failed.length)) rfl rfl rfl
    (Access.move_pollRecv_of_ready hlast))
  have hpath := hready.trans (.cons (got := []) rfl rfl (.nil _))
  exact hx.run_done (got := [reply]) hsched hdec hpc hinit hpath rfl
    (by simp [ops, n, pollOps_succ, readOps, Access.op]) (by simp [answers, byteAnswers]) hchip rfl

/-- A list that is not empty, taken apart at its last entry. -/
theorem exists_eq_append_singleton {α : Type} {l : List α} {n : Nat} (h : l.length = n + 1) :
    ∃ init last, l = init ++ [last] ∧ init.length = n := by
  obtain ⟨init, last, rfl⟩ := (List.eq_nil_or_concat l).resolve_left (by rintro rfl; simp at h)
  exact ⟨init, last, List.concat_eq_append, by simpa using h⟩

/-- Settles O26: the path of 199 failed polls to the read of poll 200, and that read. -/
theorem setInternalTimesOutAfter200Polls : Obligations.SetInternalTimesOutAfter200Polls := by
  unfold Obligations.SetInternalTimesOutAfter200Polls
  intro s r q i queued clear stale failed rest hi hsched hpc hdec hinit hstale hvalid hclear hlen answers ops hchip
  obtain ⟨x, rdata, hx, rfl, hnot⟩ : ∃ x rdata, IsAccess i x rdata ∧ x.queued = queued ∧
      ∀ b ∈ failed, x.ready s.params b = false := by
    rcases hi with ⟨⟨a, k, v, rfl, rfl⟩, hnot⟩ | ⟨⟨a, k, rfl, rfl⟩, hnot⟩
    · exact ⟨_, _, .setInternal a k v, rfl, hnot⟩
    · exact ⟨_, _, .getInternal a k, rfl, fun b hb => Bool.and_eq_false_iff.2 (hnot b hb)⟩
  refine ⟨by simp [ops]; omega, ?_⟩
  obtain ⟨init, last, rfl, hinitLen⟩ := exists_eq_append_singleton hlen
  have hpath := ((Access.Path.toPolls hx.shape hvalid hclear hstale).trans
    (Access.Path.polls (n := 1) (fun b hb => hnot b (List.mem_append_left _ hb)) (by omega))).trans
    (.cons (got := []) rfl rfl (.nil _))
  refine hx.run_timeout (got := [last]) hsched hdec hpc hinit hpath rfl ?_ ?_ hchip
    (Access.move_pollRecv_of_le (hnot last (by simp)) (by omega))
  · simp [ops, hinitLen, pollOps_succ _ 199, readOps, Access.op]
  · simp [answers, statusAnswers]

/-- Settles O27: the path of the drain to the last stale byte's read, and that read. -/
theorem drainTimesOutAfterItsBound : Obligations.DrainTimesOutAfterItsBound := by
  unfold Obligations.DrainTimesOutAfterItsBound
  intro s r q i stale rest hi hsched hpc hdec hinit hpos hlen hvalid hchip ops
  obtain ⟨x, rdata, hx⟩ := isAccess_of_internal hi
  refine ⟨by simp [ops, readOps, hlen, Nat.mul_comm], ?_⟩
  obtain ⟨init, last, rfl, hinitLen⟩ := exists_eq_append_singleton (Nat.sub_add_cancel hpos).symm
  have hlast : fromCpuValid s.params last.1 = true := hvalid last (by simp)
  have hstale := Access.Path.stale x (d := 1) (fun c hc => hvalid c (List.mem_append_left _ hc))
    (by rw [← hlen, List.length_append, List.length_singleton]; omega)
  have hstatus := hstale.trans (.read (b := last.1) (m' := .drainDataSend (1 + init.length)) rfl rfl rfl
    (by simp [Access.move, firstByte, hlast]))
  have hpath := hstatus.trans (.cons (got := []) rfl rfl (.nil _))
  refine hx.run_timeout (got := [last.2]) hsched hdec hpc hinit hpath rfl ?_ ?_ hchip
    (x.move_drainDataRecv_of_le s.params _ (by rw [← hlen, List.length_append, List.length_singleton]; omega))
  · simp [ops, List.replicate_succ', readOps, Access.op]
  · simp [drainAnswers, byteAnswers]

end Sys2Proof.Machine
end

section
/-! SUPPORT. The run of a cooperative FETCH_FRAME (spec/43_frame_fetch.md): four counter reads, the action and the raw read,
one after the other; then the statement about it. -/

namespace Sys2Proof.Machine

/-! ## The accesses of the fetch -/

section
variable {q : Request} (hdec : decode q = .ok .fetchFrame) (p : Params) (r frs : Nat)
include hdec

theorem counterAccess_runs (j : Fin 4) (acc : Word) :
    (counterAccess p j).Runs (.counter frs j acc) (fun b t => t.goto (counterNext frs j acc b)) p r q := by
  rintro u m rfl hu hpc
  rw [step_of_schedule_nil hu, x4mbuStep_of_decode hpc hdec, exec_counter (.inl rfl) hpc]

theorem actionAccess_runs (fc : Word) :
    (actionAccess p).Runs (.action frs fc) (fun _ t => t.goto (.raw frs fc)) p r q := by
  rintro u m rfl hu hpc
  rw [step_of_schedule_nil hu, x4mbuStep_of_decode hpc hdec, exec_action (.inl rfl) hpc]

end

/-! ## A cooperative access -/

section
variable {x : Access} {p : Params} (hx : (∃ a k v, x = ⟨[a, k, v], false⟩) ∨ ∃ a k, x = ⟨[a, k], true⟩)
  (hdrain : 0 < p.drainMax) {clear status : Byte} (hclear : fromCpuValid p clear = false)
  (hready : x.ready p status = true)
include hx hdrain hclear

/-- Nothing is stale: the drain is one status read, and the queue follows. -/
theorem Access.Path.cooperative :
    x.Path p .first (drainOps p 0 ++ queueOps p x.queued) (byteAnswers clear ++ writeAnswers x.queued.length)
      (.pollSend 1) :=
  Path.toPolls (stale := []) hx nofun hclear hdrain

include hready

/-- The first poll succeeds and the reply is sent for. -/
theorem Access.Path.cooperativeRead (hreads : x.reads = true) :
    x.Path p .first (drainOps p 0 ++ queueOps p x.queued ++ readOps p.mbxStatusAddr ++ [.write [p.mbxFromCpuAddr]])
      (byteAnswers clear ++ writeAnswers x.queued.length ++ byteAnswers status ++ [.ok []]) (.replyRecv 1) :=
  ((Path.cooperative hx hdrain hclear).trans
    (.read (m' := .replySend 1) rfl rfl rfl ((move_pollRecv_of_ready hready).trans (if_pos hreads)))).trans
    (.cons (got := []) rfl rfl (.nil _))

end

/-- The answers to a counter read whose first poll succeeds, the reply byte being `b`. -/
def counterAnswers (clear status b : Byte) : List SpiResult :=
  byteAnswers clear ++ writeAnswers 2 ++ byteAnswers status ++ byteAnswers b

/-- The answers to an action whose first poll succeeds. -/
def actionAnswers (clear : Byte) : List SpiResult := byteAnswers clear ++ writeAnswers 3 ++ byteAnswers clear

/-- After `n` transactions, answered from the list, `r`'s command `q` is at position `p` with `rest` still listed. -/
def State.Reaches (s : State) (r : Nat) (q : Request) (n : Nat) (p : Pos) (rest : List SpiResult) : Prop :=
  ∃ ops answers, ops.length = n ∧ answers.length = n ∧ run? n s = some ((s.ran ops answers rest).at r q p)

/-- A whole access, after which the command goes on at `p`. -/
theorem State.Reaches.access {x : Access} {place : MailboxPos → Pos} {done : Byte → State → State} {s : State} {r n : Nat}
    {q : Request} {m m' : MailboxPos} {ops : List SpiOp} {answers answers' rest : List SpiResult} {got : List Byte}
    {b : Byte} {p : Pos} (h : s.Reaches r q n (place m) (answers' ++ rest)) (hruns : x.Runs place done s.params r q)
    (hsched : s.schedule = []) (hpath : x.Path s.params m ops answers m')
    (hlen : got.length = (x.op s.params m').count) (hanswers : answers' = answers ++ [.ok got])
    (hmove : x.move s.params m' got = .done b) (hdone : done b = fun t => t.goto p) :
    s.Reaches r q (n + (ops.length + 1)) p rest := by
  obtain ⟨ops₀, answers₀, hops₀, hanswers₀, hrun₀⟩ := h
  have hrun := hpath.run_end hruns hsched (hops₀.trans hanswers₀.symm) rest hlen rfl hanswers
  rw [hmove, List.length_append] at hrun
  refine ⟨_, _, ?_, ?_, (run?_trans hrun₀ hrun).trans (congrArg some (congrFun hdone _))⟩
  · simp [hops₀]
  · simp [hanswers, hanswers₀, hpath.length_eq]

section
variable {s : State} {r : Nat} {q : Request} (hdec : decode q = .ok .fetchFrame) (hsched : s.schedule = [])
  (hdrain : 0 < s.params.drainMax) {clear : Byte} (hclear : fromCpuValid s.params clear = false) {frs n : Nat}
  {rest : List SpiResult}
include hdec hsched hdrain hclear

/-- A counter read whose first poll succeeds: eight transactions (R139, R151). -/
theorem State.Reaches.counterRead {status b : Byte} {j : Fin 4} {acc : Word}
    (h : s.Reaches r q n (.counter frs j acc .first) (counterAnswers clear status b ++ rest))
    (hready : readReady s.params status = true) : s.Reaches r q (n + 8) (counterNext frs j acc b) rest :=
  h.access (counterAccess_runs hdec s.params r frs j acc) hsched
    (Access.Path.cooperativeRead (x := counterAccess s.params j) (.inr ⟨_, _, rfl⟩) hdrain hclear hready rfl)
    (got := [b]) rfl (List.append_assoc _ [_] [_]).symm rfl rfl

/-- The action whose first poll succeeds: seven transactions (R139, R152). -/
theorem State.Reaches.action {fc : Word}
    (h : s.Reaches r q n (.action frs fc .first) (actionAnswers clear ++ rest))
    (hready : toCpuEmpty s.params clear = true) : s.Reaches r q (n + 7) (.raw frs fc) rest :=
  h.access (actionAccess_runs hdec s.params r frs fc) hsched
    ((Access.Path.cooperative (x := actionAccess s.params) (.inl ⟨_, _, _, rfl⟩) hdrain hclear).trans
      (.cons (got := []) rfl rfl (.nil _)))
    (got := [clear]) rfl (List.append_assoc _ [_] [_]).symm
    (Access.move_pollRecv_of_ready (x := actionAccess s.params) hready) rfl

end

/-! ## The whole run -/

section
variable {s : State} {r : Nat} {q : Request} (hdec : decode q = .ok .fetchFrame) (hsched : s.schedule = [])
include hdec hsched

/-- Past the gate and the size check, the fetch's first step is counter read 0's first transaction. -/
theorem step_fetch_start (hpc : s.pc = .exec r q .start) (hinit : s.cfg.initialized ≠ 0) {size : Word}
    (hsize : s.cfg.frameReadSize = some size) (hle : size.toNat ≤ s.params.rawCap) :
    step s = step (s.at r q (.counter size.toNat 0 0 .first)) := by
  rw [step_of_schedule_nil hsched, x4mbuStep_of_decode hpc hdec, exec_fetch_of_le (.inl rfl) hpc hinit hsize hle,
    counterAccess_runs hdec s.params r size.toNat 0 0 (s.at r q (.counter size.toNat 0 0 .first)) .first rfl hsched rfl,
    Access.advance_first_at hpc]

/-- A cooperative fetch from counter read 0 to the raw read: four counter reads and the action. -/
theorem reaches_raw (hdrain : 0 < s.params.drainMax) {frs : Nat} (hpc : s.pc = .exec r q (.counter frs 0 0 .first))
    {clear status b0 b1 b2 b3 : Byte} (hclear : fromCpuValid s.params clear = false)
    (hempty : toCpuEmpty s.params clear = true) (hready : readReady s.params status = true) {rest : List SpiResult}
    (hchip : s.chip = counterAnswers clear status b0 ++ (counterAnswers clear status b1 ++
      (counterAnswers clear status b2 ++ (counterAnswers clear status b3 ++ (actionAnswers clear ++ rest))))) :
    s.Reaches r q 39 (.raw frs (packBytes b3 b2 b1 b0)) rest := by
  have h0 : s.Reaches r q 0 (.counter frs 0 0 .first) s.chip :=
    ⟨[], [], rfl, rfl, by rw [State.ran_nil rfl, ← State.goto_eq_at hpc, State.goto_of_exec hpc, ← hpc]; rfl⟩
  rw [hchip] at h0
  have h1 := h0.counterRead hdec hsched hdrain hclear hready
  have h2 := State.Reaches.counterRead hdec hsched hdrain hclear (j := 1) h1 hready
  have h3 := State.Reaches.counterRead hdec hsched hdrain hclear (j := 2) h2 hready
  have h4 := State.Reaches.counterRead hdec hsched hdrain hclear (j := 3) h3 hready
  have h5 := State.Reaches.action hdec hsched hdrain hclear h4 hempty
  rwa [placeByte_four] at h5

/-- The raw read answered from the list commits the frame and ends the command (R153, R154). -/
theorem step_raw_listed {frs : Nat} {fc : Word} (hpc : s.pc = .exec r q (.raw frs fc)) {raw : List Byte}
    {rest : List SpiResult} (hchip : s.chip = .ok raw :: rest) (hlen : raw.length = frs) :
    step s =
      .next (((s.after (.writeRead [s.params.radarDataAddr] frs) (.ok raw)).commitFrame fc raw).ended r .ok fc) := by
  rw [step_of_schedule_nil hsched, x4mbuStep_of_decode hpc hdec,
    exec_fetchFrame_raw_ok hpc (answer_of_listed hchip hlen)]

end

/-- Settles O32: 39 transactions up to the raw read, and the raw read with its commit. -/
theorem cooperativeFetchMakes40Transactions : Obligations.CooperativeFetchMakes40Transactions := by
  unfold Obligations.CooperativeFetchMakes40Transactions
  intro s r q frs clear ready b0 b1 b2 b3 raw rest hsched hpc hdec hinit hlegal hsize hle hraw hclear hempty hready
    counterAnswers actionAnswers hchip fc
  obtain ⟨ops, answers, hops, hanswers, hrun⟩ := reaches_raw (s := s.at r q (.counter frs.toNat 0 0 .first))
    (rest := .ok raw :: rest) hdec hsched (drainMax_pos hlegal) rfl hclear hempty hready
    (by rw [show (s.at r q _).chip = s.chip from rfl, hchip]; simp only [List.append_assoc]; rfl)
  rw [← run?_of_step_eq (step_fetch_start hdec hsched hpc hinit hsize hle) 38] at hrun
  have hstep := step_raw_listed hdec (s := (s.ran ops answers (.ok raw :: rest)).at r q (.raw frs.toNat fc))
    hsched rfl rfl hraw
  refine ⟨_, run?_trans hrun (run?_one hstep), ?_, ?_, rfl, rfl, Memory.get?_set_self .., rfl, rfl, rfl,
    fun k hk => Memory.get?_writeRange_zero_of_lt s.rawbuf (hraw.symm ▸ hk),
    fun k hk => Memory.get?_writeRange_zero_of_le s.rawbuf (hraw.symm ▸ hk)⟩
  · have hentries : (entries ops answers).length = 39 := by simp [entries, hops, hanswers]
    exact (List.length_append ..).trans (congrArg (· + 1) ((List.length_append ..).trans (congrArg _ hentries)))
  · exact List.getLast?_concat

end Sys2Proof.Machine
end

section
/-! SUPPORT. The frame unpacker (spec/44_unpack.md): counters read from RAWBUF, the checks both unpack bodies share, and where
each output goes; then the statements they settle. -/

namespace Sys2Proof.Machine

/-! ## Counters -/

/-- What lists its entries in order where all of them are there fails exactly where one is not. -/
theorem eq_none_iff_of_eq_some_iff {α : Type} {o : Option (List α)} {n : Nat} {f : Nat → Option α}
    (h : ∀ vs, o = some vs ↔ vs.length = n ∧ ∀ k, (hk : k < vs.length) → f k = some vs[k]) :
    o = none ↔ ∃ k, k < n ∧ f k = none := by
  constructor
  · intro hnone
    by_contra hall
    push Not at hall
    have hget (k : Fin n) : ∃ v, f k = some v := Option.ne_none_iff_exists'.1 (hall k k.isLt)
    choose v hv using hget
    have hsome : o = some (List.ofFn v) := (h _).2 ⟨List.length_ofFn, fun k hk => by
      rw [List.getElem_ofFn]; exact hv ⟨k, by simpa using hk⟩⟩
    exact absurd (hnone.symm.trans hsome) nofun
  · rintro ⟨k, hk, hcell⟩
    by_contra hne
    obtain ⟨vs, hvs⟩ := Option.ne_none_iff_exists'.1 hne
    obtain ⟨rfl, hget⟩ := (h vs).1 hvs
    exact absurd (hcell.symm.trans (hget k hk)) nofun

theorem Memory.readRange_eq_none_iff {α : Type} {m : Memory α} {i n : Nat} :
    readRange m i n = none ↔ ∃ k, k < n ∧ get? m (i + k) = none :=
  eq_none_iff_of_eq_some_iff (f := fun k => get? m (i + k)) fun _ => readRange_eq_some

theorem counter_eq_none_iff {raw : Memory Byte} {i w : Nat} :
    counter raw i w = none ↔ ∃ k, k < w ∧ Memory.get? raw (i * w + k) = none := by
  rw [counter, Option.map_eq_none_iff, Memory.readRange_eq_none_iff]

/-- Digit `k` to the base 256 is byte `k` (R67). -/
theorem littleEndian_digit {bs : List Byte} {k : Nat} (hk : k < bs.length) :
    littleEndian bs / 256 ^ k % 256 = bs[k].toNat := by
  induction bs generalizing k with
  | nil => simp at hk
  | cons b bs ih =>
    have hb : b.toNat < 256 := b.isLt
    cases k with
    | zero => simp only [littleEndian, pow_zero, Nat.div_one, List.getElem_cons_zero]; omega
    | succ k =>
      have hrest : littleEndian (b :: bs) / 256 = littleEndian bs := by simp only [littleEndian]; omega
      rw [Nat.pow_succ', ← Nat.div_div_eq_div_mul, hrest, List.getElem_cons_succ]
      exact ih (by simpa using hk)

theorem two_pow_eight_mul (k : Nat) : 2 ^ (8 * k) = 256 ^ k := Nat.pow_mul 2 8 k

/-- Settles O33: a counter fails with its bytes, and is the number of its bytes. -/
theorem counterIsLittleEndian : Obligations.CounterIsLittleEndian := by
  unfold Obligations.CounterIsLittleEndian
  intro raw i w
  refine ⟨counter_eq_none_iff, fun c hc => ?_⟩
  obtain ⟨bs, hbs, rfl⟩ := Option.map_eq_some_iff.1 hc
  obtain ⟨rfl, hget⟩ := Memory.readRange_eq_some.1 hbs
  simp only [two_pow_eight_mul]
  exact ⟨littleEndian_lt bs, fun k hk => ⟨bs[k], hget k hk, littleEndian_digit hk⟩⟩

/-- The counters fail exactly where one of the bytes they cover is UNSET. -/
theorem counters_eq_none_iff {raw : Memory Byte} {w n : Nat} (hw : 0 < w) :
    counters raw w 0 n = none ↔ ∃ k, k < n * w ∧ Memory.get? raw k = none := by
  have hcounters : counters raw w 0 n = none ↔ ∃ i, i < n ∧ counter raw (0 + i) w = none :=
    eq_none_iff_of_eq_some_iff (f := fun i => counter raw (0 + i) w) fun _ => counters_eq_some
  simp only [Nat.zero_add] at hcounters
  rw [hcounters]
  constructor
  · rintro ⟨i, hi, hnone⟩
    obtain ⟨k, hk, hcell⟩ := counter_eq_none_iff.1 hnone
    refine ⟨i * w + k, ?_, hcell⟩
    calc i * w + k < i * w + w := by omega
      _ = (i + 1) * w := by ring
      _ ≤ n * w := Nat.mul_le_mul_right w hi
  · rintro ⟨k, hk, hcell⟩
    exact ⟨k / w, Nat.div_lt_of_lt_mul (by rwa [Nat.mul_comm]), counter_eq_none_iff.2
      ⟨k % w, Nat.mod_lt k hw, by rwa [Nat.div_add_mod']⟩⟩

/-! ## The checks both bodies share -/

/-- An unpack body by its width limit, its number of outputs, its second constant and its commit (R161, R162). -/
structure UnpackPath where
  limit : Nat
  count : Nat → Nat → Nat
  second : UnsetOr Word
  commit : Word → Word → List Nat → State

/-- The checks in the pseudocode's order, and the commit. -/
def UnpackPath.run (x : UnpackPath) (s : State) : BodyEnd :=
  if s.cfg.bpc.toNat = 0 then .fault .counterWidthZero
  else if s.cfg.bpc.toNat > x.limit then .raised .unpackCounterTooLarge
  else
    match s.cfg.frameReadSize with
    | none => .fault .readUnset
    | some frs =>
      if frs.toNat > s.params.rawCap then .raised .bufferTooSmall
      else if x.count frs.toNat s.cfg.bpc.toNat > s.params.outCap then .raised .bufferTooSmall
      else
        match s.cfg.nfactor, x.second, counters s.rawbuf s.cfg.bpc.toNat 0 (x.count frs.toNat s.cfg.bpc.toNat) with
        | some nf, some c, some cs => .done (x.count frs.toNat s.cfg.bpc.toNat) (x.commit nf c cs)
        | _, _, _ => .fault .readUnset

/-- The RF path (R161). -/
def rfPath (s : State) : UnpackPath where
  limit := 4
  count frs w := frs / w
  second := s.cfg.normOffset
  commit nf off cs := s.commitUnpack (rfValues s.tick nf off cs) (rfValues s.tick nf off cs)

/-- The IQ path (R162). -/
def iqPath (s : State) : UnpackPath where
  limit := 6
  count frs w := 2 * (frs / (2 * w))
  second := s.cfg.filterNorm
  commit nf fnf cs :=
    let smp := iqSamples s.tick s.cfg.bpc.toNat (F32.mul (Config.freeNaN s.tick 0) nf fnf) cs
    s.commitUnpack smp (reorder s.cfg.iqSeparate smp)

theorem rfBody_eq_run (s : State) : rfBody s = (rfPath s).run s := rfl

theorem iqBody_eq_run (s : State) : iqBody s = (iqPath s).run s := rfl

section
variable {x : UnpackPath} {s : State}

theorem UnpackPath.run_of_width_zero (h : s.cfg.bpc = 0) : x.run s = .fault .counterWidthZero := by
  unfold UnpackPath.run
  rw [if_pos (by rw [h]; rfl)]

theorem UnpackPath.run_of_limit_lt (h : x.limit < s.cfg.bpc.toNat) : x.run s = .raised .unpackCounterTooLarge := by
  unfold UnpackPath.run
  rw [if_neg (by omega), if_pos h]

section
variable (hw : s.cfg.bpc ≠ 0) (hle : s.cfg.bpc.toNat ≤ x.limit)
include hw hle

theorem UnpackPath.run_of_width :
    x.run s =
      match s.cfg.frameReadSize with
      | none => .fault .readUnset
      | some frs =>
        if frs.toNat > s.params.rawCap then .raised .bufferTooSmall
        else if x.count frs.toNat s.cfg.bpc.toNat > s.params.outCap then .raised .bufferTooSmall
        else
          match s.cfg.nfactor, x.second, counters s.rawbuf s.cfg.bpc.toNat 0 (x.count frs.toNat s.cfg.bpc.toNat) with
          | some nf, some c, some cs => .done (x.count frs.toNat s.cfg.bpc.toNat) (x.commit nf c cs)
          | _, _, _ => .fault .readUnset :=
  (if_neg fun h => hw (BitVec.eq_of_toNat_eq h)).trans (if_neg (Nat.not_lt.2 hle))

theorem UnpackPath.run_of_size_unset (h : s.cfg.frameReadSize = none) : x.run s = .fault .readUnset := by
  rw [run_of_width hw hle, h]

variable {frs : Word} (hsize : s.cfg.frameReadSize = some frs)
include hsize

theorem UnpackPath.run_of_rawCap_lt (h : s.params.rawCap < frs.toNat) : x.run s = .raised .bufferTooSmall := by
  rw [run_of_width hw hle, hsize]
  exact if_pos h

theorem UnpackPath.run_of_outCap_lt (h : s.params.outCap < x.count frs.toNat s.cfg.bpc.toNat) :
    x.run s = .raised .bufferTooSmall := by
  rw [run_of_width hw hle, hsize]
  dsimp only
  rw [if_pos h, ite_self]

variable (hraw : frs.toNat ≤ s.params.rawCap) (hout : x.count frs.toNat s.cfg.bpc.toNat ≤ s.params.outCap)
include hraw hout

theorem UnpackPath.run_of_unset
    (h : s.cfg.nfactor = none ∨ x.second = none ∨
      ∃ k, k < x.count frs.toNat s.cfg.bpc.toNat * s.cfg.bpc.toNat ∧ Memory.get? s.rawbuf k = none) :
    x.run s = .fault .readUnset := by
  have hpos : 0 < s.cfg.bpc.toNat := Nat.pos_of_ne_zero fun h => hw (BitVec.eq_of_toNat_eq h)
  rw [← counters_eq_none_iff hpos] at h
  rw [run_of_width hw hle, hsize]
  dsimp only
  rw [if_neg (Nat.not_lt.2 hraw), if_neg (Nat.not_lt.2 hout)]
  split
  · next hnf hc hcs => simp [hnf, hc, hcs] at h
  · rfl

theorem UnpackPath.run_of_set {nf c : Word} (hnf : s.cfg.nfactor = some nf) (hc : x.second = some c)
    (hcells : ∀ k, k < x.count frs.toNat s.cfg.bpc.toNat * s.cfg.bpc.toNat → Memory.get? s.rawbuf k ≠ none) :
    ∃ cs, counters s.rawbuf s.cfg.bpc.toNat 0 (x.count frs.toNat s.cfg.bpc.toNat) = some cs ∧
      x.run s = .done (x.count frs.toNat s.cfg.bpc.toNat) (x.commit nf c cs) := by
  have hpos : 0 < s.cfg.bpc.toNat := Nat.pos_of_ne_zero fun h => hw (BitVec.eq_of_toNat_eq h)
  have hne : counters s.rawbuf s.cfg.bpc.toNat 0 (x.count frs.toNat s.cfg.bpc.toNat) ≠ none := fun h => by
    obtain ⟨k, hk, hcell⟩ := (counters_eq_none_iff hpos).1 h
    exact hcells k hk hcell
  obtain ⟨cs, hcs⟩ := Option.ne_none_iff_exists'.1 hne
  refine ⟨cs, hcs, ?_⟩
  rw [run_of_width hw hle, hsize]
  dsimp only
  rw [if_neg (Nat.not_lt.2 hraw), if_neg (Nat.not_lt.2 hout), hnf, hc, hcs]

end

/-- The checks of a command that runs a body, in the pseudocode's order. -/
theorem UnpackPath.checksInOrder {i : Instr} {r : Nat} {q : Request} {p : Pos} {rdata : Nat → Word}
    (hpc : s.pc = .exec r q p) (hexec : exec i s = unpackStep s (x.run s) rdata) :
    (s.cfg.bpc = 0 → exec i s = .fault .counterWidthZero) ∧
    (x.limit < s.cfg.bpc.toNat → exec i s = .next (s.ended r .unpackCounterTooLarge 0)) ∧
    (s.cfg.bpc ≠ 0 → s.cfg.bpc.toNat ≤ x.limit →
      (s.cfg.frameReadSize = none → exec i s = .fault .readUnset) ∧
      ∀ frs : Word, s.cfg.frameReadSize = some frs →
        (s.params.rawCap < frs.toNat → exec i s = .next (s.ended r .bufferTooSmall 0)) ∧
        (s.params.outCap < x.count frs.toNat s.cfg.bpc.toNat → exec i s = .next (s.ended r .bufferTooSmall 0)) ∧
        (frs.toNat ≤ s.params.rawCap → x.count frs.toNat s.cfg.bpc.toNat ≤ s.params.outCap →
          (s.cfg.nfactor = none ∨ x.second = none ∨
            ∃ k, k < x.count frs.toNat s.cfg.bpc.toNat * s.cfg.bpc.toNat ∧ Memory.get? s.rawbuf k = none) →
          exec i s = .fault .readUnset)) := by
  have raised {st : Status} (h : x.run s = .raised st) : exec i s = .next (s.ended r st 0) := by
    rw [hexec, h, ← State.raise_eq_ended hpc]; rfl
  have faulted {f : Fault} (h : x.run s = .fault f) : exec i s = .fault f := by
    rw [hexec, h]; rfl
  exact ⟨fun h => faulted (run_of_width_zero h), fun h => raised (run_of_limit_lt h), fun hw hle =>
    ⟨fun h => faulted (run_of_size_unset hw hle h), fun frs hsize =>
      ⟨fun h => raised (run_of_rawCap_lt hw hle hsize h), fun h => raised (run_of_outCap_lt hw hle hsize h),
        fun hraw hout h => faulted (run_of_unset hw hle hsize hraw hout h)⟩⟩⟩

end

/-! ## The commands -/

section
variable {s : State} {r : Nat} {q : Request} {p : Pos} (hpc : s.pc = .exec r q p)
include hpc

theorem exec_unpackRf : exec .unpackRf s = unpackStep s ((rfPath s).run s) (BitVec.ofNat 32) := underLock_of_exec hpc _

theorem exec_unpackIq : exec .unpackIq s = unpackStep s ((iqPath s).run s) (BitVec.ofNat 32) := underLock_of_exec hpc _

end

/-- Settles O37: the checks of the RF path. -/
theorem unpackRfChecksInOrder : Obligations.UnpackRfChecksInOrder := by
  unfold Obligations.UnpackRfChecksInOrder
  exact fun s r q p hpc => UnpackPath.checksInOrder hpc (exec_unpackRf hpc)

/-- Settles O38: the checks of the IQ path. -/
theorem unpackIqChecksInOrder : Obligations.UnpackIqChecksInOrder := by
  unfold Obligations.UnpackIqChecksInOrder
  exact fun s r q p hpc => UnpackPath.checksInOrder hpc (exec_unpackIq hpc)

/-! ## A body that completes -/

/-- What `RfReady` asks of the state is what the RF path reads. -/
theorem RfReady.run_eq {s : State} {w n : Nat} {nf off : Word} (h : RfReady s w n nf off) :
    ∃ cs, counters s.rawbuf w 0 n = some cs ∧
      rfBody s = .done n (s.commitUnpack (rfValues s.tick nf off cs) (rfValues s.tick nf off cs)) := by
  obtain ⟨⟨rfl, hpos, hle⟩, ⟨frs, hsize, hraw, rfl⟩, hout, ⟨hnf, hoff⟩, hcells⟩ := h
  exact UnpackPath.run_of_set (x := rfPath s) (fun h => by simp [h] at hpos) hle hsize hraw hout hnf hoff hcells

/-- What `IqReady` asks of the state is what the IQ path reads. -/
theorem IqReady.run_eq {s : State} {w n : Nat} {nf fnf : Word} (h : IqReady s w n nf fnf) :
    ∃ cs, counters s.rawbuf w 0 n = some cs ∧
      iqBody s = .done n (s.commitUnpack (iqSamples s.tick w (F32.mul (Config.freeNaN s.tick 0) nf fnf) cs)
        (reorder s.cfg.iqSeparate (iqSamples s.tick w (F32.mul (Config.freeNaN s.tick 0) nf fnf) cs))) := by
  obtain ⟨⟨rfl, hpos, hle⟩, ⟨frs, hsize, hraw, rfl⟩, hout, ⟨hnf, hfnf⟩, hcells⟩ := h
  exact UnpackPath.run_of_set (x := iqPath s) (fun h => by simp [h] at hpos) hle hsize hraw hout hnf hfnf hcells

theorem IqReady.even {s : State} {w n : Nat} {nf fnf : Word} (h : IqReady s w n nf fnf) : n % 2 = 0 := by
  obtain ⟨frs, -, -, rfl⟩ := h.size
  exact Nat.mul_mod_right 2 _

/-- The state a completed body leaves, its command ended. -/
theorem State.commitUnpack_ended (s : State) (r : Nat) (vals : List Word) {out : List Word} {n : Nat}
    (hlen : out.length = n) (v : Word) :
    (s.commitUnpack vals out).ended r .ok v =
      { s with
        outbuf := Memory.writeRange s.outbuf 0 out
        cfg := { s.cfg with
          zeroFrameCtr := zeroTrack s.params.zeroFrameCap s.cfg.zeroFrameCtr vals, outCount := BitVec.ofNat 32 n }
        tick := s.tick + 1 }.ended r .ok v := by
  subst hlen
  rfl

/-- Settles O35: with what it reads the RF path completes, its values written in order. -/
theorem unpackRfNormalizesEveryCounter : Obligations.UnpackRfNormalizesEveryCounter := by
  unfold Obligations.UnpackRfNormalizesEveryCounter
  intro s r q p w n nf off hpc hready
  obtain ⟨cs, hcs, hbody⟩ := hready.run_eq
  obtain ⟨hlen, hcounter⟩ := counters_eq_some.1 hcs
  have hvals : (rfValues s.tick nf off cs).length = n := by simp [hlen]
  refine ⟨Memory.writeRange s.outbuf 0 (rfValues s.tick nf off cs),
    zeroTrack s.params.zeroFrameCap s.cfg.zeroFrameCtr (rfValues s.tick nf off cs), ?_, fun k hk => ?_,
    fun k hk => Memory.get?_writeRange_zero_of_le s.outbuf (hvals.symm ▸ hk)⟩
  · rw [exec_unpackRf hpc, ← rfBody_eq_run, hbody, ← State.commitUnpack_ended s r _ hvals]
    exact congrArg Host.Outcome.next (State.ret_eq_ended (s := s.commitUnpack _ _) hpc _)
  · have hkcs : k < cs.length := hlen.symm ▸ hk
    refine ⟨cs[k], Config.freeNaN s.tick (2 * k), Config.freeNaN s.tick (2 * k + 1), ?_, ?_⟩
    · rw [← hcounter k hkcs, Nat.zero_add]
    · rw [Memory.get?_writeRange_zero_of_lt s.outbuf (hvals.symm ▸ hk), List.getElem?_eq_getElem (hvals.symm ▸ hk),
        rfValues_getElem hkcs]
      rfl

/-- Reordering puts sample `k` in its place (R164). -/
theorem reorder_getElem? (separate : BitVec 1) {smp : List Word} {n : Nat} (hn : smp.length = n) (heven : n % 2 = 0)
    {k : Nat} (hk : k < n) : (reorder separate smp)[samplePlace separate n k]? = smp[k]? := by
  unfold reorder samplePlace
  split
  · rfl
  split
  · next hk2 =>
    rw [List.getElem?_append_left (by rw [evens_length]; omega), evens_getElem?]
    congr 1; omega
  · next hk2 =>
    rw [List.getElem?_append_right (by rw [evens_length]; omega), odds_getElem?, evens_length]
    congr 1; omega

theorem samplePlace_lt (separate : BitVec 1) {n k : Nat} (heven : n % 2 = 0) (hk : k < n) :
    samplePlace separate n k < n := by
  unfold samplePlace
  split
  · exact hk
  split <;> omega

/-- Settles O36: with what it reads the IQ path completes, its samples written in the order selected. -/
theorem unpackIqNormalizesEverySample : Obligations.UnpackIqNormalizesEverySample := by
  unfold Obligations.UnpackIqNormalizesEverySample
  intro s r q p w n nf fnf hpc hready
  obtain ⟨cs, hcs, hbody⟩ := hready.run_eq
  obtain ⟨hlen, hcounter⟩ := counters_eq_some.1 hcs
  generalize hsmp : iqSamples s.tick w (F32.mul (Config.freeNaN s.tick 0) nf fnf) cs = smp at hbody
  have hn : smp.length = n := by simp [← hsmp, hlen]
  have hout : (reorder s.cfg.iqSeparate smp).length = n := by simp [hn]
  refine ⟨Memory.writeRange s.outbuf 0 (reorder s.cfg.iqSeparate smp),
    zeroTrack s.params.zeroFrameCap s.cfg.zeroFrameCtr smp, Config.freeNaN s.tick 0, ?_, fun k hk => ?_,
    fun k hk => Memory.get?_writeRange_zero_of_le s.outbuf (hout.symm ▸ hk)⟩
  · rw [exec_unpackIq hpc, ← iqBody_eq_run, hbody, ← State.commitUnpack_ended s r smp hout]
    exact congrArg Host.Outcome.next (State.ret_eq_ended (s := s.commitUnpack _ _) hpc _)
  · have hkcs : k < cs.length := hlen.symm ▸ hk
    have hksmp : k < smp.length := hn.symm ▸ hk
    refine ⟨cs[k], Config.freeNaN s.tick (k + 1), ?_, ?_⟩
    · rw [← hcounter k hkcs, Nat.zero_add]
    · have hplace : samplePlace s.cfg.iqSeparate n k < n := samplePlace_lt _ hready.even hk
      rw [Memory.get?_writeRange_zero_of_lt s.outbuf (hout.symm ▸ hplace), reorder_getElem? _ hn hready.even hk]
      subst hsmp
      rw [List.getElem?_eq_getElem hksmp, iqSamples_getElem hkcs]
      rfl

/-! ## The composite read -/

section
variable {s : State} {r : Nat} {q : Request} {fc : Word}

theorem exec_readFrameNorm_unpack (hpc : s.pc = .exec r q (.unpack fc)) :
    exec .readFrameNorm s = unpackStep s (selectedBody s) fun _ => fc := underLock_of_exec hpc _

/-- The command of the selected path runs the selected body. -/
theorem exec_selected {p : Pos} (hpc : s.pc = .exec r q p) :
    exec (if s.cfg.downconvEn = 0 then .unpackRf else .unpackIq) s =
      unpackStep s (selectedBody s) (BitVec.ofNat 32) := by
  unfold selectedBody
  split
  · exact exec_unpackRf hpc
  · exact exec_unpackIq hpc

/-- The raw read of READ_FRAME_NORM commits and stays in flight (R154, R166). -/
theorem exec_readFrameNorm_raw {frs : Nat} (hpc : s.pc = .exec r q (.raw frs fc)) :
    exec .readFrameNorm s = .next (rawStep frs fc (fun t => t.goto (.unpack fc)) s) := underLock_of_exec hpc _

theorem exec_readFrameNorm_raw_ok {frs : Nat} (hpc : s.pc = .exec r q (.raw frs fc)) {bs : List Byte}
    (ha : s.answer (.writeRead [s.params.radarDataAddr] frs) = .ok bs) :
    exec .readFrameNorm s =
      .next (((s.after (.writeRead [s.params.radarDataAddr] frs) (.ok bs)).commitFrame fc bs).at r q (.unpack fc)) := by
  have hpc' : ((s.after (.writeRead [s.params.radarDataAddr] frs) (.ok bs)).commitFrame fc bs).pc =
      .exec r q (.raw frs fc) := hpc
  rw [exec_readFrameNorm_raw hpc, rawStep, transact_ok ha, State.goto_eq_at hpc']

end

/-- Settles O40: the raw read by its answer; then both commands run the selected body, and differ in what they answer. -/
theorem readFrameNormFetchesThenUnpacks : Obligations.ReadFrameNormFetchesThenUnpacks := by
  unfold Obligations.ReadFrameNormFetchesThenUnpacks
  refine ⟨?committed, ?failed, ?unpacked⟩
  case committed =>
    intro s r q frs fc bs hpc op ha
    have hlen : bs.length = frs := answer_length ha
    exact ⟨Memory.writeRange s.rawbuf 0 bs, exec_readFrameNorm_raw_ok hpc ha,
      fun k hk => Memory.get?_writeRange_zero_of_lt s.rawbuf (hlen.symm ▸ hk),
      fun k hk => Memory.get?_writeRange_zero_of_le s.rawbuf (hlen.symm ▸ hk)⟩
  case failed =>
    intro s r q frs fc hpc op ha
    rw [exec_readFrameNorm_raw hpc, rawStep, transact_err_ended hpc ha]
  case unpacked =>
    intro s r q fc hpc body
    have hbody : exec body s = unpackStep s (selectedBody s) (BitVec.ofNat 32) := exec_selected hpc
    clear_value body
    rw [exec_readFrameNorm_unpack hpc, hbody]
    have hend := selectedBody_unpackEnd s
    generalize selectedBody s = b at hend ⊢
    cases hend with
    | fault f => exact ⟨fun f' h => h, fun t ht => by simp [unpackStep] at ht⟩
    | raised st hst =>
      refine ⟨nofun, fun t ht => ?_⟩
      cases ht
      refine ⟨fun st' _ h => congrArg Host.Outcome.next h, fun v hv => ?_⟩
      rw [State.raise_of_exec hpc, Memory.get?_set_self] at hv
      cases hv
      exact absurd rfl hst
    | done n vals out =>
      refine ⟨nofun, fun t ht => ?_⟩
      cases ht
      have hpc' : (s.commitUnpack vals out).pc = .exec r q (.unpack fc) := hpc
      refine ⟨fun st hst h => ?_, fun v _ => ?_⟩
      · have hresp := State.get?_ret_resp hpc' (BitVec.ofNat 32 n)
        rw [h, State.ended, Memory.get?_set_self] at hresp
        exact absurd (Response.mk.inj (Option.some.inj hresp)).1 hst
      · simp only [unpackStep, State.ret_eq_ended hpc']
        rfl

/-- Settles O41: both ready states complete the selected body. -/
theorem readFrameNormCompletes : Obligations.ReadFrameNormCompletes := by
  unfold Obligations.ReadFrameNormCompletes
  intro s r q fc w n nf c hpc hready
  obtain ⟨vals, out, hlen, hbody⟩ : ∃ vals out, out.length = n ∧ selectedBody s = .done n (s.commitUnpack vals out) := by
    unfold selectedBody
    rcases hready with ⟨hsel, hready⟩ | ⟨hsel, hready⟩ <;> obtain ⟨cs, hcs, hbody⟩ := hready.run_eq
    · rw [if_pos hsel, hbody]
      exact ⟨_, _, by simp [counters_length hcs], rfl⟩
    · rw [if_neg hsel, hbody]
      exact ⟨_, _, by simp [counters_length hcs], rfl⟩
  have hpc' : (s.commitUnpack vals out).pc = .exec r q (.unpack fc) := hpc
  refine ⟨(s.commitUnpack vals out).ret fc, ?_, State.ret_pc .., ?_, State.get?_ret_resp hpc' fc, ?_, ?_, ?_, ?_⟩
  · rw [exec_readFrameNorm_unpack hpc, hbody]
    rfl
  · rw [State.ret_eq_ended hpc']; rfl
  · rw [State.ret_cfg, State.commitUnpack_outCount, hlen]
  · exact State.ret_rawbuf ..
  · exact State.ret_trace ..
  · rw [State.ret_cfg]; rfl

end Sys2Proof.Machine
end

section
/-! SUPPORT. Binary32 patterns as a sign and 31 low bits: the fields, the classes, the magnitude and the order as
functions of the low bits; then NaN, infinity, comparison and negation. -/

namespace Sys2Proof.Machine.F32

/-! ## The sign and the low bits -/

/-- Bits 30:0 of a pattern. -/
def low (a : Word) : Nat := a.toNat % 2 ^ 31

theorem low_lt (a : Word) : low a < 2 ^ 31 := Nat.mod_lt _ (by decide)

theorem sign_eq (a : Word) : sign a = decide (2 ^ 31 ≤ a.toNat) := by
  rw [sign, ← BitVec.msb_eq_getLsbD_last, BitVec.msb_eq_decide]

/-- A pattern is its sign and its low bits. -/
theorem toNat_eq (a : Word) : a.toNat = (if sign a then 2 ^ 31 else 0) + low a := by
  have h := a.isLt
  simp only [sign_eq, low, decide_eq_true_eq]
  split <;> omega

theorem eq_iff_sign_low {a b : Word} : a = b ↔ sign a = sign b ∧ low a = low b :=
  ⟨fun h => h ▸ ⟨rfl, rfl⟩, fun ⟨hs, hl⟩ => BitVec.eq_of_toNat_eq (by rw [toNat_eq a, toNat_eq b, hs, hl])⟩

theorem toNat_withSign (neg : Bool) {L : Nat} (h : L < 2 ^ 31) :
    (withSign neg L).toNat = (if neg then 2 ^ 31 else 0) + L := by
  rw [withSign, BitVec.toNat_ofNat, Nat.mod_eq_of_lt]
  split <;> omega

theorem sign_withSign (neg : Bool) {L : Nat} (h : L < 2 ^ 31) : sign (withSign neg L) = neg := by
  rw [sign_eq, toNat_withSign neg h]
  cases neg
  · simpa using h
  · simp

theorem low_withSign (neg : Bool) {L : Nat} (h : L < 2 ^ 31) : low (withSign neg L) = L := by
  rw [low, toNat_withSign neg h]
  split <;> omega

theorem expField_eq (a : Word) : expField a = low a / 2 ^ 23 := by
  simp only [expField, low, BitVec.extractLsb'_toNat, Nat.shiftRight_eq_div_pow]
  omega

theorem fracField_eq (a : Word) : fracField a = low a % 2 ^ 23 := by
  simp only [fracField, low, BitVec.extractLsb'_toNat, Nat.shiftRight_eq_div_pow]
  omega

theorem order_eq (a : Word) : order a = if sign a then -(low a : Int) else low a := by
  simp [order, low, BitVec.extractLsb'_toNat]

theorem getLsbD_zero_withSign (neg : Bool) {L : Nat} (h : L < 2 ^ 31) (he : L % 2 = 0) :
    (withSign neg L).getLsbD 0 = false := by
  rw [← BitVec.testBit_toNat, toNat_withSign neg h, Nat.testBit_zero, decide_eq_false_iff_not]
  split <;> omega

/-! ## The classes of patterns -/

theorem isFinite_iff (a : Word) : isFinite a = true ↔ low a < infBits := by
  have := low_lt a
  simp only [isFinite, expField_eq, infBits, bne_iff_ne]
  omega

theorem isInf_iff (a : Word) : isInf a = true ↔ low a = infBits := by
  have := low_lt a
  simp only [isInf, expField_eq, fracField_eq, infBits, Bool.and_eq_true, beq_iff_eq]
  omega

theorem isNaN_iff (a : Word) : isNaN a = true ↔ infBits < low a := by
  have := low_lt a
  simp only [isNaN, expField_eq, fracField_eq, infBits, Bool.and_eq_true, beq_iff_eq, bne_iff_ne]
  omega

theorem isZero_iff (a : Word) : isZero a = true ↔ low a = 0 := by
  simp only [isZero, expField_eq, fracField_eq, Bool.and_eq_true, beq_iff_eq]
  omega

theorem isNaN_eq_decide (a : Word) : isNaN a = decide (infBits < low a) := by
  rw [Bool.eq_iff_iff, isNaN_iff, decide_eq_true_eq]

theorem isInf_eq_decide (a : Word) : isInf a = decide (low a = infBits) := by
  rw [Bool.eq_iff_iff, isInf_iff, decide_eq_true_eq]

theorem isZero_eq_decide (a : Word) : isZero a = decide (low a = 0) := by
  rw [Bool.eq_iff_iff, isZero_iff, decide_eq_true_eq]

theorem infBits_pos : 0 < infBits := by decide

theorem infBits_lt : infBits < 2 ^ 31 := by decide

/-! ## The magnitude as a function of the low bits -/

/-- The magnitude of the pattern with these low bits, in units of 2^-149. -/
def magOf (L : Nat) : Nat := if L < 2 ^ 23 then L else (2 ^ 23 + L % 2 ^ 23) * 2 ^ (L / 2 ^ 23 - 1)

theorem mag_eq (a : Word) : mag a = magOf (low a) := by
  by_cases h : low a < 2 ^ 23
  · have he : low a / 2 ^ 23 = 0 := by omega
    simp only [mag, expField_eq, fracField_eq, magOf, he, h, if_true]
    omega
  · have he : ¬ low a / 2 ^ 23 = 0 := by omega
    simp only [mag, expField_eq, fracField_eq, magOf, he, h, if_false]

/-- The exponent field and the significand, with the significand's carry into the exponent, give the magnitude. -/
theorem magOf_add {k sig : Nat} (h : sig ≤ 2 ^ 24) (hk : k = 0 ∨ 2 ^ 23 ≤ sig) :
    magOf (k * 2 ^ 23 + sig) = sig * 2 ^ k := by
  rcases Nat.lt_or_ge sig (2 ^ 23) with hs | hs
  · obtain rfl : k = 0 := by omega
    rw [Nat.zero_mul, Nat.zero_add, magOf, if_pos hs, pow_zero, Nat.mul_one]
  · rw [magOf, if_neg (by omega)]
    rcases Nat.lt_or_eq_of_le h with hlt | rfl
    · rw [show (k * 2 ^ 23 + sig) % 2 ^ 23 = sig - 2 ^ 23 by omega,
        show (k * 2 ^ 23 + sig) / 2 ^ 23 - 1 = k by omega, Nat.add_sub_cancel' hs]
    · rw [show (k * 2 ^ 23 + 2 ^ 24) % 2 ^ 23 = 0 by omega,
        show (k * 2 ^ 23 + 2 ^ 24) / 2 ^ 23 - 1 = k + 1 by omega, pow_succ]
      ring

/-- Every pattern has an exponent and a significand of 24 bits, in their one form. -/
theorem exists_exponent (L : Nat) :
    ∃ k sig, L = k * 2 ^ 23 + sig ∧ sig < 2 ^ 24 ∧ (k = 0 ∨ 2 ^ 23 ≤ sig) ∧ magOf L = sig * 2 ^ k := by
  obtain ⟨k, sig, hL, hs, hk⟩ : ∃ k sig, L = k * 2 ^ 23 + sig ∧ sig < 2 ^ 24 ∧ (k = 0 ∨ 2 ^ 23 ≤ sig) :=
    ⟨L / 2 ^ 23 - 1, L - (L / 2 ^ 23 - 1) * 2 ^ 23, by omega, by omega, by omega⟩
  exact ⟨k, sig, hL, hs, hk, hL ▸ magOf_add hs.le hk⟩

theorem magOf_strictMono : StrictMono magOf := by
  refine strictMono_nat_of_lt_succ fun L => ?_
  obtain ⟨k, sig, hL, hs, hk, hm⟩ := exists_exponent L
  have hnext : magOf (L + 1) = (sig + 1) * 2 ^ k := by
    rw [hL, Nat.add_assoc]
    exact magOf_add (by omega) (by omega)
  rw [hm, hnext]
  exact Nat.mul_lt_mul_of_pos_right (Nat.lt_succ_self sig) (by positivity)

theorem magOf_zero : magOf 0 = 0 := rfl

theorem magOf_eq_zero_iff {L : Nat} : magOf L = 0 ↔ L = 0 :=
  ⟨fun h => magOf_strictMono.injective (h.trans magOf_zero.symm), fun h => h ▸ magOf_zero⟩

theorem value_eq (a : Word) : value a = if sign a then -(magOf (low a) : Int) else magOf (low a) := by
  rw [value, mag_eq]

theorem value_natAbs (a : Word) : (value a).natAbs = magOf (low a) := by
  rw [value_eq]; split <;> simp

theorem value_eq_zero_iff (a : Word) : value a = 0 ↔ low a = 0 := by
  rw [← magOf_eq_zero_iff, ← value_natAbs, Int.natAbs_eq_zero]

/-- The order of the places is the order of the values. -/
theorem order_le_iff (a b : Word) : order a ≤ order b ↔ value a ≤ value b := by
  have hle : ∀ {K L : Nat}, magOf K ≤ magOf L ↔ K ≤ L := magOf_strictMono.le_iff_le
  have h1 := hle (K := low a) (L := low b)
  have h2 := hle (K := low b) (L := low a)
  have h3 := magOf_eq_zero_iff (L := low a)
  have h4 := magOf_eq_zero_iff (L := low b)
  rw [order_eq, order_eq, value_eq, value_eq]
  split <;> split <;> omega

/-! ## Negation and NaN -/

theorem neg_getLsbD (a : Word) {k : Nat} (hk : k < 32) :
    (neg a).getLsbD k = if k = 31 then !a.getLsbD 31 else a.getLsbD k := by
  have hbit : ∀ k < 32, (0x80000000 : Word).getLsbD k = decide (k = 31) := by decide
  rw [neg, BitVec.getLsbD_xor, hbit k hk]
  by_cases h : k = 31
  · simp [h]
  · simp [h]

theorem sign_neg (a : Word) : sign (neg a) = !sign a := neg_getLsbD a (by decide)

theorem low_neg (a : Word) : low (neg a) = low a := by
  refine Nat.eq_of_testBit_eq fun k => ?_
  simp only [low, Nat.testBit_mod_two_pow, BitVec.testBit_toNat]
  by_cases h : k < 31
  · rw [neg_getLsbD a (by omega), if_neg (by omega)]
  · simp [h]

theorem value_neg (a : Word) : value (neg a) = -value a := by
  rw [value_eq, value_eq, sign_neg, low_neg]
  cases sign a <;> simp

theorem le_low_or (a b : Word) : low b ≤ low (a ||| b) := by
  have h : low (a ||| b) = low a ||| low b := by
    simp only [low, BitVec.toNat_or, Nat.or_mod_two_pow]
  rw [h]
  exact Nat.right_le_or

theorem isNaN_forceNaN (a : Word) : isNaN (forceNaN a) = true := by
  rw [isNaN_iff]
  simp only [forceNaN]
  split
  case isTrue =>
    rw [BitVec.or_assoc]
    exact Nat.lt_of_lt_of_le (by decide) (le_low_or a (0x7F800000 ||| 0x00400000))
  case isFalse h =>
    refine Nat.lt_of_le_of_ne (le_low_or a 0x7F800000) fun he => h ?_
    rw [fracField_eq, ← he]
    rfl

/-! ## Infinity as an operand -/

theorem isNaN_eq_false_of_isFinite {a : Word} (h : isFinite a = true) : isNaN a = false := by
  rw [isFinite_iff] at h
  rw [isNaN_eq_decide, decide_eq_false_iff_not]
  omega

theorem isInf_eq_false_of_isFinite {a : Word} (h : isFinite a = true) : isInf a = false := by
  rw [isFinite_iff] at h
  rw [isInf_eq_decide, decide_eq_false_iff_not]
  omega

theorem isNaN_eq_false_of_isInf {a : Word} (h : isInf a = true) : isNaN a = false := by
  rw [isInf_iff] at h
  rw [isNaN_eq_decide, decide_eq_false_iff_not]
  omega

theorem isZero_eq_false_of_isInf {a : Word} (h : isInf a = true) : isZero a = false := by
  rw [isInf_iff] at h
  rw [isZero_eq_decide, decide_eq_false_iff_not, h]
  decide

theorem isZero_eq_decide_value (a : Word) : isZero a = decide (value a = 0) := by
  rw [isZero_eq_decide, Bool.decide_congr (value_eq_zero_iff a)]

theorem isInf_withSign_infBits (neg : Bool) : isInf (withSign neg infBits) = true := by
  rw [isInf_iff, low_withSign neg infBits_lt]

theorem sign_withSign_infBits (neg : Bool) : sign (withSign neg infBits) = neg :=
  sign_withSign neg infBits_lt

theorem mul_of_isNaN (nan : Word) {a b : Word} (h : isNaN a = true ∨ isNaN b = true) :
    mul nan a b = forceNaN nan := by
  rcases h with h | h <;> simp [mul, h]

theorem sub_of_isNaN (nan : Word) {a b : Word} (h : isNaN a = true ∨ isNaN b = true) :
    sub nan a b = forceNaN nan := by
  rcases h with h | h <;> simp [sub, h]

theorem mul_inf_left (nan : Word) {a b : Word} (ha : isInf a = true) (hb : isNaN b = false) :
    mul nan a b = if value b = 0 then forceNaN nan else withSign (sign a ^^ sign b) infBits := by
  simp [mul, ha, hb, isNaN_eq_false_of_isInf ha, isZero_eq_false_of_isInf ha, isZero_eq_decide_value]

theorem mul_inf_right (nan : Word) {a b : Word} (ha : isInf a = true) (hb : isNaN b = false) :
    mul nan b a = if value b = 0 then forceNaN nan else withSign (sign b ^^ sign a) infBits := by
  simp [mul, ha, hb, isNaN_eq_false_of_isInf ha, isZero_eq_false_of_isInf ha, isZero_eq_decide_value]

theorem value_ne_zero_of_isInf {a : Word} (h : isInf a = true) : value a ≠ 0 := by
  simpa [isZero_eq_decide_value] using isZero_eq_false_of_isInf h

theorem sub_inf_inf (nan : Word) {a b : Word} (ha : isInf a = true) (hb : isInf b = true) :
    sub nan a b = if sign a = sign b then forceNaN nan else a := by
  simp [sub, ha, hb, isNaN_eq_false_of_isInf ha, isNaN_eq_false_of_isInf hb]

theorem sub_inf_left (nan : Word) {a b : Word} (ha : isInf a = true) (hb : isFinite b = true) : sub nan a b = a := by
  simp [sub, ha, isNaN_eq_false_of_isInf ha, isNaN_eq_false_of_isFinite hb, isInf_eq_false_of_isFinite hb]

theorem sub_inf_right (nan : Word) {a b : Word} (ha : isInf a = true) (hb : isFinite b = true) :
    sub nan b a = neg a := by
  simp [sub, ha, isNaN_eq_false_of_isInf ha, isNaN_eq_false_of_isFinite hb, isInf_eq_false_of_isFinite hb]

/-- Settles O45: a NaN operand, an infinity beside a number and two infinities each take one branch of the definitions. -/
theorem naNAndInfinityFollowIeee : Obligations.NaNAndInfinityFollowIeee := by
  unfold Obligations.NaNAndInfinityFollowIeee
  intro nan a b
  refine ⟨fun h => ?_, fun ha hb => ?_, fun ha hb => ?_⟩
  · rw [mul_of_isNaN nan h, sub_of_isNaN nan h]
    exact ⟨isNaN_forceNaN nan, isNaN_forceNaN nan⟩
  · have hnan := isNaN_eq_false_of_isFinite hb
    rw [mul_inf_left nan ha hnan, mul_inf_right nan ha hnan, Bool.xor_comm (sign b)]
    refine ⟨fun h0 => ?_, fun h0 => ?_, sub_inf_left nan ha hb, sub_inf_right nan ha hb⟩
    · rw [if_pos h0]
      exact ⟨isNaN_forceNaN nan, isNaN_forceNaN nan⟩
    · rw [if_neg h0]
      exact ⟨isInf_withSign_infBits _, isInf_withSign_infBits _, sign_withSign_infBits _, sign_withSign_infBits _⟩
  · rw [mul_inf_left nan ha (isNaN_eq_false_of_isInf hb), if_neg (value_ne_zero_of_isInf hb), sub_inf_inf nan ha hb]
    exact ⟨isInf_withSign_infBits _, sign_withSign_infBits _,
      fun h => by rw [if_pos h]; exact isNaN_forceNaN nan, fun h => if_neg h⟩

/-! ## Comparison -/

theorem le_iff {a b : Word} (ha : isNaN a = false) (hb : isNaN b = false) : le a b = true ↔ order a ≤ order b := by
  simp [le, ha, hb]

theorem low_le_of_isNaN_eq_false {a : Word} (h : isNaN a = false) : low a ≤ infBits := by
  simpa [isNaN_eq_decide] using h

/-- Minus infinity is below everything, plus infinity only below itself. -/
theorem inf_le_iff {a b : Word} (ha : isInf a = true) (hb : isNaN b = false) :
    order a ≤ order b ↔ sign a = true ∨ b = a := by
  have hle := low_le_of_isNaN_eq_false hb
  have hpos := infBits_pos
  rw [isInf_iff] at ha
  rw [eq_iff_sign_low, order_eq, order_eq]
  cases sign a <;> cases sign b <;> simp <;> omega

/-- Plus infinity is above everything, minus infinity only above itself. -/
theorem le_inf_iff {a b : Word} (ha : isNaN a = false) (hb : isInf b = true) :
    order a ≤ order b ↔ sign b = false ∨ a = b := by
  have hle := low_le_of_isNaN_eq_false ha
  have hpos := infBits_pos
  rw [isInf_iff] at hb
  rw [eq_iff_sign_low, order_eq, order_eq]
  cases sign a <;> cases sign b <;> simp <;> omega

/-- Settles O46: the places in the order are the low bits, and the magnitude grows with them. -/
theorem compareAndNegateFollowIeee : Obligations.CompareAndNegateFollowIeee := by
  unfold Obligations.CompareAndNegateFollowIeee
  refine ⟨fun a b ha hb => ?_, fun a b h => ?_, fun a b ha hb => ⟨fun hi => ?_, fun hi => ?_⟩,
    fun a k hk => neg_getLsbD a hk, value_neg⟩
  · rw [le_iff (isNaN_eq_false_of_isFinite ha) (isNaN_eq_false_of_isFinite hb), order_le_iff]
  · rcases h with h | h <;> simp [le, h]
  · rw [le_iff ha hb, inf_le_iff hi hb]
  · rw [le_iff ha hb, le_inf_iff ha hi]

end Sys2Proof.Machine.F32
end

section
/-! SUPPORT. Rounding to nearest, ties to even: what the integer division of `shiftRightRNE` gives, what `roundMag` gives, and
that no finite pattern is nearer; then the integer conversion, the product and the difference. -/

namespace Sys2Proof.Machine.F32

/-! ## A number rounded to a multiple of `d` -/

/-- `q` steps of `d` are a nearest multiple of `d` to `x`, the even one at a tie. -/
structure RoundsTo (x d q : Nat) : Prop where
  not_above : 2 * (q * d) ≤ 2 * x + d
  not_below : 2 * x ≤ 2 * (q * d) + d
  even_of_tie : 2 * (q * d) = 2 * x + d ∨ 2 * x = 2 * (q * d) + d → q % 2 = 0

theorem shiftRightRNE_roundsTo (m t : Nat) : RoundsTo m (2 ^ t) (shiftRightRNE m t) := by
  have hlt := Nat.mod_lt m (show 0 < 2 ^ t by positivity)
  have hdiv := Nat.div_add_mod' m (2 ^ t)
  simp only [shiftRightRNE]
  generalize 2 ^ t = d at *
  generalize m / d = q at *
  generalize m % d = e at *
  have hsucc : (q + 1) * d = q * d + d := Nat.succ_mul q d
  split
  · exact ⟨by omega, by omega, by omega⟩
  · exact ⟨by omega, by omega, by omega⟩

theorem RoundsTo.scale {x d q c : Nat} (hc : 0 < c) (h : RoundsTo x d q) : RoundsTo (x * c) (d * c) q := by
  have hq : q * (d * c) = q * d * c := (Nat.mul_assoc q d c).symm
  refine ⟨?_, ?_, fun htie => h.even_of_tie ?_⟩
  · calc 2 * (q * (d * c)) = 2 * (q * d) * c := by ring
      _ ≤ (2 * x + d) * c := Nat.mul_le_mul_right c h.not_above
      _ = 2 * (x * c) + d * c := by ring
  · calc 2 * (x * c) = 2 * x * c := by ring
      _ ≤ (2 * (q * d) + d) * c := Nat.mul_le_mul_right c h.not_below
      _ = 2 * (q * (d * c)) + d * c := by ring
  · exact htie.imp (fun h => Nat.eq_of_mul_eq_mul_right hc (by linarith))
      (fun h => Nat.eq_of_mul_eq_mul_right hc (by linarith))

theorem roundsTo_exact {d : Nat} (q : Nat) (hd : 0 < d) : RoundsTo (q * d) d q :=
  ⟨by omega, by omega, by omega⟩

theorem RoundsTo.le_of_le {x d q b : Nat} (hd : 0 < d) (h : RoundsTo x d q) (hx : x ≤ b * d) : q ≤ b := by
  by_contra hlt
  have hmul := Nat.mul_le_mul_right d (show b + 1 ≤ q by omega)
  have habove := h.not_above
  rw [Nat.succ_mul] at hmul
  omega

theorem RoundsTo.ge_of_ge {x d q b : Nat} (hd : 0 < d) (h : RoundsTo x d q) (hx : b * d ≤ x) : b ≤ q := by
  by_contra hlt
  have hmul := Nat.mul_le_mul_right d (show q + 1 ≤ b by omega)
  have hbelow := h.not_below
  rw [Nat.succ_mul] at hmul
  omega

/-- A number with its sign. -/
def signed (neg : Bool) (n : Nat) : Int := if neg then -(n : Int) else n

theorem signed_false (n : Nat) : signed false n = n := rfl

theorem signed_true (n : Nat) : signed true n = -n := rfl

theorem signed_mul_natCast (neg : Bool) (a b : Nat) : signed neg a * b = signed neg (a * b) := by
  cases neg <;> simp [signed]

theorem value_eq_signed (a : Word) : value a = signed (sign a) (magOf (low a)) := value_eq a

/-- Among all multiples of `d`, of either sign, none is nearer, and where another one is as near, `q` is even. -/
theorem RoundsTo.nearest {x d q : Nat} (h : RoundsTo x d q) (neg : Bool) (j : Int) :
    (signed neg q * d - signed neg x).natAbs ≤ (j * d - signed neg x).natAbs ∧
      ((signed neg q * d - signed neg x).natAbs = (j * d - signed neg x).natAbs → j ≠ signed neg q → q % 2 = 0) := by
  by_cases hj : j = signed neg q
  · exact ⟨by rw [hj], fun _ hne => absurd hj hne⟩
  · obtain ⟨habove, hbelow, htie⟩ := h
    have hstep : (d : Int).natAbs ≤ (j * d - signed neg q * d).natAbs := by
      rw [← Int.sub_mul, Int.natAbs_mul]
      exact Nat.le_mul_of_pos_left _ (Int.natAbs_pos.mpr (sub_ne_zero.mpr hj))
    have hsq : signed neg q * d = signed neg (q * d) := by cases neg <;> simp [signed]
    rw [hsq] at hstep ⊢
    generalize j * (d : Int) = jd at *
    generalize q * d = qd at *
    cases neg <;> simp only [signed, if_true, if_false, Bool.false_eq_true] at * <;> omega

/-! ## `roundMag` as an exponent and a significand -/

/-- The exponent field of the result, less one where the significand has its 24th bit. -/
def roundExp (m u : Nat) : Nat := Nat.log2 m + 126 - u

/-- The rounded significand. -/
def roundSig (m u : Nat) : Nat :=
  if roundExp m u + u ≥ 149 then shiftRightRNE m (roundExp m u + u - 149) else m * 2 ^ (149 - (roundExp m u + u))

theorem roundMag_eq {m : Nat} (hm : m ≠ 0) (u : Nat) :
    roundMag m u = min (roundExp m u * 2 ^ 23 + roundSig m u) infBits := if_neg hm

/-- The significand counts steps of the result's last place, here in units of 2^-149 / 2^u. -/
theorem roundSig_roundsTo (m u : Nat) : RoundsTo (m * 2 ^ 149) (2 ^ (roundExp m u + u)) (roundSig m u) := by
  rw [roundSig]
  generalize roundExp m u + u = p
  split
  case isTrue h =>
    have hp : 2 ^ p = 2 ^ (p - 149) * 2 ^ 149 := by rw [← pow_add, Nat.sub_add_cancel h]
    rw [hp]
    exact (shiftRightRNE_roundsTo m (p - 149)).scale (by positivity)
  case isFalse h =>
    have hx : m * 2 ^ 149 = m * 2 ^ (149 - p) * 2 ^ p := by
      rw [Nat.mul_assoc, ← pow_add, Nat.sub_add_cancel (by omega)]
    rw [hx]
    exact roundsTo_exact _ (by positivity)

/-- Above the subnormals the significand has all its 24 bits before the rounding. -/
theorem roundExp_normal {m u : Nat} (hm : m ≠ 0) (hk : roundExp m u ≠ 0) :
    2 ^ 23 * 2 ^ (roundExp m u + u) ≤ m * 2 ^ 149 := by
  have he : 23 + (roundExp m u + u) = Nat.log2 m + 149 := by rw [roundExp] at *; omega
  rw [← pow_add, he, pow_add]
  exact Nat.mul_le_mul_right _ (Nat.log2_self_le hm)

theorem lt_roundExp_carry (m u : Nat) : m * 2 ^ 149 < 2 ^ 24 * 2 ^ (roundExp m u + u) := by
  have he : Nat.log2 m + 1 + 149 ≤ 24 + (roundExp m u + u) := by rw [roundExp]; omega
  calc m * 2 ^ 149 < 2 ^ (Nat.log2 m + 1) * 2 ^ 149 := Nat.mul_lt_mul_of_pos_right Nat.lt_log2_self (by positivity)
    _ = 2 ^ (Nat.log2 m + 1 + 149) := (pow_add _ _ _).symm
    _ ≤ 2 ^ (24 + (roundExp m u + u)) := Nat.pow_le_pow_right (by decide) he
    _ = 2 ^ 24 * 2 ^ (roundExp m u + u) := pow_add _ _ _

theorem roundSig_le (m u : Nat) : roundSig m u ≤ 2 ^ 24 :=
  (roundSig_roundsTo m u).le_of_le (by positivity) (lt_roundExp_carry m u).le

theorem roundSig_ge {m u : Nat} (hm : m ≠ 0) : roundExp m u = 0 ∨ 2 ^ 23 ≤ roundSig m u :=
  or_iff_not_imp_left.mpr fun hk =>
    (roundSig_roundsTo m u).ge_of_ge (by positivity) (roundExp_normal hm hk)

theorem magOf_round {m u : Nat} (hm : m ≠ 0) :
    magOf (roundExp m u * 2 ^ 23 + roundSig m u) = roundSig m u * 2 ^ roundExp m u :=
  magOf_add (roundSig_le m u) (roundSig_ge hm)

/-! ## The overflow threshold -/

theorem round_lt_infBits {m u : Nat} (hm : m ≠ 0) (h : m * 2 ^ 149 < (2 ^ 25 - 1) * 2 ^ (252 + u)) :
    roundExp m u * 2 ^ 23 + roundSig m u < infBits := by
  by_contra hge
  have hsig := roundSig_le m u
  have hk : 253 ≤ roundExp m u := by rw [infBits] at hge; omega
  have hnorm := roundExp_normal hm (show roundExp m u ≠ 0 by omega)
  rcases Nat.lt_or_eq_of_le hk with hlt | heq
  · have hpow : 2 ^ (254 + u) ≤ 2 ^ (roundExp m u + u) := Nat.pow_le_pow_right (by decide) (by omega)
    rw [show 254 + u = 252 + u + 2 by omega, pow_add _ (252 + u) 2] at hpow
    omega
  · have habove := (roundSig_roundsTo m u).not_above
    have htop : roundSig m u = 2 ^ 24 := by rw [infBits] at hge; omega
    rw [← heq, htop, show 253 + u = 252 + u + 1 by omega, pow_succ 2 (252 + u)] at habove
    omega

theorem infBits_le_round {m u : Nat} (hm : m ≠ 0) (h : (2 ^ 25 - 1) * 2 ^ (252 + u) ≤ m * 2 ^ 149) :
    infBits ≤ roundExp m u * 2 ^ 23 + roundSig m u := by
  by_contra hlt
  have hsig := roundSig_ge (u := u) hm
  have hcarry := lt_roundExp_carry m u
  have hk : roundExp m u ≤ 253 := by rw [infBits] at hlt; omega
  rcases Nat.lt_or_eq_of_le hk with hk | heq
  · have hpow : 2 ^ (roundExp m u + u) ≤ 2 ^ (252 + u) := Nat.pow_le_pow_right (by decide) (by omega)
    omega
  · obtain ⟨-, hbelow, htie⟩ := roundSig_roundsTo m u
    have htop : roundSig m u ≤ 2 ^ 24 - 1 := by rw [infBits] at hlt; omega
    rw [heq, show 253 + u = 252 + u + 1 by omega, pow_succ 2 (252 + u)] at hbelow htie
    have hmul : roundSig m u * (2 ^ (252 + u) * 2) ≤ (2 ^ 24 - 1) * (2 ^ (252 + u) * 2) :=
      Nat.mul_le_mul_right _ htop
    have hpos : 0 < 2 ^ (252 + u) := by positivity
    have heven := htie (.inr (by omega))
    have hmul' : roundSig m u * (2 ^ (252 + u) * 2) ≤ (2 ^ 24 - 2) * (2 ^ (252 + u) * 2) :=
      Nat.mul_le_mul_right _ (by omega)
    omega

/-! ## No finite pattern is nearer -/

/-- `r`, in steps of `d`, is as near to `x` as any finite pattern, and has an even last bit where another value is as
near. -/
def Nearest (r : Word) (d x : Int) : Prop :=
  ∀ w : Word, isFinite w = true →
    (value r * d - x).natAbs ≤ (value w * d - x).natAbs ∧
    ((value r * d - x).natAbs = (value w * d - x).natAbs → value w ≠ value r → r.getLsbD 0 = false)

theorem Nearest.of_scale {r : Word} {d x c : Int} (hc : c ≠ 0) (h : Nearest r (d * c) (x * c)) : Nearest r d x := by
  have habs : ∀ v : Int, (v * (d * c) - x * c).natAbs = (v * d - x).natAbs * c.natAbs := fun v => by
    rw [← Int.natAbs_mul, Int.sub_mul, Int.mul_assoc]
  have hpos : 0 < c.natAbs := Int.natAbs_pos.mpr hc
  intro w hw
  obtain ⟨hle, htie⟩ := h w hw
  rw [habs, habs] at hle htie
  exact ⟨Nat.le_of_mul_le_mul_right hle hpos, fun heq => htie (by rw [heq])⟩

/-- In steps of one unit. -/
theorem Nearest.of_unit {r : Word} {x : Int} (h : Nearest r (2 ^ 0) x) {w : Word} (hw : isFinite w = true) :
    (value r - x).natAbs ≤ (value w - x).natAbs ∧
    ((value r - x).natAbs = (value w - x).natAbs → value w ≠ value r → r.getLsbD 0 = false) := by
  have hunit := h w hw
  rwa [pow_zero, Int.mul_one, Int.mul_one] at hunit

theorem nearest_zero {r : Word} {d : Int} (hd : d ≠ 0) (hr : value r = 0) : Nearest r d 0 := by
  intro w _
  rw [hr, Int.zero_mul, sub_zero, sub_zero]
  refine ⟨Nat.zero_le _, fun heq hne => absurd ?_ hne⟩
  have hprod : value w * d = 0 := Int.natAbs_eq_zero.mp heq.symm
  exact (Int.mul_eq_zero.mp hprod).resolve_right hd

/-- A magnitude is a whole number of steps of `2^k`, or lies below the numbers with that last place. -/
theorem magOf_multiple_or_below (k L : Nat) :
    (∃ j, magOf L = j * 2 ^ k) ∨ (k ≠ 0 ∧ magOf L < 2 ^ 23 * 2 ^ k) := by
  obtain ⟨e, sig, -, hsig, -, hmag⟩ := exists_exponent L
  rcases Nat.lt_or_ge e k with hlt | hge
  · refine .inr ⟨by omega, ?_⟩
    calc magOf L = sig * 2 ^ e := hmag
      _ < 2 ^ 24 * 2 ^ e := Nat.mul_lt_mul_of_pos_right hsig (by positivity)
      _ = 2 ^ 23 * 2 ^ (e + 1) := by rw [pow_succ]; ring
      _ ≤ 2 ^ 23 * 2 ^ k := Nat.mul_le_mul_left _ (Nat.pow_le_pow_right (by decide) hlt)
  · exact .inl ⟨sig * 2 ^ (e - k), by rw [hmag, Nat.mul_assoc, ← pow_add, Nat.sub_add_cancel hge]⟩

theorem signed_natAbs (neg : Bool) (n : Nat) : (signed neg n).natAbs = n := by
  cases neg <;> simp [signed]

theorem value_withSign (neg : Bool) {L : Nat} (h : L < 2 ^ 31) : value (withSign neg L) = signed neg (magOf L) := by
  rw [value_eq_signed, sign_withSign neg h, low_withSign neg h]

/-- What is smaller in magnitude than `b ≤ x`, of either sign, is farther from `x` than `b` is. -/
theorem natAbs_sub_signed_lt (neg : Bool) {b x : Nat} {v : Int} (hb : b ≤ x) (hv : v.natAbs < b) :
    (signed neg b - signed neg x).natAbs < (v - signed neg x).natAbs := by
  cases neg
  · rw [signed_false, signed_false]; omega
  · rw [signed_true, signed_true]; omega

/-- The rounded number is nearest: to a multiple of its own last place by the rounding, and a smaller finite number that is
no such multiple is farther than the least of the result's binade. -/
theorem nearest_round {m u : Nat} (neg : Bool) (hm : m ≠ 0)
    (hlt : roundExp m u * 2 ^ 23 + roundSig m u < infBits) :
    Nearest (withSign neg (roundExp m u * 2 ^ 23 + roundSig m u)) (2 ^ u : Nat) (signed neg (m * 2 ^ 149)) := by
  intro w _
  have hlow : roundExp m u * 2 ^ 23 + roundSig m u < 2 ^ 31 := hlt.trans infBits_lt
  have hstep : ∀ (b : Bool) (j : Nat),
      signed b (j * 2 ^ roundExp m u) * (2 ^ u : Nat) = signed b j * (2 ^ (roundExp m u + u) : Nat) := fun b j => by
    rw [signed_mul_natCast, signed_mul_natCast, Nat.mul_assoc, ← pow_add]
  have hround := roundSig_roundsTo m u
  rw [value_withSign neg hlow, magOf_round hm, hstep]
  rcases magOf_multiple_or_below (roundExp m u) (low w) with ⟨j, hj⟩ | ⟨hk, hbelow⟩
  · rw [value_eq_signed w, hj, hstep]
    obtain ⟨hle, htie⟩ := hround.nearest neg (signed (sign w) j)
    refine ⟨hle, fun heq hne => getLsbD_zero_withSign neg hlow ?_⟩
    have heven : roundSig m u % 2 = 0 := htie heq fun hsame => hne ?_
    · omega
    · rw [← signed_mul_natCast, hsame, signed_mul_natCast]
  · obtain ⟨hle, -⟩ := hround.nearest neg (signed neg (2 ^ 23))
    have hnorm := roundExp_normal hm hk
    have hw : (value w * (2 ^ u : Nat)).natAbs < 2 ^ 23 * 2 ^ (roundExp m u + u) := by
      rw [Int.natAbs_mul, value_natAbs, Int.natAbs_natCast, pow_add, ← Nat.mul_assoc]
      exact Nat.mul_lt_mul_of_pos_right hbelow (by positivity)
    have hfar : (signed neg (2 ^ 23) * (2 ^ (roundExp m u + u) : Nat) - signed neg (m * 2 ^ 149)).natAbs <
        (value w * (2 ^ u : Nat) - signed neg (m * 2 ^ 149)).natAbs := by
      rw [signed_mul_natCast]
      exact natAbs_sub_signed_lt neg hnorm hw
    exact ⟨(hle.trans_lt hfar).le, fun heq => absurd heq (hle.trans_lt hfar).ne⟩

/-- `round` below the overflow threshold. -/
theorem round_nearest (neg : Bool) {m u : Nat} (h : m * 2 ^ 149 < (2 ^ 25 - 1) * 2 ^ (252 + u)) :
    isFinite (round neg m u) = true ∧ Nearest (round neg m u) (2 ^ u : Nat) (signed neg (m * 2 ^ 149)) := by
  rcases Nat.eq_zero_or_pos m with rfl | hpos
  · have hr : round neg 0 u = withSign neg 0 := rfl
    have hd : ((2 ^ u : Nat) : Int) ≠ 0 := by positivity
    have hx : signed neg (0 * 2 ^ 149) = 0 := by cases neg <;> rfl
    rw [hr, isFinite_iff, low_withSign neg (by decide), hx]
    refine ⟨infBits_pos, nearest_zero hd ?_⟩
    rw [value_eq_zero_iff, low_withSign neg (by decide)]
  · have hm : m ≠ 0 := hpos.ne'
    have hlt := round_lt_infBits hm h
    rw [round, roundMag_eq hm, Nat.min_eq_left hlt.le, isFinite_iff, low_withSign neg (hlt.trans infBits_lt)]
    exact ⟨hlt, nearest_round neg hm hlt⟩

/-- `round` from the overflow threshold on. -/
theorem round_eq_inf (neg : Bool) {m u : Nat} (h : (2 ^ 25 - 1) * 2 ^ (252 + u) ≤ m * 2 ^ 149) :
    round neg m u = withSign neg infBits := by
  have hm : m ≠ 0 := by
    rintro rfl
    have hpos : 0 < 2 ^ (252 + u) := by positivity
    omega
  rw [round, roundMag_eq hm, Nat.min_eq_right (infBits_le_round hm h)]

theorem sign_round (neg : Bool) (m u : Nat) : sign (round neg m u) = neg := by
  refine sign_withSign neg (Nat.lt_of_le_of_lt ?_ infBits_lt)
  by_cases hm : m = 0
  · rw [roundMag, if_pos hm]; exact Nat.zero_le _
  · rw [roundMag_eq hm]; exact Nat.min_le_right _ _

/-- `round` of a number counted in units of 2^-149 / 2^v or less, below the threshold. -/
theorem round_nearest_of_lt (neg : Bool) {m v : Nat} (h : m < (2 ^ 25 - 1) * 2 ^ (252 + v)) :
    isFinite (round neg m (v + 149)) = true ∧ Nearest (round neg m (v + 149)) (2 ^ v) (signed neg m) := by
  have hscaled : m * 2 ^ 149 < (2 ^ 25 - 1) * 2 ^ (252 + (v + 149)) := by
    rw [← Nat.add_assoc, pow_add _ (252 + v), ← Nat.mul_assoc]
    exact Nat.mul_lt_mul_of_pos_right h (by positivity)
  obtain ⟨hfin, hnear⟩ := round_nearest neg hscaled
  rw [pow_add, Nat.cast_mul, ← signed_mul_natCast] at hnear
  have h := Nearest.of_scale (by positivity) hnear
  rw [Nat.cast_pow] at h
  exact ⟨hfin, h⟩

theorem round_eq_inf_of_ge (neg : Bool) {m v : Nat} (h : (2 ^ 25 - 1) * 2 ^ (252 + v) ≤ m) :
    round neg m (v + 149) = withSign neg infBits := by
  refine round_eq_inf neg ?_
  rw [← Nat.add_assoc, pow_add _ (252 + v), ← Nat.mul_assoc]
  exact Nat.mul_le_mul_right _ h

/-! ## The integer conversion -/

theorem eq_signed_natAbs (n : Int) : n = signed (decide (n < 0)) n.natAbs := by
  by_cases h : n < 0
  · rw [decide_eq_true h, signed_true]; omega
  · rw [decide_eq_false h, signed_false]; omega

/-- Settles O42: an integer is rounded in steps of 2^-149, and 48 bits are far below the threshold. -/
theorem intToFloatRoundsToNearestEven : Obligations.IntToFloatRoundsToNearestEven := by
  unfold Obligations.IntToFloatRoundsToNearestEven
  refine ⟨rfl, fun n hn => ?_⟩
  have hbound : n.natAbs * 2 ^ 149 < (2 ^ 25 - 1) * 2 ^ (252 + 0) :=
    (Nat.mul_lt_mul_of_pos_right hn (by positivity)).trans (by norm_num)
  obtain ⟨hfin, hnear⟩ := round_nearest (decide (n < 0)) hbound
  have hx : signed (decide (n < 0)) (n.natAbs * 2 ^ 149) = n * 2 ^ 149 := by
    rw [← signed_mul_natCast, ← eq_signed_natAbs]; rfl
  rw [hx] at hnear
  exact ⟨hfin, fun w hw => hnear.of_unit hw⟩

/-! ## The product -/

theorem mul_finite (nan : Word) {a b : Word} (ha : isFinite a = true) (hb : isFinite b = true) :
    mul nan a b = round (sign a ^^ sign b) (mag a * mag b) 298 := by
  simp [mul, isNaN_eq_false_of_isFinite, isInf_eq_false_of_isFinite, ha, hb]

theorem value_mul (a b : Word) : value a * value b = signed (sign a ^^ sign b) (mag a * mag b) := by
  simp only [value]
  cases sign a <;> cases sign b <;> simp [signed]

/-- Settles O43: the product of the magnitudes is exact, and rounded once. -/
theorem multiplyRoundsToNearestEven : Obligations.MultiplyRoundsToNearestEven := by
  unfold Obligations.MultiplyRoundsToNearestEven
  intro nan a b ha hb
  simp only [mul_finite nan ha hb, value_mul, signed_natAbs, sign_round, true_and]
  generalize (sign a ^^ sign b) = neg
  generalize mag a * mag b = m
  rw [show 401 = 252 + 149 from rfl]
  refine ⟨fun hlt => round_nearest_of_lt neg (v := 149) hlt, fun hge => ?_⟩
  rw [round_eq_inf_of_ge neg (v := 149) hge]
  exact isInf_withSign_infBits neg

/-! ## The difference -/

theorem sub_finite (nan : Word) {a b : Word} (ha : isFinite a = true) (hb : isFinite b = true) :
    sub nan a b = if value a = value b then withSign (isZero a && sign a && !sign b) 0
      else round (decide (value a < value b)) (value a - value b).natAbs 149 := by
  simp [sub, isNaN_eq_false_of_isFinite, isInf_eq_false_of_isFinite, ha, hb]

/-- The zero of a difference of equal values is minus zero for (-0) - (+0) alone. -/
theorem withSign_zero_of_value_eq {a b : Word} (h : value a = value b) :
    withSign (isZero a && sign a && !sign b) 0 = if a = 0x80000000 ∧ b = 0x00000000 then 0x80000000 else 0x00000000 := by
  have ha : a = 0x80000000 ↔ sign a = true ∧ low a = 0 := eq_iff_sign_low
  have hb : b = 0x00000000 ↔ sign b = false ∧ low b = 0 := eq_iff_sign_low
  have hzero : low a = 0 ↔ low b = 0 := by rw [← value_eq_zero_iff, h, value_eq_zero_iff]
  have hcond : (isZero a && sign a && !sign b) = true ↔ a = 0x80000000 ∧ b = 0x00000000 := by
    rw [ha, hb, ← hzero, Bool.and_eq_true, Bool.and_eq_true, Bool.not_eq_true', isZero_iff]
    tauto
  by_cases hc : a = 0x80000000 ∧ b = 0x00000000
  · rw [hcond.mpr hc, if_pos hc]; rfl
  · rw [Bool.eq_false_iff.mpr (mt hcond.mp hc), if_neg hc]; rfl

/-- Settles O44: the difference of the values is exact, and rounded once; equal values leave a zero. -/
theorem subtractRoundsToNearestEven : Obligations.SubtractRoundsToNearestEven := by
  unfold Obligations.SubtractRoundsToNearestEven
  intro nan a b ha hb
  simp only [sub_finite nan ha hb]
  by_cases heq : value a = value b
  · have hlow := low_withSign (isZero a && sign a && !sign b) (L := 0) (by decide)
    have hnear := nearest_zero (d := 2 ^ 0) (by decide) ((value_eq_zero_iff _).mpr hlow)
    rw [if_pos heq, Int.sub_eq_zero.mpr heq]
    refine ⟨fun _ => ⟨?_, fun w hw => hnear.of_unit hw⟩, fun hge => ?_, fun _ => withSign_zero_of_value_eq heq⟩
    · rw [isFinite_iff, hlow]; exact infBits_pos
    · exact absurd hge (by decide)
  · rw [if_neg heq]
    have hneg : decide (value a < value b) = decide (value a - value b < 0) := decide_eq_decide.mpr (by omega)
    rw [hneg]
    refine ⟨fun hlt => ?_, fun hge => ?_, fun h => absurd h heq⟩
    · obtain ⟨hfin, hnear⟩ := round_nearest_of_lt (decide (value a - value b < 0)) (v := 0) hlt
      rw [← eq_signed_natAbs] at hnear
      exact ⟨hfin, fun w hw => hnear.of_unit hw⟩
    · rw [round_eq_inf_of_ge _ (v := 0) hge]
      exact ⟨isInf_withSign_infBits _, sign_withSign_infBits _⟩

end Sys2Proof.Machine.F32
end
